-- ==== Sys2Proof/Word.lean ====
section
/-! DEFINITION. The word types of the hardware: the two register widths and the plain bit-vector synonyms.
Nothing here computes; every operation lives in Decode.lean or under Machine/. -/

namespace Sys2Proof

/-- The parameter `XLEN` (00_scope.md R2): the width of each integer register, of `pc` and of each CSR. -/
inductive Xlen where
  | rv32
  | rv64
  deriving DecidableEq, Repr, Inhabited

/-- The number of bits of a register, 32 or 64 (R2). -/
@[reducible] def Xlen.bits : Xlen → Nat
  | .rv32 => 32
  | .rv64 => 64

/-- A byte has 8 bits (10_state.md R29). -/
abbrev Byte := BitVec 8

/-- Every instruction is 32 bits long (30_encoding.md R100). -/
abbrev InstWord := BitVec 32

/-- A register field holds the register number 0 to 31 (30_encoding.md R101). -/
abbrev Reg := BitVec 5

/-- A CSR address is 12 bits (10_state.md R30). -/
abbrev CsrAddr := BitVec 12

/-- An `XLEN`-bit value (00_scope.md R4). -/
abbrev XWord (x : Xlen) := BitVec x.bits

end Sys2Proof
end

