-- ==== Sys2Proof/Syntax.lean ====
section
/-! DEFINITION. The instructions: one constructor for each row of spec/opcode_table.json, in the table's order, with
the operand fields of 30_encoding.md R102 to R110. A branch or jump offset is the byte offset, bit 0 included (R106,
R107); a CSR operand is the raw 12-bit address (R108); the fields of FENCE and FENCE.I that the hardware ignores are
kept (R114). -/

namespace Sys2Proof

inductive Instr where
  -- integer register-immediate (40_integer_immediate.md)
  | lui (rd : Reg) (imm : BitVec 20)
  | auipc (rd : Reg) (imm : BitVec 20)
  | addi (rd rs1 : Reg) (imm : BitVec 12)
  | slti (rd rs1 : Reg) (imm : BitVec 12)
  | sltiu (rd rs1 : Reg) (imm : BitVec 12)
  | xori (rd rs1 : Reg) (imm : BitVec 12)
  | ori (rd rs1 : Reg) (imm : BitVec 12)
  | andi (rd rs1 : Reg) (imm : BitVec 12)
  | slli (rd rs1 : Reg) (shamt : BitVec 6)
  | srli (rd rs1 : Reg) (shamt : BitVec 6)
  | srai (rd rs1 : Reg) (shamt : BitVec 6)
  -- integer register-register (41_integer_register.md)
  | add (rd rs1 rs2 : Reg)
  | sub (rd rs1 rs2 : Reg)
  | sll (rd rs1 rs2 : Reg)
  | slt (rd rs1 rs2 : Reg)
  | sltu (rd rs1 rs2 : Reg)
  | xor (rd rs1 rs2 : Reg)
  | srl (rd rs1 rs2 : Reg)
  | sra (rd rs1 rs2 : Reg)
  | or (rd rs1 rs2 : Reg)
  | and (rd rs1 rs2 : Reg)
  -- fences (42_fence.md)
  | fence (fm pred succ : BitVec 4) (rs1 rd : Reg)
  | fenceI (imm : BitVec 12) (rs1 rd : Reg)
  -- control and status registers (43_csr.md)
  | csrrw (rd : Reg) (csr : CsrAddr) (rs1 : Reg)
  | csrrs (rd : Reg) (csr : CsrAddr) (rs1 : Reg)
  | csrrc (rd : Reg) (csr : CsrAddr) (rs1 : Reg)
  | csrrwi (rd : Reg) (csr : CsrAddr) (uimm : BitVec 5)
  | csrrsi (rd : Reg) (csr : CsrAddr) (uimm : BitVec 5)
  | csrrci (rd : Reg) (csr : CsrAddr) (uimm : BitVec 5)
  -- system (44_system.md)
  | ecall
  | ebreak
  | uret
  | sret
  | mret
  | wfi
  | sfenceVma (rs1 rs2 : Reg)
  -- loads and stores (45_load_store.md)
  | lb (rd rs1 : Reg) (offset : BitVec 12)
  | lh (rd rs1 : Reg) (offset : BitVec 12)
  | lw (rd rs1 : Reg) (offset : BitVec 12)
  | lbu (rd rs1 : Reg) (offset : BitVec 12)
  | lhu (rd rs1 : Reg) (offset : BitVec 12)
  | sb (rs2 rs1 : Reg) (offset : BitVec 12)
  | sh (rs2 rs1 : Reg) (offset : BitVec 12)
  | sw (rs2 rs1 : Reg) (offset : BitVec 12)
  -- control transfer (46_control_transfer.md)
  | jal (rd : Reg) (offset : BitVec 21)
  | jalr (rd rs1 : Reg) (offset : BitVec 12)
  | beq (rs1 rs2 : Reg) (offset : BitVec 13)
  | bne (rs1 rs2 : Reg) (offset : BitVec 13)
  | blt (rs1 rs2 : Reg) (offset : BitVec 13)
  | bge (rs1 rs2 : Reg) (offset : BitVec 13)
  | bltu (rs1 rs2 : Reg) (offset : BitVec 13)
  | bgeu (rs1 rs2 : Reg) (offset : BitVec 13)
  -- XLEN = 64 only (47_rv64i_only.md)
  | lwu (rd rs1 : Reg) (offset : BitVec 12)
  | ld (rd rs1 : Reg) (offset : BitVec 12)
  | sd (rs2 rs1 : Reg) (offset : BitVec 12)
  | addiw (rd rs1 : Reg) (imm : BitVec 12)
  | slliw (rd rs1 : Reg) (shamt : BitVec 5)
  | srliw (rd rs1 : Reg) (shamt : BitVec 5)
  | sraiw (rd rs1 : Reg) (shamt : BitVec 5)
  | addw (rd rs1 rs2 : Reg)
  | subw (rd rs1 rs2 : Reg)
  | sllw (rd rs1 rs2 : Reg)
  | srlw (rd rs1 rs2 : Reg)
  | sraw (rd rs1 rs2 : Reg)
  deriving DecidableEq, Repr

end Sys2Proof
end

