-- ==== Sys2Proof/WellFormed.lean ====
section
/-! DEFINITION. Which instructions have an encoding on a hart of a given `XLEN`: the three checks the formats put on
operand values. Everything else is excluded by the types of Syntax.lean. -/

namespace Sys2Proof

/-- A shift amount of SLLI, SRLI, SRAI is less than `XLEN` (30_encoding.md R109). -/
def shamtFits (x : Xlen) (shamt : BitVec 6) : Bool := decide (shamt.toNat < x.bits)

/-- Bit 0 of a branch or jump offset is zero (30_encoding.md R106, R107). -/
def evenOffset {n : Nat} (offset : BitVec n) : Bool := !offset.getLsbD 0

/-- The instruction exists only when `XLEN = 64` (47_rv64i_only.md R260). -/
def isRv64 : Xlen → Bool
  | .rv32 => false
  | .rv64 => true

def WellFormed (x : Xlen) : Instr → Bool
  | .lui _ _ | .auipc _ _ => true
  | .addi _ _ _ | .slti _ _ _ | .sltiu _ _ _ | .xori _ _ _ | .ori _ _ _ | .andi _ _ _ => true
  | .slli _ _ shamt | .srli _ _ shamt | .srai _ _ shamt => shamtFits x shamt
  | .add _ _ _ | .sub _ _ _ | .sll _ _ _ | .slt _ _ _ | .sltu _ _ _ => true
  | .xor _ _ _ | .srl _ _ _ | .sra _ _ _ | .or _ _ _ | .and _ _ _ => true
  | .fence _ _ _ _ _ | .fenceI _ _ _ => true
  | .csrrw _ _ _ | .csrrs _ _ _ | .csrrc _ _ _ | .csrrwi _ _ _ | .csrrsi _ _ _ | .csrrci _ _ _ => true
  | .ecall | .ebreak | .uret | .sret | .mret | .wfi | .sfenceVma _ _ => true
  | .lb _ _ _ | .lh _ _ _ | .lw _ _ _ | .lbu _ _ _ | .lhu _ _ _ => true
  | .sb _ _ _ | .sh _ _ _ | .sw _ _ _ => true
  | .jal _ offset => evenOffset offset
  | .jalr _ _ _ => true
  | .beq _ _ offset | .bne _ _ offset | .blt _ _ offset => evenOffset offset
  | .bge _ _ offset | .bltu _ _ offset | .bgeu _ _ offset => evenOffset offset
  | .lwu _ _ _ | .ld _ _ _ | .sd _ _ _ | .addiw _ _ _ => isRv64 x
  | .slliw _ _ _ | .srliw _ _ _ | .sraiw _ _ _ => isRv64 x
  | .addw _ _ _ | .subw _ _ _ | .sllw _ _ _ | .srlw _ _ _ | .sraw _ _ _ => isRv64 x

end Sys2Proof
end

