-- ==== Sys2Proof/Decode.lean ====
section
/-! DEFINITION. The decoder, a pure function of the 32-bit word and of `XLEN` (30_encoding.md R117), and after it the
encoder, both written from the formats of R102 and the table of R112. -/

namespace Sys2Proof

/-! ### Fields of an instruction word (R101 to R110) -/

/-- A field `v` put at bit `lo` of a `w`-bit value that is zero elsewhere. -/
def placeField {n : Nat} (w lo : Nat) (v : BitVec n) : BitVec w := v.setWidth w <<< lo

def opcodeField (w : InstWord) : BitVec 7 := w.extractLsb' 0 7
def rdField (w : InstWord) : Reg := w.extractLsb' 7 5
def funct3Field (w : InstWord) : BitVec 3 := w.extractLsb' 12 3
def rs1Field (w : InstWord) : Reg := w.extractLsb' 15 5
def rs2Field (w : InstWord) : Reg := w.extractLsb' 20 5
def funct7Field (w : InstWord) : BitVec 7 := w.extractLsb' 25 7

/-- The function code of the shift-immediates, `inst[31:26]` (R139). -/
def funct6Field (w : InstWord) : BitVec 6 := w.extractLsb' 26 6

/-- `inst[25] ++ inst[24:20]` (R109). -/
def shamtField (w : InstWord) : BitVec 6 := w.extractLsb' 20 6

/-- The I-immediate, also the CSR address (R103, R108). -/
def immI (w : InstWord) : BitVec 12 := w.extractLsb' 20 12

/-- The S-immediate `inst[31:25] ++ inst[11:7]` (R105). -/
def immS (w : InstWord) : BitVec 12 :=
  placeField 12 5 (w.extractLsb' 25 7) ||| placeField 12 0 (w.extractLsb' 7 5)

/-- The U-immediate field `inst[31:12]` (R104). -/
def immU (w : InstWord) : BitVec 20 := w.extractLsb' 12 20

/-- The B-immediate `inst[31] ++ inst[7] ++ inst[30:25] ++ inst[11:8] ++ 0` (R106). -/
def immB (w : InstWord) : BitVec 13 :=
  placeField 13 12 (w.extractLsb' 31 1) ||| placeField 13 11 (w.extractLsb' 7 1) |||
    placeField 13 5 (w.extractLsb' 25 6) ||| placeField 13 1 (w.extractLsb' 8 4)

/-- The J-immediate `inst[31] ++ inst[19:12] ++ inst[20] ++ inst[30:21] ++ 0` (R107). -/
def immJ (w : InstWord) : BitVec 21 :=
  placeField 21 20 (w.extractLsb' 31 1) ||| placeField 21 12 (w.extractLsb' 12 8) |||
    placeField 21 11 (w.extractLsb' 20 1) ||| placeField 21 1 (w.extractLsb' 21 10)

/-! ### Decoding -/

/-- Why a word is no instruction. Executing such a word raises `IllegalInstruction` (R113); the reason is for the
reader only. -/
inductive DecodeError where
  /-- Fewer than four bytes are left. -/
  | tooShort
  /-- Bits 1-0 are not `11` (R100, R113). -/
  | notThirtyTwoBit
  /-- The opcode is in no row of R111. -/
  | unknownOpcode
  /-- The opcode is used, this function code under it is not (R113, R161, R190, R230, R274). -/
  | unusedFunction
  /-- A shift-immediate with `inst[25] = 1` when `XLEN = 32` (R115 a). -/
  | reservedShift
  /-- SYSTEM with funct3 000 and none of the words of R207 (R115 b, c). -/
  | reservedSystem
  /-- An encoding of 47_rv64i_only.md when `XLEN = 32` (R113). -/
  | needsXlen64
  deriving DecidableEq, Repr

/-- An instruction of 47_rv64i_only.md: it exists only when `XLEN = 64` (R113). -/
def onlyRv64 (x : Xlen) (i : Instr) : Except DecodeError Instr :=
  if isRv64 x then .ok i else .error .needsXlen64

/-- A shift-immediate: `inst[25] = 1` is reserved when `XLEN = 32` (R109, R115 a). -/
def checkedShift (x : Xlen) (shamt : BitVec 6) (i : Instr) : Except DecodeError Instr :=
  if shamtFits x shamt then .ok i else .error .reservedShift

/-- Opcode LOAD, 0x03 (R111, R230). -/
def decodeLoad (x : Xlen) (w : InstWord) : Except DecodeError Instr :=
  match funct3Field w with
  | 0#3 => .ok (.lb (rdField w) (rs1Field w) (immI w))
  | 1#3 => .ok (.lh (rdField w) (rs1Field w) (immI w))
  | 2#3 => .ok (.lw (rdField w) (rs1Field w) (immI w))
  | 3#3 => onlyRv64 x (.ld (rdField w) (rs1Field w) (immI w))
  | 4#3 => .ok (.lbu (rdField w) (rs1Field w) (immI w))
  | 5#3 => .ok (.lhu (rdField w) (rs1Field w) (immI w))
  | 6#3 => onlyRv64 x (.lwu (rdField w) (rs1Field w) (immI w))
  | _ => .error .unusedFunction

/-- Opcode MISC-MEM, 0x0F. The reserved fields are ignored, so only funct3 selects (R114, R172). -/
def decodeMiscMem (w : InstWord) : Except DecodeError Instr :=
  match funct3Field w with
  | 0#3 => .ok (.fence (w.extractLsb' 28 4) (w.extractLsb' 24 4) (w.extractLsb' 20 4) (rs1Field w) (rdField w))
  | 1#3 => .ok (.fenceI (immI w) (rs1Field w) (rdField w))
  | _ => .error .unusedFunction

/-- Opcode OP-IMM, 0x13 (R111, R139). -/
def decodeOpImm (x : Xlen) (w : InstWord) : Except DecodeError Instr :=
  match funct3Field w with
  | 0#3 => .ok (.addi (rdField w) (rs1Field w) (immI w))
  | 1#3 =>
    match funct6Field w with
    | 0#6 => checkedShift x (shamtField w) (.slli (rdField w) (rs1Field w) (shamtField w))
    | _ => .error .unusedFunction
  | 2#3 => .ok (.slti (rdField w) (rs1Field w) (immI w))
  | 3#3 => .ok (.sltiu (rdField w) (rs1Field w) (immI w))
  | 4#3 => .ok (.xori (rdField w) (rs1Field w) (immI w))
  | 5#3 =>
    match funct6Field w with
    | 0#6 => checkedShift x (shamtField w) (.srli (rdField w) (rs1Field w) (shamtField w))
    | 16#6 => checkedShift x (shamtField w) (.srai (rdField w) (rs1Field w) (shamtField w))
    | _ => .error .unusedFunction
  | 6#3 => .ok (.ori (rdField w) (rs1Field w) (immI w))
  | _ => .ok (.andi (rdField w) (rs1Field w) (immI w))

/-- Opcode OP-IMM-32, 0x1B, `XLEN = 64` only (R111, R265, R274). -/
def decodeOpImm32 (x : Xlen) (w : InstWord) : Except DecodeError Instr :=
  match funct3Field w with
  | 0#3 => onlyRv64 x (.addiw (rdField w) (rs1Field w) (immI w))
  | 1#3 =>
    match funct7Field w with
    | 0#7 => onlyRv64 x (.slliw (rdField w) (rs1Field w) (rs2Field w))
    | _ => .error .unusedFunction
  | 5#3 =>
    match funct7Field w with
    | 0#7 => onlyRv64 x (.srliw (rdField w) (rs1Field w) (rs2Field w))
    | 32#7 => onlyRv64 x (.sraiw (rdField w) (rs1Field w) (rs2Field w))
    | _ => .error .unusedFunction
  | _ => .error .unusedFunction

/-- Opcode STORE, 0x23 (R111, R230). -/
def decodeStore (x : Xlen) (w : InstWord) : Except DecodeError Instr :=
  match funct3Field w with
  | 0#3 => .ok (.sb (rs2Field w) (rs1Field w) (immS w))
  | 1#3 => .ok (.sh (rs2Field w) (rs1Field w) (immS w))
  | 2#3 => .ok (.sw (rs2Field w) (rs1Field w) (immS w))
  | 3#3 => onlyRv64 x (.sd (rs2Field w) (rs1Field w) (immS w))
  | _ => .error .unusedFunction

/-- Opcode OP, 0x33 (R111, R150, R161). -/
def decodeOp (w : InstWord) : Except DecodeError Instr :=
  match funct7Field w, funct3Field w with
  | 0#7, 0#3 => .ok (.add (rdField w) (rs1Field w) (rs2Field w))
  | 0#7, 1#3 => .ok (.sll (rdField w) (rs1Field w) (rs2Field w))
  | 0#7, 2#3 => .ok (.slt (rdField w) (rs1Field w) (rs2Field w))
  | 0#7, 3#3 => .ok (.sltu (rdField w) (rs1Field w) (rs2Field w))
  | 0#7, 4#3 => .ok (.xor (rdField w) (rs1Field w) (rs2Field w))
  | 0#7, 5#3 => .ok (.srl (rdField w) (rs1Field w) (rs2Field w))
  | 0#7, 6#3 => .ok (.or (rdField w) (rs1Field w) (rs2Field w))
  | 0#7, 7#3 => .ok (.and (rdField w) (rs1Field w) (rs2Field w))
  | 32#7, 0#3 => .ok (.sub (rdField w) (rs1Field w) (rs2Field w))
  | 32#7, 5#3 => .ok (.sra (rdField w) (rs1Field w) (rs2Field w))
  | _, _ => .error .unusedFunction

/-- Opcode OP-32, 0x3B, `XLEN = 64` only (R111, R274). -/
def decodeOp32 (x : Xlen) (w : InstWord) : Except DecodeError Instr :=
  match funct7Field w, funct3Field w with
  | 0#7, 0#3 => onlyRv64 x (.addw (rdField w) (rs1Field w) (rs2Field w))
  | 0#7, 1#3 => onlyRv64 x (.sllw (rdField w) (rs1Field w) (rs2Field w))
  | 0#7, 5#3 => onlyRv64 x (.srlw (rdField w) (rs1Field w) (rs2Field w))
  | 32#7, 0#3 => onlyRv64 x (.subw (rdField w) (rs1Field w) (rs2Field w))
  | 32#7, 5#3 => onlyRv64 x (.sraw (rdField w) (rs1Field w) (rs2Field w))
  | _, _ => .error .unusedFunction

/-- Opcode BRANCH, 0x63 (R111, R249). -/
def decodeBranch (w : InstWord) : Except DecodeError Instr :=
  match funct3Field w with
  | 0#3 => .ok (.beq (rs1Field w) (rs2Field w) (immB w))
  | 1#3 => .ok (.bne (rs1Field w) (rs2Field w) (immB w))
  | 4#3 => .ok (.blt (rs1Field w) (rs2Field w) (immB w))
  | 5#3 => .ok (.bge (rs1Field w) (rs2Field w) (immB w))
  | 6#3 => .ok (.bltu (rs1Field w) (rs2Field w) (immB w))
  | 7#3 => .ok (.bgeu (rs1Field w) (rs2Field w) (immB w))
  | _ => .error .unusedFunction

/-- SYSTEM with funct3 000: six fixed words and SFENCE.VMA (R207). The argument is the word; bits 31-20 select among the
fixed words once `rs1` and `rd` are zero. -/
def decodePrivileged (w : InstWord) : Except DecodeError Instr :=
  if rdField w ≠ 0 then .error .reservedSystem
  else if funct7Field w = 9#7 then .ok (.sfenceVma (rs1Field w) (rs2Field w))
  else if rs1Field w ≠ 0 then .error .reservedSystem
  else
    match immI w with
    | 0x000#12 => .ok .ecall
    | 0x001#12 => .ok .ebreak
    | 0x002#12 => .ok .uret
    | 0x102#12 => .ok .sret
    | 0x302#12 => .ok .mret
    | 0x105#12 => .ok .wfi
    | _ => .error .reservedSystem

/-- Opcode SYSTEM, 0x73 (R111, R190). -/
def decodeSystem (w : InstWord) : Except DecodeError Instr :=
  match funct3Field w with
  | 0#3 => decodePrivileged w
  | 1#3 => .ok (.csrrw (rdField w) (immI w) (rs1Field w))
  | 2#3 => .ok (.csrrs (rdField w) (immI w) (rs1Field w))
  | 3#3 => .ok (.csrrc (rdField w) (immI w) (rs1Field w))
  | 5#3 => .ok (.csrrwi (rdField w) (immI w) (rs1Field w))
  | 6#3 => .ok (.csrrsi (rdField w) (immI w) (rs1Field w))
  | 7#3 => .ok (.csrrci (rdField w) (immI w) (rs1Field w))
  | _ => .error .unusedFunction

/-- Opcode JALR, 0x67 (R241). -/
def decodeJalr (w : InstWord) : Except DecodeError Instr :=
  match funct3Field w with
  | 0#3 => .ok (.jalr (rdField w) (rs1Field w) (immI w))
  | _ => .error .unusedFunction

/-- The instruction a 32-bit word is on a hart of this `XLEN`, or why it is none (R112, R113, R117). -/
def decode (x : Xlen) (w : InstWord) : Except DecodeError Instr :=
  match opcodeField w with
  | 0x03#7 => decodeLoad x w
  | 0x0F#7 => decodeMiscMem w
  | 0x13#7 => decodeOpImm x w
  | 0x17#7 => .ok (.auipc (rdField w) (immU w))
  | 0x1B#7 => decodeOpImm32 x w
  | 0x23#7 => decodeStore x w
  | 0x33#7 => decodeOp w
  | 0x37#7 => .ok (.lui (rdField w) (immU w))
  | 0x3B#7 => decodeOp32 x w
  | 0x63#7 => decodeBranch w
  | 0x67#7 => decodeJalr w
  | 0x6F#7 => .ok (.jal (rdField w) (immJ w))
  | 0x73#7 => decodeSystem w
  | _ => if w.extractLsb' 0 2 = 3#2 then .error .unknownOpcode else .error .notThirtyTwoBit

/-! ### Bytes (20_memory.md R71, R79: little-endian) -/

/-- The word whose byte at the lowest address is `b0`. -/
def wordOfBytes (b0 b1 b2 b3 : Byte) : InstWord :=
  placeField 32 24 b3 ||| placeField 32 16 b2 ||| placeField 32 8 b1 ||| placeField 32 0 b0

/-- The bytes of a word, lowest address first. -/
def bytesOfWord (w : InstWord) : List Byte :=
  [w.extractLsb' 0 8, w.extractLsb' 8 8, w.extractLsb' 16 8, w.extractLsb' 24 8]

/-- Decode the instruction at the front of any list of bytes; what is left is the rest of the list. -/
def decodeBytes (x : Xlen) : List Byte → Except DecodeError (Instr × List Byte)
  | b0 :: b1 :: b2 :: b3 :: rest =>
    match decode x (wordOfBytes b0 b1 b2 b3) with
    | .ok i => .ok (i, rest)
    | .error e => .error e
  | _ => .error .tooShort

/-- The instruction read from a table word of `nbits` bits. The whole table exists when `XLEN = 64`, so that width is
asked (notes/assumptions/11.md). -/
def decodeTableWord (nbits w : Nat) : Option Instr :=
  match decodeBytes .rv64 (bytesOfWord (BitVec.ofNat 32 (w % 2 ^ nbits))) with
  | .ok (i, _) => some i
  | .error _ => none

/-! ### Encoding (R102, R112) -/

def encR (funct7 : BitVec 7) (rs2 rs1 : Reg) (funct3 : BitVec 3) (rd : Reg) (opcode : BitVec 7) : InstWord :=
  placeField 32 25 funct7 ||| placeField 32 20 rs2 ||| placeField 32 15 rs1 ||| placeField 32 12 funct3 |||
    placeField 32 7 rd ||| placeField 32 0 opcode

def encI (imm : BitVec 12) (rs1 : Reg) (funct3 : BitVec 3) (rd : Reg) (opcode : BitVec 7) : InstWord :=
  placeField 32 20 imm ||| placeField 32 15 rs1 ||| placeField 32 12 funct3 ||| placeField 32 7 rd |||
    placeField 32 0 opcode

/-- The shift-immediate format: six function bits and a six-bit amount whose top bit is `inst[25]` (R109). -/
def encShift (funct6 shamt : BitVec 6) (rs1 : Reg) (funct3 : BitVec 3) (rd : Reg) (opcode : BitVec 7) : InstWord :=
  placeField 32 26 funct6 ||| placeField 32 20 shamt ||| placeField 32 15 rs1 ||| placeField 32 12 funct3 |||
    placeField 32 7 rd ||| placeField 32 0 opcode

def encS (imm : BitVec 12) (rs2 rs1 : Reg) (funct3 : BitVec 3) (opcode : BitVec 7) : InstWord :=
  placeField 32 25 (imm.extractLsb' 5 7) ||| placeField 32 20 rs2 ||| placeField 32 15 rs1 ||| placeField 32 12 funct3 |||
    placeField 32 7 (imm.extractLsb' 0 5) ||| placeField 32 0 opcode

def encB (offset : BitVec 13) (rs2 rs1 : Reg) (funct3 : BitVec 3) (opcode : BitVec 7) : InstWord :=
  placeField 32 31 (offset.extractLsb' 12 1) ||| placeField 32 25 (offset.extractLsb' 5 6) ||| placeField 32 20 rs2 |||
    placeField 32 15 rs1 ||| placeField 32 12 funct3 ||| placeField 32 8 (offset.extractLsb' 1 4) |||
    placeField 32 7 (offset.extractLsb' 11 1) ||| placeField 32 0 opcode

def encU (imm : BitVec 20) (rd : Reg) (opcode : BitVec 7) : InstWord :=
  placeField 32 12 imm ||| placeField 32 7 rd ||| placeField 32 0 opcode

def encJ (offset : BitVec 21) (rd : Reg) (opcode : BitVec 7) : InstWord :=
  placeField 32 31 (offset.extractLsb' 20 1) ||| placeField 32 21 (offset.extractLsb' 1 10) |||
    placeField 32 20 (offset.extractLsb' 11 1) ||| placeField 32 12 (offset.extractLsb' 12 8) ||| placeField 32 7 rd |||
    placeField 32 0 opcode

def encFence (fm pred succ : BitVec 4) (rs1 : Reg) (funct3 : BitVec 3) (rd : Reg) (opcode : BitVec 7) : InstWord :=
  placeField 32 28 fm ||| placeField 32 24 pred ||| placeField 32 20 succ ||| placeField 32 15 rs1 |||
    placeField 32 12 funct3 ||| placeField 32 7 rd ||| placeField 32 0 opcode

/-- The word of an instruction. -/
def encode : Instr → InstWord
  | .lui rd imm => encU imm rd 0x37#7
  | .auipc rd imm => encU imm rd 0x17#7
  | .addi rd rs1 imm => encI imm rs1 0#3 rd 0x13#7
  | .slti rd rs1 imm => encI imm rs1 2#3 rd 0x13#7
  | .sltiu rd rs1 imm => encI imm rs1 3#3 rd 0x13#7
  | .xori rd rs1 imm => encI imm rs1 4#3 rd 0x13#7
  | .ori rd rs1 imm => encI imm rs1 6#3 rd 0x13#7
  | .andi rd rs1 imm => encI imm rs1 7#3 rd 0x13#7
  | .slli rd rs1 shamt => encShift 0#6 shamt rs1 1#3 rd 0x13#7
  | .srli rd rs1 shamt => encShift 0#6 shamt rs1 5#3 rd 0x13#7
  | .srai rd rs1 shamt => encShift 16#6 shamt rs1 5#3 rd 0x13#7
  | .add rd rs1 rs2 => encR 0#7 rs2 rs1 0#3 rd 0x33#7
  | .sub rd rs1 rs2 => encR 32#7 rs2 rs1 0#3 rd 0x33#7
  | .sll rd rs1 rs2 => encR 0#7 rs2 rs1 1#3 rd 0x33#7
  | .slt rd rs1 rs2 => encR 0#7 rs2 rs1 2#3 rd 0x33#7
  | .sltu rd rs1 rs2 => encR 0#7 rs2 rs1 3#3 rd 0x33#7
  | .xor rd rs1 rs2 => encR 0#7 rs2 rs1 4#3 rd 0x33#7
  | .srl rd rs1 rs2 => encR 0#7 rs2 rs1 5#3 rd 0x33#7
  | .sra rd rs1 rs2 => encR 32#7 rs2 rs1 5#3 rd 0x33#7
  | .or rd rs1 rs2 => encR 0#7 rs2 rs1 6#3 rd 0x33#7
  | .and rd rs1 rs2 => encR 0#7 rs2 rs1 7#3 rd 0x33#7
  | .fence fm pred succ rs1 rd => encFence fm pred succ rs1 0#3 rd 0x0F#7
  | .fenceI imm rs1 rd => encI imm rs1 1#3 rd 0x0F#7
  | .csrrw rd csr rs1 => encI csr rs1 1#3 rd 0x73#7
  | .csrrs rd csr rs1 => encI csr rs1 2#3 rd 0x73#7
  | .csrrc rd csr rs1 => encI csr rs1 3#3 rd 0x73#7
  | .csrrwi rd csr uimm => encI csr uimm 5#3 rd 0x73#7
  | .csrrsi rd csr uimm => encI csr uimm 6#3 rd 0x73#7
  | .csrrci rd csr uimm => encI csr uimm 7#3 rd 0x73#7
  | .ecall => encI 0x000#12 0 0#3 0 0x73#7
  | .ebreak => encI 0x001#12 0 0#3 0 0x73#7
  | .uret => encI 0x002#12 0 0#3 0 0x73#7
  | .sret => encI 0x102#12 0 0#3 0 0x73#7
  | .mret => encI 0x302#12 0 0#3 0 0x73#7
  | .wfi => encI 0x105#12 0 0#3 0 0x73#7
  | .sfenceVma rs1 rs2 => encR 9#7 rs2 rs1 0#3 0 0x73#7
  | .lb rd rs1 offset => encI offset rs1 0#3 rd 0x03#7
  | .lh rd rs1 offset => encI offset rs1 1#3 rd 0x03#7
  | .lw rd rs1 offset => encI offset rs1 2#3 rd 0x03#7
  | .lbu rd rs1 offset => encI offset rs1 4#3 rd 0x03#7
  | .lhu rd rs1 offset => encI offset rs1 5#3 rd 0x03#7
  | .sb rs2 rs1 offset => encS offset rs2 rs1 0#3 0x23#7
  | .sh rs2 rs1 offset => encS offset rs2 rs1 1#3 0x23#7
  | .sw rs2 rs1 offset => encS offset rs2 rs1 2#3 0x23#7
  | .jal rd offset => encJ offset rd 0x6F#7
  | .jalr rd rs1 offset => encI offset rs1 0#3 rd 0x67#7
  | .beq rs1 rs2 offset => encB offset rs2 rs1 0#3 0x63#7
  | .bne rs1 rs2 offset => encB offset rs2 rs1 1#3 0x63#7
  | .blt rs1 rs2 offset => encB offset rs2 rs1 4#3 0x63#7
  | .bge rs1 rs2 offset => encB offset rs2 rs1 5#3 0x63#7
  | .bltu rs1 rs2 offset => encB offset rs2 rs1 6#3 0x63#7
  | .bgeu rs1 rs2 offset => encB offset rs2 rs1 7#3 0x63#7
  | .lwu rd rs1 offset => encI offset rs1 6#3 rd 0x03#7
  | .ld rd rs1 offset => encI offset rs1 3#3 rd 0x03#7
  | .sd rs2 rs1 offset => encS offset rs2 rs1 3#3 0x23#7
  | .addiw rd rs1 imm => encI imm rs1 0#3 rd 0x1B#7
  | .slliw rd rs1 shamt => encR 0#7 shamt rs1 1#3 rd 0x1B#7
  | .srliw rd rs1 shamt => encR 0#7 shamt rs1 5#3 rd 0x1B#7
  | .sraiw rd rs1 shamt => encR 32#7 shamt rs1 5#3 rd 0x1B#7
  | .addw rd rs1 rs2 => encR 0#7 rs2 rs1 0#3 rd 0x3B#7
  | .subw rd rs1 rs2 => encR 32#7 rs2 rs1 0#3 rd 0x3B#7
  | .sllw rd rs1 rs2 => encR 0#7 rs2 rs1 1#3 rd 0x3B#7
  | .srlw rd rs1 rs2 => encR 0#7 rs2 rs1 5#3 rd 0x3B#7
  | .sraw rd rs1 rs2 => encR 32#7 rs2 rs1 5#3 rd 0x3B#7

end Sys2Proof
end

