-- ==== Sys2Proof/Config.lean ====
section
/-! DEFINITION. What an implementation fixes (00_scope.md R2) and what the environment and the free
choices of the spec supply (R2, R50, R77, R84, R205, R313). A `Config` is plain data carried by the state and
never changed by a step, so a statement about every state is a statement about every choice of the parameters. -/

namespace Sys2Proof

/-- The three classes of a physical byte address (20_memory.md R82, 92_eei_decisions.md D5). -/
inductive RegionKind where
  | main
  | io
  | vacant
  deriving DecidableEq, Repr, Inhabited

/-- One range of the address map. It is counted in aligned 8-byte blocks, so that a range cannot give two
classes to one block (R74). `shared` marks a `Main` range another agent may write (R86). -/
structure RegionRange where
  firstBlock : Nat
  blocks : Nat
  kind : RegionKind
  shared : Bool
  deriving DecidableEq, Repr

/-- The parameters of 00_scope.md R2 that the model takes as arguments. `ILEN`, `IALIGN`, `MISALIGNED_TRAP` and
`WFI_LIMIT` have the one value the spec decides and stand in the rules that use them.
DESIGN CHOICE (notes/assumptions/2.md): the values a machine is reset with are those of `Config.default`. -/
structure Config (x : Xlen) where
  hasS : Bool
  hasU : Bool
  resetPc : XWord x
  endPc : Option (XWord x)
  regions : List RegionRange
  vendorId : XWord x
  archId : XWord x
  impId : XWord x
  hartId : XWord x
  deriving DecidableEq, Repr

/-- The address map of the spec's own vectors and programs (95_test_vectors.md parts 2 and 3): `Main` is 0x0000 to
0xFFFF, everything else `Vacant`. DESIGN CHOICE, unsafe (notes/assumptions/2.md). -/
def Config.default (x : Xlen) : Config x where
  hasS := true
  hasU := true
  resetPc := 0
  endPc := none
  regions := [⟨0, 0x2000, .main, false⟩]
  vendorId := 0
  archId := 0
  impId := 0
  hartId := 0

/-- The draw `MTVAL_ILLEGAL` (R2, R313). -/
inductive MtvalIllegal where
  | zero
  | bits
  deriving DecidableEq, Repr, Inhabited

/-- The draw `MTVAL_EBREAK` (R2, R313). -/
inductive MtvalEbreak where
  | zero
  | pc
  deriving DecidableEq, Repr, Inhabited

/-- The free choices of one step: what an `IO` region answers (R77), the two trap-value draws (R313), whether a
waiting hart wakes spuriously (R205, R333), and which of the values a byte the hart has stored to has held each of
the four fetched bytes returns (R84). Nothing constrains them. -/
structure Draws where
  ioAnswer : BitVec 64
  mtvalIllegal : MtvalIllegal
  mtvalEbreak : MtvalEbreak
  wake : Bool
  fetchPick : List Nat
  deriving DecidableEq, Repr, Inhabited

/-- The three interrupt request lines of the platform (R50, R334). -/
structure Lines where
  meip : Bool
  mtip : Bool
  msip : Bool
  deriving DecidableEq, Repr, Inhabited

/-- What the environment does in one step (R405): the levels it drives, the writes other agents make to memory before
the fetch and between the fetch and the instruction's own access (R86), and the free choices. -/
structure StepInput where
  lines : Lines
  agentBeforeFetch : List (Nat × Byte)
  agentAfterFetch : List (Nat × Byte)
  draws : Draws
  deriving DecidableEq, Repr, Inhabited

/-- The input of the step with this number, where the state's own list of inputs says nothing about it: the lines, other
agents' writes and the free choices. It has no body: nothing can be proved of its values (notes/assumptions/7.md,
notes/assumptions/8.md). -/
opaque Config.freeInput : Nat → StepInput

end Sys2Proof
end

