-- ==== Sys2Proof/Machine/State.lean ====
section
/-! DEFINITION. The state of the machine as plain data (10_state.md), the reasons a step can stop, and the machine
right after reset (70_reset_and_hazards.md R400, R401). -/

namespace Sys2Proof.Machine

/-- The privilege modes (R26). -/
inductive Priv where
  | u
  | s
  | m
  deriving DecidableEq, Repr, Inhabited

/-- The fields of `mstatus` that hold state (R33, R34). The other positions of the register are constants: read-only
zero, WPRI, or the read-only UXL and SXL; CsrFile.lean lays the word out. `mpp` is a mode, so its reserved value 2
cannot be held (R33). DESIGN CHOICE, safe (notes/assumptions/19.md). -/
structure Mstatus where
  sie : Bool
  mie : Bool
  spie : Bool
  mpie : Bool
  spp : Bool
  mpp : Priv
  mprv : Bool
  mxr : Bool
  tvm : Bool
  tw : Bool
  tsr : Bool
  deriving DecidableEq, Repr

/-- The implemented CSRs, the 24 rows of the table of R31. -/
inductive Csr where
  | sstatus | sie | stvec | sscratch | sepc | scause | stval | sip | satp
  | mstatus | misa | medeleg | mideleg | mie | mtvec | mscratch | mepc | mcause | mtval | mip
  | mvendorid | marchid | mimpid | mhartid
  deriving DecidableEq, Repr

/-- One access of the hart to an `IO` region, with its address, its width in bytes and its value (R77). -/
inductive IoEvent where
  | read (address width : Nat) (value : BitVec 64)
  | write (address width : Nat) (value : BitVec 64)
  deriving DecidableEq, Repr

/-- The bytes of `Main` memory that have a value (R29): pairs of an address and a byte, addresses strictly rising. An
address that is not listed has no value yet (notes/assumptions/5.md). -/
abbrev Memory := List Host.Cell

/-- What a byte of `Main` has been since the hart's last FENCE.I (R50 c, R84): every value it has held, `none` among them
being the time before it had one, and whether the hart itself has stored to it. -/
structure ByteHistory where
  held : List (Option Byte)
  stored : Bool
  deriving DecidableEq, Repr

/-- One hart of width `x` and the memory it runs on. -/
structure Hart (x : Xlen) where
  /-- The parameters; no step changes them (R2). -/
  cfg : Config x
  /-- `x0` to `x31`; entry 0 is never read or written (R20, R21). -/
  xs : Vector (XWord x) 32
  pc : XWord x
  priv : Priv
  mstatus : Mstatus
  medeleg : XWord x
  mideleg : XWord x
  mie : XWord x
  /-- The storage bits SEIP, STIP, SSIP of `mip`; its bits 11, 7 and 3 are the lines (R41). -/
  mipSoft : XWord x
  mtvec : XWord x
  mscratch : XWord x
  mepc : XWord x
  mcause : XWord x
  mtval : XWord x
  stvec : XWord x
  sscratch : XWord x
  sepc : XWord x
  scause : XWord x
  stval : XWord x
  /-- The hidden bit set by WFI (R50 b, R333). -/
  waiting : Bool
  mem : Memory
  /-- The bytes that the hart or another agent has written since the hart's last FENCE.I, each with what it has been since
  then (R50 c, R84, R86). Addresses strictly rising. -/
  history : List (Nat × ByteHistory)
  /-- The `IO` accesses so far, oldest first (R77). The model's own record: no instruction reads it. -/
  ioLog : List IoEvent
  /-- What the environment does in the current step (R50 a, R405): the lines as sampled, the free choices. -/
  now : StepInput
  /-- What the environment does in the steps to come; past its end it does anything (notes/assumptions/7.md). -/
  env : List StepInput
  /-- How many steps were begun: the model's own counter, the index of the free inputs. -/
  steps : Nat
  deriving DecidableEq, Repr

/-- The state of the machine: a hart of either width (R2, R20). -/
structure State where
  xlen : Xlen
  hart : Hart xlen
  deriving DecidableEq, Repr

/-- Why the machine stops. Both are the spec's "a read of it before it has been written is a fault of the model"
(R29, R400, 93_implementation_defined.md U10); no instruction stops for any other reason. -/
inductive Fault where
  /-- Raised by a load from a `Main` byte that neither the initial image nor a store has given a value. Safe: the
  hardware goes on with some value, and nothing is claimed of it. -/
  | loadOfUnwrittenByte
  /-- Raised by the fetch of an instruction from such a byte. Safe, for the same reason. -/
  | fetchOfUnwrittenByte
  deriving DecidableEq, Repr

/-- Why the machine has no meaning for an instruction. -/
inductive Refusal where
  /-- Raised by an arm of `exec` whose instruction has no meaning yet. There is none in this model. Safe. -/
  | notModelled (mnemonic : String)
  deriving DecidableEq, Repr

/-- The answer of a step or of a meaning. -/
abbrev Result := Host.Outcome State Fault Refusal

/-- The synchronous exceptions that can occur, with what their trap value is made of (60_exceptions.md R301). -/
inductive Exn (x : Xlen) where
  | instructionAddressMisaligned (target : XWord x)
  | instructionAccessFault (pc : XWord x)
  | illegalInstruction (inst : InstWord)
  | breakpoint
  | loadAddressMisaligned (ea : XWord x)
  | loadAccessFault (ea : XWord x)
  | storeAddressMisaligned (ea : XWord x)
  | storeAccessFault (ea : XWord x)
  | environmentCallFromU
  | environmentCallFromS
  | environmentCallFromM
  deriving DecidableEq, Repr

/-- The six interrupts (60_exceptions.md R330). -/
inductive Interrupt where
  | ssi | msi | sti | mti | sei | mei
  deriving DecidableEq, Repr

/-- How the rule of an instruction ends: with a result, with an exception that discards its writes (00_scope.md R10),
or with a stop of the model. -/
inductive Effect (x : Xlen) (α : Type) where
  | done (a : α)
  | raise (e : Exn x)
  | stop (f : Fault)
  deriving DecidableEq, Repr

/-- What the environment does before it has done anything: lines low, no writes. No step reads it, because every step begins
by taking an input. -/
def StepInput.quiet : StepInput where
  lines := ⟨false, false, false⟩
  agentBeforeFetch := []
  agentAfterFetch := []
  draws := ⟨0, .zero, .zero, false, []⟩

/-- The state right after reset, with the parameters, the initial memory image and the environment of a launch (R400,
R401, R403, R405). `priv`, `pc`, MIE, MPRV, `mcause`, `waiting` and the history have the spec's values; every other
register is zero and MPP the least privileged implemented mode. DESIGN CHOICE, unsafe (notes/assumptions/3.md,
notes/assumptions/4.md). -/
def State.launch (x : Xlen) (cfg : Config x) (image : Memory) (env : List StepInput) : State where
  xlen := x
  hart :=
    { cfg := cfg
      xs := Vector.replicate 32 0
      pc := cfg.resetPc
      priv := .m
      mstatus :=
        { sie := false, mie := false, spie := false, mpie := false, spp := false
          mpp := if cfg.hasU then .u else if cfg.hasS then .s else .m
          mprv := false, mxr := false, tvm := false, tw := false, tsr := false }
      medeleg := 0, mideleg := 0, mie := 0, mipSoft := 0
      mtvec := 0, mscratch := 0, mepc := 0, mcause := 0, mtval := 0
      stvec := 0, sscratch := 0, sepc := 0, scause := 0, stval := 0
      waiting := false
      mem := image
      history := []
      ioLog := []
      now := StepInput.quiet
      env := env
      steps := 0 }

/-- The machine right after reset: `XLEN` at its default 32 (92_eei_decisions.md D1), the parameters of
`Config.default`, and nothing loaded. -/
def State.reset : State := State.launch .rv32 (Config.default .rv32) [] []

end Sys2Proof.Machine
end

