-- ==== Sys2Proof/Machine/Ops.lean ====
section
/-! DEFINITION. The named operations: registers and `pc`, the memory, the two access primitives, taking an exception
and returning from one. Every instruction is written over these. -/

namespace Sys2Proof.Machine

/-! ### Integer registers and pc (10_state.md R20 to R24) -/

/-- `x[i]`; `x[0]` reads as zero (R7, R21). -/
def Hart.readX {x : Xlen} (h : Hart x) (i : Reg) : XWord x :=
  if i = 0 then 0 else h.xs[i.toNat]'i.isLt

/-- `x[i] <- v`; a write to `x0` is discarded (R7, R21). -/
def Hart.writeX {x : Xlen} (h : Hart x) (i : Reg) (v : XWord x) : Hart x :=
  if i = 0 then h else { h with xs := h.xs.set i.toNat v i.isLt }

/-- `pc <- target` (R9). -/
def Hart.setPc {x : Xlen} (h : Hart x) (target : XWord x) : Hart x := { h with pc := target }

/-- `pc <- pc + 4`, modulo 2^XLEN (R24, R25). -/
def Hart.advance {x : Xlen} (h : Hart x) : Hart x := h.setPc (h.pc + 4)

/-- The end of a computational instruction: `x[rd] <- v`, then `pc <- pc + 4` (R130, R150, R260). -/
def Hart.writeResult {x : Xlen} (h : Hart x) (rd : Reg) (v : XWord x) : Hart x := (h.writeX rd v).advance

/-! ### Data listed by address -/

/-- What a list gives at an address. -/
def lookupAt {α : Type} : List (Nat × α) → Nat → Option α
  | [], _ => none
  | (k, v) :: rest, a => if k = a then some v else lookupAt rest a

/-- The list with `v` at address `a`; rising addresses stay rising. -/
def insertAt {α : Type} : List (Nat × α) → Nat → α → List (Nat × α)
  | [], a, v => [(a, v)]
  | (k, w) :: rest, a, v =>
    if a < k then (a, v) :: (k, w) :: rest
    else if a = k then (a, v) :: rest
    else (k, w) :: insertAt rest a v

/-- Addresses strictly rise: the one canonical form of such a list. -/
abbrev risingAddresses {α : Type} (l : List (Nat × α)) : Prop := l.Pairwise (fun p q => p.1 < q.1)

/-! ### Memory (10_state.md R29) -/

/-- What an address that is not listed reads as: no value (R29, R400; notes/assumptions/5.md). -/
def Memory.unlisted : Option Byte := none

/-- `M[a]`, if the byte has a value. -/
def Memory.read (m : Memory) (a : Nat) : Option Byte :=
  match lookupAt m a with
  | some b => some b
  | none => Memory.unlisted

/-- `M[a] <- b`. -/
def Memory.write (m : Memory) (a : Nat) (b : Byte) : Memory := insertAt m a b

/-- The canonical form. No byte equals what an unlisted address reads as, since that is no value. -/
abbrev Memory.wf (m : Memory) : Prop := risingAddresses m

/-! ### The address map (20_memory.md R74, R82) -/

/-- The range covers the aligned 8-byte block of the address. -/
def RegionRange.covers (r : RegionRange) (a : Nat) : Bool :=
  decide (r.firstBlock ≤ a / 8) && decide (a / 8 < r.firstBlock + r.blocks)

/-- The first range that covers an address. -/
def rangeAt : List RegionRange → Nat → Option RegionRange
  | [], _ => none
  | r :: rest, a => if RegionRange.covers r a then some r else rangeAt rest a

/-- `Region(a)`; an address in no range is `Vacant`. -/
def Hart.regionAt {x : Xlen} (h : Hart x) (a : Nat) : RegionKind :=
  match rangeAt h.cfg.regions a with
  | some r => r.kind
  | none => .vacant

/-- The address is in a `Main` range that another agent may write (R86). -/
def Hart.sharedAt {x : Xlen} (h : Hart x) (a : Nat) : Bool :=
  match rangeAt h.cfg.regions a with
  | some r => decide (r.kind = .main) && r.shared
  | none => false

/-! ### The bytes of an access (20_memory.md R71 to R73) -/

/-- The address of byte `i` of an access at `a`, modulo 2^XLEN. DEDUCED (notes/assumptions/16.md): an aligned access
never wraps. -/
def byteAddr {x : Xlen} (a : XWord x) (i : Nat) : Nat := (a + BitVec.ofNat x.bits i).toNat

/-- The addresses of an access of `n` bytes at `a`, lowest first. -/
def byteAddrs {x : Xlen} (a : XWord x) (n : Nat) : List Nat := (List.range n).map (byteAddr a)

/-- The bytes at these addresses, if every one has a value. -/
def readBytes (m : Memory) : List Nat → Option (List Byte)
  | [] => some []
  | a :: rest =>
    match Memory.read m a, readBytes m rest with
    | some b, some bs => some (b :: bs)
    | _, _ => none

/-- The value of bytes, the first least significant (R71). -/
def valueOfBytes : List Byte → Nat
  | [] => 0
  | b :: bs => b.toNat + 256 * valueOfBytes bs

/-- The `n` bytes of a value with the addresses they go to: `M[a+i] <- v[8i+7:8i]` (R73). -/
def cellsOfValue {x : Xlen} (a : XWord x) (n : Nat) (v : BitVec (8 * n)) : List Host.Cell :=
  (List.range n).map fun i => (byteAddr a i, v.extractLsb' (8 * i) 8)

/-- Some byte of the access is `Vacant` (R72, R73 step 2). -/
def Hart.touchesVacant {x : Xlen} (h : Hart x) (a : XWord x) (n : Nat) : Bool :=
  (byteAddrs a n).any fun b => decide (h.regionAt b = .vacant)

/-! ### Writes and what a fetch may still see of them (R50 c, R84, R86) -/

/-- A value joins the set of values a byte has held. -/
def addHeld (held : List (Option Byte)) (b : Byte) : List (Option Byte) :=
  if some b ∈ held then held else held ++ [some b]

/-- The values the byte has held since the hart's last FENCE.I (R84): the one it has, where nothing has written it
since. -/
def Hart.heldSince {x : Xlen} (h : Hart x) (a : Nat) : List (Option Byte) :=
  match lookupAt h.history a with
  | some e => e.held
  | none => [Memory.read h.mem a]

/-- The hart has stored to the byte since its last FENCE.I (R50 c). -/
def Hart.storedSince {x : Xlen} (h : Hart x) (a : Nat) : Bool :=
  match lookupAt h.history a with
  | some e => e.stored
  | none => false

/-- One byte is written: memory changes at once, and the new value joins those the byte has held. -/
def Hart.writeByte {x : Xlen} (h : Hart x) (a : Nat) (b : Byte) (stored : Bool) : Hart x :=
  { h with
    mem := Memory.write h.mem a b
    history := insertAt h.history a ⟨addHeld (h.heldSince a) b, stored⟩ }

/-- The hart stores one byte: until the next FENCE.I a fetch may return any value the byte has held since the last one
(R84). -/
def Hart.storeByte {x : Xlen} (h : Hart x) (a : Nat) (b : Byte) : Hart x := h.writeByte a b true

/-- The bytes of one store. -/
def Hart.storeCells {x : Xlen} (h : Hart x) : List Host.Cell → Hart x
  | [] => h
  | c :: rest => (h.storeByte c.1 c.2).storeCells rest

/-- Another agent writes one byte, in a shared `Main` range only (R86; notes/assumptions/9.md). The byte has then held
this value too, whether the hart stored to it before or stores to it later. -/
def Hart.agentByte {x : Xlen} (h : Hart x) (a : Nat) (b : Byte) : Hart x :=
  if h.sharedAt a && decide (a < 2 ^ x.bits) then h.writeByte a b (h.storedSince a) else h

def Hart.agentCells {x : Xlen} (h : Hart x) : List Host.Cell → Hart x
  | [] => h
  | c :: rest => (h.agentByte c.1 c.2).agentCells rest

/-- Other agents write between two accesses of the hart; where the address map shares nothing, they do not (R86). -/
def Hart.agentWrites {x : Xlen} (h : Hart x) (cells : List Host.Cell) : Hart x :=
  if h.cfg.regions.any RegionRange.shared then h.agentCells cells else h

/-! ### The access primitives (20_memory.md R72, R73, R77) -/

/-- One access to an `IO` region, in program order (R77). -/
def Hart.logIo {x : Xlen} (h : Hart x) (e : IoEvent) : Hart x := { h with ioLog := h.ioLog ++ [e] }

/-- `MemRead(a, n)` (R72): the value and the hart after the access, which differs from the hart before it only by the
record of an `IO` access. -/
def Hart.memRead {x : Xlen} (h : Hart x) (a : XWord x) (n : Nat) : Effect x (BitVec (8 * n) × Hart x) :=
  if a.toNat % n ≠ 0 then .raise (.loadAddressMisaligned a)
  else if h.touchesVacant a n then .raise (.loadAccessFault a)
  else if h.regionAt a.toNat = .io then
    let v : BitVec (8 * n) := h.now.draws.ioAnswer.setWidth (8 * n)
    .done (v, h.logIo (.read a.toNat n (v.setWidth 64)))
  else
    match readBytes h.mem (byteAddrs a n) with
    | some bytes => .done (BitVec.ofNat (8 * n) (valueOfBytes bytes), h)
    | none => .stop .loadOfUnwrittenByte

/-- `MemWrite(a, n, v)` (R73). -/
def Hart.memWrite {x : Xlen} (h : Hart x) (a : XWord x) (n : Nat) (v : BitVec (8 * n)) : Effect x (Hart x) :=
  if a.toNat % n ≠ 0 then .raise (.storeAddressMisaligned a)
  else if h.touchesVacant a n then .raise (.storeAccessFault a)
  else if h.regionAt a.toNat = .io then .done (h.logIo (.write a.toNat n (v.setWidth 64)))
  else .done (h.storeCells (cellsOfValue a n v))

/-! ### Trap entry (60_exceptions.md R301, R310 to R314) -/

/-- The number of a mode: 0, 1, 3 (R26). -/
def Priv.num : Priv → Nat
  | .u => 0
  | .s => 1
  | .m => 3

/-- The code of an exception (R301). -/
def Exn.code {x : Xlen} : Exn x → Nat
  | .instructionAddressMisaligned _ => 0
  | .instructionAccessFault _ => 1
  | .illegalInstruction _ => 2
  | .breakpoint => 3
  | .loadAddressMisaligned _ => 4
  | .loadAccessFault _ => 5
  | .storeAddressMisaligned _ => 6
  | .storeAccessFault _ => 7
  | .environmentCallFromU => 8
  | .environmentCallFromS => 9
  | .environmentCallFromM => 11

/-- The code of an interrupt, also the position of its bit in `mip`, `mie` and `mideleg` (R330). -/
def Interrupt.code : Interrupt → Nat
  | .ssi => 1
  | .msi => 3
  | .sti => 5
  | .mti => 7
  | .sei => 9
  | .mei => 11

/-- The trap value of an exception (R313). The two OPEN draws are free choices of the step (notes/assumptions/8.md). -/
def Hart.trapValue {x : Xlen} (h : Hart x) : Exn x → XWord x
  | .instructionAddressMisaligned target => target
  | .instructionAccessFault pc => pc
  | .illegalInstruction inst =>
    match h.now.draws.mtvalIllegal with
    | .zero => 0
    | .bits => inst.setWidth x.bits
  | .breakpoint =>
    match h.now.draws.mtvalEbreak with
    | .zero => 0
    | .pc => h.pc
  | .loadAddressMisaligned ea => ea
  | .loadAccessFault ea => ea
  | .storeAddressMisaligned ea => ea
  | .storeAccessFault ea => ea
  | .environmentCallFromU => 0
  | .environmentCallFromS => 0
  | .environmentCallFromM => 0

/-- The trap is handled in S-mode: S-mode exists, the trap occurs below M, and the delegation bit is set (R311). -/
def Hart.delegated {x : Xlen} (h : Hart x) (interrupt : Bool) (code : Nat) : Bool :=
  h.cfg.hasS && decide (h.priv ≠ .m) && (if interrupt then h.mideleg.getLsbD code else h.medeleg.getLsbD code)

/-- The value of `mcause` or `scause`: bit XLEN-1 is `interrupt`, the rest is the code (R47, R312). -/
def causeWord (x : Xlen) (interrupt : Bool) (code : Nat) : XWord x :=
  BitVec.ofNat x.bits (code + if interrupt then 2 ^ (x.bits - 1) else 0)

/-- Where control goes (R314): the base, or for an interrupt in Vectored mode the base plus four times the code. -/
def trapTarget {x : Xlen} (tvec : XWord x) (interrupt : Bool) (code : Nat) : XWord x :=
  let base := tvec &&& ~~~3
  if interrupt && decide (tvec &&& 3 = 1) then base + BitVec.ofNat x.bits (4 * code) else base

/-- The mode bit SPP: 1 is S (R34, R312). -/
def Priv.isS : Priv → Bool
  | .u => false
  | .s => true
  | .m => false

/-- A trap handled in M-mode (R312). -/
def Hart.enterTrapM {x : Xlen} (h : Hart x) (interrupt : Bool) (code : Nat) (tval epc : XWord x) : Hart x :=
  { h with
    mepc := epc
    mcause := causeWord x interrupt code
    mtval := tval
    mstatus := { h.mstatus with mpie := h.mstatus.mie, mie := false, mpp := h.priv }
    priv := .m
    waiting := false
    pc := trapTarget h.mtvec interrupt code }

/-- A trap handled in S-mode (R312). -/
def Hart.enterTrapS {x : Xlen} (h : Hart x) (interrupt : Bool) (code : Nat) (tval epc : XWord x) : Hart x :=
  { h with
    sepc := epc
    scause := causeWord x interrupt code
    stval := tval
    mstatus := { h.mstatus with spie := h.mstatus.sie, sie := false, spp := Priv.isS h.priv }
    priv := .s
    waiting := false
    pc := trapTarget h.stvec interrupt code }

/-- Taking a trap (R310): the one operation through which every exception and every interrupt goes. -/
def Hart.enterTrap {x : Xlen} (h : Hart x) (interrupt : Bool) (code : Nat) (tval epc : XWord x) : Hart x :=
  if h.delegated interrupt code then h.enterTrapS interrupt code tval epc
  else h.enterTrapM interrupt code tval epc

/-- Taking a synchronous exception: `epc` is the address of the instruction that raised it (R304 part 7, R310). -/
def Hart.takeException {x : Xlen} (h : Hart x) (e : Exn x) : Hart x :=
  h.enterTrap false (Exn.code e) (h.trapValue e) h.pc

/-! ### Trap return (60_exceptions.md R320) -/

/-- `TrapReturn(M)`. -/
def Hart.trapReturnM {x : Xlen} (h : Hart x) : Hart x :=
  { h with
    mstatus := { h.mstatus with mie := h.mstatus.mpie, mpie := true, mpp := if h.cfg.hasU then .u else .m }
    priv := h.mstatus.mpp
    pc := h.mepc }

/-- `TrapReturn(S)`. -/
def Hart.trapReturnS {x : Xlen} (h : Hart x) : Hart x :=
  { h with
    mstatus := { h.mstatus with sie := h.mstatus.spie, spie := true, spp := false }
    priv := if h.mstatus.spp then .s else .u
    pc := h.sepc }

/-! ### The end of a meaning (00_scope.md R10, R12) -/

/-- Chain a rule's steps: an exception or a stop ends it. -/
def Effect.andThen {x : Xlen} {α β : Type} (e : Effect x α) (k : α → Effect x β) : Effect x β :=
  match e with
  | .done a => k a
  | .raise r => .raise r
  | .stop f => .stop f

/-- The outcome of an instruction whose rule ran from the hart `h`: its result, or, where it raised an exception, the
trap taken from `h` itself, every write of the rule being discarded (R10, R304 part 7). -/
def Hart.settle {x : Xlen} (h : Hart x) (e : Effect x (Hart x)) : Result :=
  match e with
  | .done h' => .next ⟨x, h'⟩
  | .raise r => .next ⟨x, h.takeException r⟩
  | .stop f => .fault f

end Sys2Proof.Machine
end

