-- ==== Sys2Proof/Machine/Operands.lean ====
section
/-! DEFINITION. The operand forms: immediates extended to `XLEN`, effective addresses, shift amounts, the low words of
the `*W` instructions, and the two conditions on a form that raise `IllegalInstruction` (00_scope.md R5, R6). -/

namespace Sys2Proof.Machine

/-- `sext_XLEN(v)` (R5). -/
def sextX (x : Xlen) {n : Nat} (v : BitVec n) : XWord x := v.signExtend x.bits

/-- `zext_XLEN(v)` (R5). -/
def zextX (x : Xlen) {n : Nat} (v : BitVec n) : XWord x := v.setWidth x.bits

/-- The U-immediate operand `sext_XLEN(imm20 ++ 12'b0)` (R104). -/
def upperImm (x : Xlen) (imm : BitVec 20) : XWord x := sextX x (placeField 32 12 imm)

/-- The effective address of a load or a store, modulo 2^XLEN (20_memory.md R70, R220). -/
def Hart.effAddr {x : Xlen} (h : Hart x) (rs1 : Reg) (offset : BitVec 12) : XWord x :=
  h.readX rs1 + sextX x offset

/-- The shift amount of SLL, SRL and SRA: the low log2(XLEN) bits of `x[rs2]` (R150). -/
def Hart.shiftAmount {x : Xlen} (h : Hart x) (rs2 : Reg) : Nat := (h.readX rs2).toNat % x.bits

/-- The shift amount of SLLW, SRLW and SRAW: `x[rs2][4:0]` (R271). -/
def Hart.shiftAmountW {x : Xlen} (h : Hart x) (rs2 : Reg) : Nat := (h.readX rs2).toNat % 32

/-- The low 32 bits of a value (R260). -/
def lowWord {x : Xlen} (v : XWord x) : BitVec 32 := v.setWidth 32

/-- A form that exists only when `XLEN = 64` (R113); on the other width its word is illegal. -/
def Hart.onRv64 {x : Xlen} (_h : Hart x) (i : Instr) (e : Effect x (Hart x)) : Effect x (Hart x) :=
  if isRv64 x then e else .raise (.illegalInstruction (encode i))

/-- A shift by a constant: `inst[25] = 1` is illegal when `XLEN = 32` (R139). -/
def Hart.onShift {x : Xlen} (_h : Hart x) (shamt : BitVec 6) (i : Instr) (e : Effect x (Hart x)) : Effect x (Hart x) :=
  if shamtFits x shamt then e else .raise (.illegalInstruction (encode i))

/-- A load: the access, then its value, extended, into `x[rd]` (R220, R221). -/
def Hart.loadInto {x : Xlen} (h : Hart x) (rd rs1 : Reg) (offset : BitVec 12) (n : Nat)
    (extend : BitVec (8 * n) → XWord x) : Effect x (Hart x) :=
  (h.memRead (h.effAddr rs1 offset) n).andThen fun r => .done (r.2.writeResult rd (extend r.1))

/-- A store of the low `n` bytes of `x[rs2]` (R220, R73). -/
def Hart.storeFrom {x : Xlen} (h : Hart x) (rs2 rs1 : Reg) (offset : BitVec 12) (n : Nat) : Effect x (Hart x) :=
  (h.memWrite (h.effAddr rs1 offset) n ((h.readX rs2).setWidth (8 * n))).andThen fun h' => .done h'.advance

/-- A control transfer to `target`, which must be a multiple of 4 (R248; notes/assumptions/15.md). -/
def Hart.jumpTo {x : Xlen} (h : Hart x) (target : XWord x) : Effect x (Hart x) :=
  if target.toNat % 4 = 0 then .done (h.setPc target) else .raise (.instructionAddressMisaligned target)

/-- A jump that leaves `pc + 4` in `x[rd]`; a misaligned target leaves `x[rd]` alone (R240, R241, R248). -/
def Hart.linkTo {x : Xlen} (h : Hart x) (rd : Reg) (target : XWord x) : Effect x (Hart x) :=
  (h.writeX rd (h.pc + 4)).jumpTo target

/-- A conditional branch (R249). -/
def Hart.branchIf {x : Xlen} (h : Hart x) (taken : Bool) (offset : BitVec 13) : Effect x (Hart x) :=
  if taken then h.jumpTo (h.pc + sextX x offset) else .done h.advance

end Sys2Proof.Machine
end

