-- ==== Sys2Proof/Machine/Flags.lean ====
section
/-! DEFINITION. The hardware has no flags, condition codes or predicate registers (10_state.md R27). What stands in
their place are the comparisons, whose outcome is written to an integer register or decides a branch. -/

namespace Sys2Proof.Machine

/-- `a <s b`: both read in two's complement (R4). -/
def ltSigned {x : Xlen} (a b : XWord x) : Bool := a.slt b

/-- `a <u b` (R4). -/
def ltUnsigned {x : Xlen} (a b : XWord x) : Bool := a.ult b

/-- The XLEN-bit value 1 or 0 a comparison writes (R134, R154). -/
def flagWord (x : Xlen) (c : Bool) : XWord x := if c then 1 else 0

end Sys2Proof.Machine
end

