-- ==== Sys2Proof/Machine/ControlTransfer.lean ====
section
/-! DEFINITION. Control transfer (46_control_transfer.md). -/

namespace Sys2Proof.Machine

/-- `jal` (R240). -/
def execJal (rd : Reg) (offset : BitVec 21) (s : State) : Result :=
  s.hart.settle (s.hart.linkTo rd (s.hart.pc + sextX s.xlen offset))

/-- `jalr` (R241): bit 0 of the sum is cleared, and the sum is made before `x[rd]` is written. -/
def execJalr (rd rs1 : Reg) (offset : BitVec 12) (s : State) : Result :=
  s.hart.settle (s.hart.linkTo rd ((s.hart.readX rs1 + sextX s.xlen offset) &&& ~~~1))

/-- `beq` (R242). -/
def execBeq (rs1 rs2 : Reg) (offset : BitVec 13) (s : State) : Result :=
  s.hart.settle (s.hart.branchIf (decide (s.hart.readX rs1 = s.hart.readX rs2)) offset)

/-- `bne` (R243). -/
def execBne (rs1 rs2 : Reg) (offset : BitVec 13) (s : State) : Result :=
  s.hart.settle (s.hart.branchIf (decide (s.hart.readX rs1 ≠ s.hart.readX rs2)) offset)

/-- `blt` (R244). -/
def execBlt (rs1 rs2 : Reg) (offset : BitVec 13) (s : State) : Result :=
  s.hart.settle (s.hart.branchIf (ltSigned (s.hart.readX rs1) (s.hart.readX rs2)) offset)

/-- `bge` (R245). -/
def execBge (rs1 rs2 : Reg) (offset : BitVec 13) (s : State) : Result :=
  s.hart.settle (s.hart.branchIf (!ltSigned (s.hart.readX rs1) (s.hart.readX rs2)) offset)

/-- `bltu` (R246). -/
def execBltu (rs1 rs2 : Reg) (offset : BitVec 13) (s : State) : Result :=
  s.hart.settle (s.hart.branchIf (ltUnsigned (s.hart.readX rs1) (s.hart.readX rs2)) offset)

/-- `bgeu` (R247). -/
def execBgeu (rs1 rs2 : Reg) (offset : BitVec 13) (s : State) : Result :=
  s.hart.settle (s.hart.branchIf (!ltUnsigned (s.hart.readX rs1) (s.hart.readX rs2)) offset)

end Sys2Proof.Machine
end

