-- ==== Sys2Proof/Machine/CsrFile.lean ====
section
/-! DEFINITION. The control and status registers: their addresses (10_state.md R31), what a read of each returns and
what a write of each does (R33 to R49, 43_csr.md R182), and the access check (R180). -/

namespace Sys2Proof.Machine

/-! ### Addresses and presence (R30, R31, R51) -/

/-- The register at a CSR address, whether or not S-mode exists. -/
def csrAt (a : CsrAddr) : Option Csr :=
  match a with
  | 0x100#12 => some .sstatus
  | 0x104#12 => some .sie
  | 0x105#12 => some .stvec
  | 0x140#12 => some .sscratch
  | 0x141#12 => some .sepc
  | 0x142#12 => some .scause
  | 0x143#12 => some .stval
  | 0x144#12 => some .sip
  | 0x180#12 => some .satp
  | 0x300#12 => some .mstatus
  | 0x301#12 => some .misa
  | 0x302#12 => some .medeleg
  | 0x303#12 => some .mideleg
  | 0x304#12 => some .mie
  | 0x305#12 => some .mtvec
  | 0x340#12 => some .mscratch
  | 0x341#12 => some .mepc
  | 0x342#12 => some .mcause
  | 0x343#12 => some .mtval
  | 0x344#12 => some .mip
  | 0xF11#12 => some .mvendorid
  | 0xF12#12 => some .marchid
  | 0xF13#12 => some .mimpid
  | 0xF14#12 => some .mhartid
  | _ => none

/-- The register is present only when S-mode exists (the column "present when" of R31). -/
def Csr.needsS : Csr → Bool
  | .sstatus | .sie | .stvec | .sscratch | .sepc | .scause | .stval | .sip | .satp => true
  | .medeleg | .mideleg => true
  | .mstatus | .misa | .mie | .mtvec | .mscratch | .mepc | .mcause | .mtval | .mip => false
  | .mvendorid | .marchid | .mimpid | .mhartid => false

/-- The access check of R180: the register, or `none` where the access is illegal. -/
def Hart.csrAccess {x : Xlen} (h : Hart x) (a : CsrAddr) (writes : Bool) : Option Csr :=
  match csrAt a with
  | none => none
  | some c =>
    if Csr.needsS c && !h.cfg.hasS then none
    else if (a.extractLsb' 8 2).toNat > Priv.num h.priv then none
    else if writes && decide (a.extractLsb' 10 2 = 3#2) then none
    else if decide (c = .satp) && decide (h.priv = .s) && h.mstatus.tvm then none
    else some c

/-! ### The words of the registers that are not stored whole -/

/-- UXL and SXL, read-only 2 when `XLEN = 64` (R33; notes/assumptions/14.md). -/
def xlWord : (x : Xlen) → XWord x
  | .rv32 => 0
  | .rv64 => placeField 64 32 2#2 ||| placeField 64 34 2#2

/-- The word of `mstatus` (R33). -/
def mstatusWord (x : Xlen) (m : Mstatus) : XWord x :=
  placeField x.bits 1 (BitVec.ofBool m.sie) ||| placeField x.bits 3 (BitVec.ofBool m.mie) |||
    placeField x.bits 5 (BitVec.ofBool m.spie) ||| placeField x.bits 7 (BitVec.ofBool m.mpie) |||
    placeField x.bits 8 (BitVec.ofBool m.spp) ||| placeField x.bits 11 (BitVec.ofNat 2 (Priv.num m.mpp)) |||
    placeField x.bits 17 (BitVec.ofBool m.mprv) ||| placeField x.bits 19 (BitVec.ofBool m.mxr) |||
    placeField x.bits 20 (BitVec.ofBool m.tvm) ||| placeField x.bits 21 (BitVec.ofBool m.tw) |||
    placeField x.bits 22 (BitVec.ofBool m.tsr) ||| xlWord x

/-- The bits of `mstatus` that `sstatus` shows: UIE, SIE, UPIE, SPIE, SPP, FS, XS, SUM, MXR, SD and UXL (R35). -/
def sstatusMask : (x : Xlen) → XWord x
  | .rv32 => 0x800DE133
  | .rv64 => 0x80000003000DE133

/-- `MPP` after a write of the two bits `v`: a mode that is not implemented leaves it (R32, R33). -/
def legalMpp {x : Xlen} (cfg : Config x) (v : BitVec 2) (old : Priv) : Priv :=
  match v with
  | 0#2 => if cfg.hasU then .u else old
  | 1#2 => if cfg.hasS then .s else old
  | 3#2 => .m
  | _ => old

/-- A write to `mstatus` (R33): each field by its kind. -/
def writeMstatus {x : Xlen} (cfg : Config x) (m : Mstatus) (v : XWord x) : Mstatus where
  sie := cfg.hasS && v.getLsbD 1
  mie := v.getLsbD 3
  spie := cfg.hasS && v.getLsbD 5
  mpie := v.getLsbD 7
  spp := cfg.hasS && v.getLsbD 8
  mpp := legalMpp cfg (v.extractLsb' 11 2) m.mpp
  mprv := cfg.hasU && v.getLsbD 17
  mxr := cfg.hasS && v.getLsbD 19
  tvm := cfg.hasS && v.getLsbD 20
  tw := (cfg.hasS || cfg.hasU) && v.getLsbD 21
  tsr := cfg.hasS && v.getLsbD 22

/-- A write to `sstatus` changes SIE, SPIE, SPP and MXR of `mstatus` and nothing else (R35). -/
def writeSstatus {x : Xlen} (m : Mstatus) (v : XWord x) : Mstatus :=
  { m with sie := v.getLsbD 1, spie := v.getLsbD 5, spp := v.getLsbD 8, mxr := v.getLsbD 19 }

/-- The word of `misa` (R36). -/
def misaWord {x : Xlen} (cfg : Config x) : XWord x :=
  let mxl : BitVec 2 := if isRv64 x then 2 else 1
  placeField x.bits (x.bits - 2) mxl ||| placeField x.bits 8 1#1 ||| placeField x.bits 18 (BitVec.ofBool cfg.hasS) |||
    placeField x.bits 20 (BitVec.ofBool cfg.hasU)

/-- The word of `mip`: the lines in bits 11, 7 and 3, the storage bits in 9, 5 and 1 (R41). -/
def Hart.mipWord {x : Xlen} (h : Hart x) : XWord x :=
  h.mipSoft ||| placeField x.bits 11 (BitVec.ofBool h.now.lines.meip) |||
    placeField x.bits 7 (BitVec.ofBool h.now.lines.mtip) ||| placeField x.bits 3 (BitVec.ofBool h.now.lines.msip)

/-! ### Writable bits -/

/-- Bits 0 to 9 (R38). -/
def medelegMask (x : Xlen) : XWord x := 0x3FF

/-- Bits 1, 5 and 9 (R39, R41, R42). -/
def supervisorMask (x : Xlen) : XWord x := 0x222

/-- Bits 1, 3, 5, 7, 9 and 11; without S-mode bits 3, 7 and 11 (R40). -/
def mieMask {x : Xlen} (cfg : Config x) : XWord x := if cfg.hasS then 0xAAA else 0x888

/-- Bits 1, 5 and 9; without S-mode none (R41). -/
def mipMask {x : Xlen} (cfg : Config x) : XWord x := if cfg.hasS then 0x222 else 0

/-- A trap vector after a write: BASE is taken whole, a reserved MODE (2, 3) leaves MODE (R43, R44, R32). -/
def legalTvec {x : Xlen} (old v : XWord x) : XWord x :=
  if v.getLsbD 1 then (v &&& ~~~3) ||| (old &&& 3) else v

/-- Bits 1-0 of `mepc` and `sepc` are read-only zero (R46). -/
def legalEpc {x : Xlen} (v : XWord x) : XWord x := v &&& ~~~3

/-! ### Reading and writing (R182) -/

/-- `CsrRead(csr)`. No register has a side effect on read (20_memory.md R81). -/
def Hart.csrRead {x : Xlen} (h : Hart x) : Csr → XWord x
  | .sstatus => mstatusWord x h.mstatus &&& sstatusMask x
  | .sie => h.mie &&& h.mideleg &&& supervisorMask x
  | .stvec => h.stvec
  | .sscratch => h.sscratch
  | .sepc => h.sepc
  | .scause => h.scause
  | .stval => h.stval
  | .sip => h.mipWord &&& h.mideleg &&& supervisorMask x
  | .satp => 0
  | .mstatus => mstatusWord x h.mstatus
  | .misa => misaWord h.cfg
  | .medeleg => h.medeleg
  | .mideleg => h.mideleg
  | .mie => h.mie
  | .mtvec => h.mtvec
  | .mscratch => h.mscratch
  | .mepc => h.mepc
  | .mcause => h.mcause
  | .mtval => h.mtval
  | .mip => h.mipWord
  | .mvendorid => h.cfg.vendorId
  | .marchid => h.cfg.archId
  | .mimpid => h.cfg.impId
  | .mhartid => h.cfg.hartId

/-- `CsrWrite(csr, v)`. -/
def Hart.csrWrite {x : Xlen} (h : Hart x) (c : Csr) (v : XWord x) : Hart x :=
  match c with
  | .sstatus => { h with mstatus := writeSstatus h.mstatus v }
  | .sie =>
    let m := h.mideleg &&& supervisorMask x
    { h with mie := (h.mie &&& ~~~m) ||| (v &&& m) }
  | .stvec => { h with stvec := legalTvec h.stvec v }
  | .sscratch => { h with sscratch := v }
  | .sepc => { h with sepc := legalEpc v }
  | .scause => { h with scause := v }
  | .stval => { h with stval := v }
  | .sip => if h.mideleg.getLsbD 1 then { h with mipSoft := (h.mipSoft &&& ~~~2) ||| (v &&& 2) } else h
  | .satp => h
  | .mstatus => { h with mstatus := writeMstatus h.cfg h.mstatus v }
  | .misa => h
  | .medeleg => { h with medeleg := v &&& medelegMask x }
  | .mideleg => { h with mideleg := v &&& supervisorMask x }
  | .mie => { h with mie := v &&& mieMask h.cfg }
  | .mtvec => { h with mtvec := legalTvec h.mtvec v }
  | .mscratch => { h with mscratch := v }
  | .mepc => { h with mepc := legalEpc v }
  | .mcause => { h with mcause := v }
  | .mtval => { h with mtval := v }
  | .mip => { h with mipSoft := v &&& mipMask h.cfg }
  | .mvendorid => h
  | .marchid => h
  | .mimpid => h
  | .mhartid => h

end Sys2Proof.Machine
end

