-- ==== Sys2Proof/Machine/CsrInstructions.lean ====
section
/-! DEFINITION. The six CSR instructions (43_csr.md). -/

namespace Sys2Proof.Machine

/-- The common rule of the six instructions (R180 to R182): the access check, the read of the old value, the write of
the new one, and the old value into `x[rd]`. `i` is the instruction itself, for the word an illegal access reports; the
new value is computed from the old one and from registers as they were before any write. -/
def Hart.csrInstr {x : Xlen} (h : Hart x) (i : Instr) (rd : Reg) (csr : CsrAddr) (reads writes : Bool)
    (newValue : XWord x → XWord x) : Effect x (Hart x) :=
  match h.csrAccess csr writes with
  | none => .raise (.illegalInstruction (encode i))
  | some c =>
    let written := if writes then h.csrWrite c (newValue (h.csrRead c)) else h
    .done (if reads then written.writeResult rd (h.csrRead c) else written.advance)

/-- `csrrw` (R184). -/
def execCsrrw (rd : Reg) (csr : CsrAddr) (rs1 : Reg) (s : State) : Result :=
  s.hart.settle (s.hart.csrInstr (.csrrw rd csr rs1) rd csr (decide (rd ≠ 0)) true
    (fun _ => s.hart.readX rs1))

/-- `csrrs` (R185). -/
def execCsrrs (rd : Reg) (csr : CsrAddr) (rs1 : Reg) (s : State) : Result :=
  s.hart.settle (s.hart.csrInstr (.csrrs rd csr rs1) rd csr true (decide (rs1 ≠ 0))
    (fun t => t ||| s.hart.readX rs1))

/-- `csrrc` (R186). -/
def execCsrrc (rd : Reg) (csr : CsrAddr) (rs1 : Reg) (s : State) : Result :=
  s.hart.settle (s.hart.csrInstr (.csrrc rd csr rs1) rd csr true (decide (rs1 ≠ 0))
    (fun t => t &&& ~~~s.hart.readX rs1))

/-- `csrrwi` (R187). -/
def execCsrrwi (rd : Reg) (csr : CsrAddr) (uimm : BitVec 5) (s : State) : Result :=
  s.hart.settle (s.hart.csrInstr (.csrrwi rd csr uimm) rd csr (decide (rd ≠ 0)) true
    (fun _ => zextX s.xlen uimm))

/-- `csrrsi` (R188). -/
def execCsrrsi (rd : Reg) (csr : CsrAddr) (uimm : BitVec 5) (s : State) : Result :=
  s.hart.settle (s.hart.csrInstr (.csrrsi rd csr uimm) rd csr true (decide (uimm ≠ 0))
    (fun t => t ||| zextX s.xlen uimm))

/-- `csrrci` (R189). -/
def execCsrrci (rd : Reg) (csr : CsrAddr) (uimm : BitVec 5) (s : State) : Result :=
  s.hart.settle (s.hart.csrInstr (.csrrci rd csr uimm) rd csr true (decide (uimm ≠ 0))
    (fun t => t &&& ~~~zextX s.xlen uimm))

end Sys2Proof.Machine
end

