-- ==== Sys2Proof/Machine/Fence.lean ====
section
/-! DEFINITION. FENCE and FENCE.I (42_fence.md). The reserved fields of both are ignored (R172). -/

namespace Sys2Proof.Machine

/-- `fence` (R170): on a hart whose accesses take effect in program order it changes nothing but `pc`, for every `pred`
and `succ` (20_memory.md R77, R85; notes/assumptions/10.md). -/
def execFence (_fm _pred _succ : BitVec 4) (_rs1 _rd : Reg) (s : State) : Result :=
  s.hart.settle (.done s.hart.advance)

/-- The set of bytes stored to since the last FENCE.I becomes empty, and with it what they have held (R171, 10_state.md
R50 c). -/
def Hart.syncFetch {x : Xlen} (h : Hart x) : Hart x := { h with history := [] }

/-- `fence.i` (R171). -/
def execFenceI (_imm : BitVec 12) (_rs1 _rd : Reg) (s : State) : Result :=
  s.hart.settle (.done s.hart.syncFetch.advance)

end Sys2Proof.Machine
end

