-- ==== Sys2Proof/Machine/Compute.lean ====
section
/-! DEFINITION. The common end of the computational instructions (40_integer_immediate.md R130, 41_integer_register.md R150). -/

namespace Sys2Proof.Machine

/-- A computational instruction: `x[rd] <- v`, then `pc <- pc + 4`; it raises nothing (R130, R150). -/
def State.compute (s : State) (rd : Reg) (v : XWord s.xlen) : Result :=
  s.hart.settle (.done (s.hart.writeResult rd v))

end Sys2Proof.Machine
end

