-- ==== Sys2Proof/Machine/IntegerImmediate.lean ====
section
/-! DEFINITION. The integer register-immediate instructions (40_integer_immediate.md). With `rd = x0` each only advances `pc`
(30_encoding.md R116), by the rule of `x0` alone. -/

namespace Sys2Proof.Machine

/-- `lui` (R131). -/
def execLui (rd : Reg) (imm : BitVec 20) (s : State) : Result :=
  s.compute rd (upperImm s.xlen imm)

/-- `auipc` (R132). -/
def execAuipc (rd : Reg) (imm : BitVec 20) (s : State) : Result :=
  s.compute rd (s.hart.pc + upperImm s.xlen imm)

/-- `addi` (R133). -/
def execAddi (rd rs1 : Reg) (imm : BitVec 12) (s : State) : Result :=
  s.compute rd (s.hart.readX rs1 + sextX s.xlen imm)

/-- `slti` (R134). -/
def execSlti (rd rs1 : Reg) (imm : BitVec 12) (s : State) : Result :=
  s.compute rd (flagWord s.xlen (ltSigned (s.hart.readX rs1) (sextX s.xlen imm)))

/-- `sltiu` (R135). -/
def execSltiu (rd rs1 : Reg) (imm : BitVec 12) (s : State) : Result :=
  s.compute rd (flagWord s.xlen (ltUnsigned (s.hart.readX rs1) (sextX s.xlen imm)))

/-- `xori` (R136). -/
def execXori (rd rs1 : Reg) (imm : BitVec 12) (s : State) : Result :=
  s.compute rd (s.hart.readX rs1 ^^^ sextX s.xlen imm)

/-- `ori` (R137). -/
def execOri (rd rs1 : Reg) (imm : BitVec 12) (s : State) : Result :=
  s.compute rd (s.hart.readX rs1 ||| sextX s.xlen imm)

/-- `andi` (R138). -/
def execAndi (rd rs1 : Reg) (imm : BitVec 12) (s : State) : Result :=
  s.compute rd (s.hart.readX rs1 &&& sextX s.xlen imm)

/-- `slli` (R140). -/
def execSlli (rd rs1 : Reg) (shamt : BitVec 6) (s : State) : Result :=
  s.hart.settle (s.hart.onShift shamt (.slli rd rs1 shamt)
    (.done (s.hart.writeResult rd (s.hart.readX rs1 <<< shamt.toNat))))

/-- `srli` (R141). -/
def execSrli (rd rs1 : Reg) (shamt : BitVec 6) (s : State) : Result :=
  s.hart.settle (s.hart.onShift shamt (.srli rd rs1 shamt)
    (.done (s.hart.writeResult rd (s.hart.readX rs1 >>> shamt.toNat))))

/-- `srai` (R142). -/
def execSrai (rd rs1 : Reg) (shamt : BitVec 6) (s : State) : Result :=
  s.hart.settle (s.hart.onShift shamt (.srai rd rs1 shamt)
    (.done (s.hart.writeResult rd ((s.hart.readX rs1).sshiftRight shamt.toNat))))

end Sys2Proof.Machine
end

