-- ==== Sys2Proof/Machine/IntegerRegister.lean ====
section
/-! DEFINITION. The integer register-register instructions (41_integer_register.md). -/

namespace Sys2Proof.Machine

/-- `add` (R151). -/
def execAdd (rd rs1 rs2 : Reg) (s : State) : Result :=
  s.compute rd (s.hart.readX rs1 + s.hart.readX rs2)

/-- `sub` (R152). -/
def execSub (rd rs1 rs2 : Reg) (s : State) : Result :=
  s.compute rd (s.hart.readX rs1 - s.hart.readX rs2)

/-- `sll` (R153). -/
def execSll (rd rs1 rs2 : Reg) (s : State) : Result :=
  s.compute rd (s.hart.readX rs1 <<< s.hart.shiftAmount rs2)

/-- `slt` (R154). -/
def execSlt (rd rs1 rs2 : Reg) (s : State) : Result :=
  s.compute rd (flagWord s.xlen (ltSigned (s.hart.readX rs1) (s.hart.readX rs2)))

/-- `sltu` (R155). -/
def execSltu (rd rs1 rs2 : Reg) (s : State) : Result :=
  s.compute rd (flagWord s.xlen (ltUnsigned (s.hart.readX rs1) (s.hart.readX rs2)))

/-- `xor` (R156). -/
def execXor (rd rs1 rs2 : Reg) (s : State) : Result :=
  s.compute rd (s.hart.readX rs1 ^^^ s.hart.readX rs2)

/-- `srl` (R157). -/
def execSrl (rd rs1 rs2 : Reg) (s : State) : Result :=
  s.compute rd (s.hart.readX rs1 >>> s.hart.shiftAmount rs2)

/-- `sra` (R158). -/
def execSra (rd rs1 rs2 : Reg) (s : State) : Result :=
  s.compute rd ((s.hart.readX rs1).sshiftRight (s.hart.shiftAmount rs2))

/-- `or` (R159). -/
def execOr (rd rs1 rs2 : Reg) (s : State) : Result :=
  s.compute rd (s.hart.readX rs1 ||| s.hart.readX rs2)

/-- `and` (R160). -/
def execAnd (rd rs1 rs2 : Reg) (s : State) : Result :=
  s.compute rd (s.hart.readX rs1 &&& s.hart.readX rs2)

end Sys2Proof.Machine
end

