-- ==== Sys2Proof/Machine/LoadStore.lean ====
section
/-! DEFINITION. Loads and stores (45_load_store.md). -/

namespace Sys2Proof.Machine

/-- `lb` (R222). -/
def execLb (rd rs1 : Reg) (offset : BitVec 12) (s : State) : Result :=
  s.hart.settle (s.hart.loadInto rd rs1 offset 1 (sextX s.xlen))

/-- `lh` (R223). -/
def execLh (rd rs1 : Reg) (offset : BitVec 12) (s : State) : Result :=
  s.hart.settle (s.hart.loadInto rd rs1 offset 2 (sextX s.xlen))

/-- `lw` (R224). -/
def execLw (rd rs1 : Reg) (offset : BitVec 12) (s : State) : Result :=
  s.hart.settle (s.hart.loadInto rd rs1 offset 4 (sextX s.xlen))

/-- `lbu` (R225). -/
def execLbu (rd rs1 : Reg) (offset : BitVec 12) (s : State) : Result :=
  s.hart.settle (s.hart.loadInto rd rs1 offset 1 (zextX s.xlen))

/-- `lhu` (R226). -/
def execLhu (rd rs1 : Reg) (offset : BitVec 12) (s : State) : Result :=
  s.hart.settle (s.hart.loadInto rd rs1 offset 2 (zextX s.xlen))

/-- `sb` (R227). -/
def execSb (rs2 rs1 : Reg) (offset : BitVec 12) (s : State) : Result :=
  s.hart.settle (s.hart.storeFrom rs2 rs1 offset 1)

/-- `sh` (R228). -/
def execSh (rs2 rs1 : Reg) (offset : BitVec 12) (s : State) : Result :=
  s.hart.settle (s.hart.storeFrom rs2 rs1 offset 2)

/-- `sw` (R229). -/
def execSw (rs2 rs1 : Reg) (offset : BitVec 12) (s : State) : Result :=
  s.hart.settle (s.hart.storeFrom rs2 rs1 offset 4)

end Sys2Proof.Machine
end

