-- ==== Sys2Proof/Machine/Rv64Only.lean ====
section
/-! DEFINITION. The instructions present only when `XLEN = 64` (47_rv64i_only.md). On the other width each raises
`IllegalInstruction` (30_encoding.md R113). -/

namespace Sys2Proof.Machine

/-- `lwu` (R261). -/
def execLwu (rd rs1 : Reg) (offset : BitVec 12) (s : State) : Result :=
  s.hart.settle (s.hart.onRv64 (.lwu rd rs1 offset)
    (s.hart.loadInto rd rs1 offset 4 (zextX s.xlen)))

/-- `ld` (R262). -/
def execLd (rd rs1 : Reg) (offset : BitVec 12) (s : State) : Result :=
  s.hart.settle (s.hart.onRv64 (.ld rd rs1 offset)
    (s.hart.loadInto rd rs1 offset 8 (zextX s.xlen)))

/-- `sd` (R263). -/
def execSd (rs2 rs1 : Reg) (offset : BitVec 12) (s : State) : Result :=
  s.hart.settle (s.hart.onRv64 (.sd rs2 rs1 offset)
    (s.hart.storeFrom rs2 rs1 offset 8))

/-- `addiw` (R264). -/
def execAddiw (rd rs1 : Reg) (imm : BitVec 12) (s : State) : Result :=
  s.hart.settle (s.hart.onRv64 (.addiw rd rs1 imm)
    (.done (s.hart.writeResult rd (sextX s.xlen (lowWord (s.hart.readX rs1 + sextX s.xlen imm))))))

/-- `slliw` (R266). -/
def execSlliw (rd rs1 : Reg) (shamt : BitVec 5) (s : State) : Result :=
  s.hart.settle (s.hart.onRv64 (.slliw rd rs1 shamt)
    (.done (s.hart.writeResult rd (sextX s.xlen (lowWord (s.hart.readX rs1) <<< shamt.toNat)))))

/-- `srliw` (R267). -/
def execSrliw (rd rs1 : Reg) (shamt : BitVec 5) (s : State) : Result :=
  s.hart.settle (s.hart.onRv64 (.srliw rd rs1 shamt)
    (.done (s.hart.writeResult rd (sextX s.xlen (lowWord (s.hart.readX rs1) >>> shamt.toNat)))))

/-- `sraiw` (R268). -/
def execSraiw (rd rs1 : Reg) (shamt : BitVec 5) (s : State) : Result :=
  s.hart.settle (s.hart.onRv64 (.sraiw rd rs1 shamt)
    (.done (s.hart.writeResult rd (sextX s.xlen ((lowWord (s.hart.readX rs1)).sshiftRight shamt.toNat)))))

/-- `addw` (R269). -/
def execAddw (rd rs1 rs2 : Reg) (s : State) : Result :=
  s.hart.settle (s.hart.onRv64 (.addw rd rs1 rs2)
    (.done (s.hart.writeResult rd (sextX s.xlen (lowWord (s.hart.readX rs1 + s.hart.readX rs2))))))

/-- `subw` (R270). -/
def execSubw (rd rs1 rs2 : Reg) (s : State) : Result :=
  s.hart.settle (s.hart.onRv64 (.subw rd rs1 rs2)
    (.done (s.hart.writeResult rd (sextX s.xlen (lowWord (s.hart.readX rs1 - s.hart.readX rs2))))))

/-- `sllw` (R271). -/
def execSllw (rd rs1 rs2 : Reg) (s : State) : Result :=
  s.hart.settle (s.hart.onRv64 (.sllw rd rs1 rs2)
    (.done (s.hart.writeResult rd (sextX s.xlen (lowWord (s.hart.readX rs1) <<< s.hart.shiftAmountW rs2)))))

/-- `srlw` (R272). -/
def execSrlw (rd rs1 rs2 : Reg) (s : State) : Result :=
  s.hart.settle (s.hart.onRv64 (.srlw rd rs1 rs2)
    (.done (s.hart.writeResult rd (sextX s.xlen (lowWord (s.hart.readX rs1) >>> s.hart.shiftAmountW rs2)))))

/-- `sraw` (R273). -/
def execSraw (rd rs1 rs2 : Reg) (s : State) : Result :=
  s.hart.settle (s.hart.onRv64 (.sraw rd rs1 rs2)
    (.done (s.hart.writeResult rd (sextX s.xlen ((lowWord (s.hart.readX rs1)).sshiftRight (s.hart.shiftAmountW rs2))))))

end Sys2Proof.Machine
end

