-- ==== Sys2Proof/Machine/System.lean ====
section
/-! DEFINITION. The environment, trap-return and supervisor instructions (44_system.md). -/

namespace Sys2Proof.Machine

/-- `ecall` (R200): the exception of the mode it is executed in, and nothing else. -/
def execEcall (s : State) : Result :=
  s.hart.settle (.raise (match s.hart.priv with
    | .u => .environmentCallFromU
    | .s => .environmentCallFromS
    | .m => .environmentCallFromM))

/-- `ebreak` (R201). -/
def execEbreak (s : State) : Result := s.hart.settle (.raise .breakpoint)

/-- `uret` (R202): an illegal instruction in every mode, since there are no user-level traps. -/
def execUret (s : State) : Result := s.hart.settle (.raise (.illegalInstruction (encode .uret)))

/-- `sret` is legal: S-mode exists, and the mode is M, or S with TSR clear (R203). -/
def Hart.sretAllowed {x : Xlen} (h : Hart x) : Bool :=
  h.cfg.hasS && decide (h.priv ≠ .u) && !(decide (h.priv = .s) && h.mstatus.tsr)

/-- `sret` (R203). -/
def execSret (s : State) : Result :=
  s.hart.settle (if s.hart.sretAllowed then .done s.hart.trapReturnS else .raise (.illegalInstruction (encode .sret)))

/-- `mret` (R204). -/
def execMret (s : State) : Result :=
  s.hart.settle (if s.hart.priv = .m then .done s.hart.trapReturnM else .raise (.illegalInstruction (encode .mret)))

/-- `wfi` is legal: not in U-mode where S-mode exists, and below M only with TW clear (R205; `WFI_LIMIT` is 0). -/
def Hart.wfiAllowed {x : Xlen} (h : Hart x) : Bool :=
  !(decide (h.priv = .u) && h.cfg.hasS) && !(decide (h.priv ≠ .m) && h.mstatus.tw)

/-- WFI retires at once and the hart waits (R205). -/
def Hart.startWaiting {x : Xlen} (h : Hart x) : Hart x := { h.advance with waiting := true }

/-- `wfi` (R205). -/
def execWfi (s : State) : Result :=
  s.hart.settle (if s.hart.wfiAllowed then .done s.hart.startWaiting else .raise (.illegalInstruction (encode .wfi)))

/-- `sfence.vma` is legal: S-mode exists, and the mode is M, or S with TVM clear (R206). -/
def Hart.sfenceAllowed {x : Xlen} (h : Hart x) : Bool :=
  h.cfg.hasS && decide (h.priv ≠ .u) && !(decide (h.priv = .s) && h.mstatus.tvm)

/-- `sfence.vma` (R206): there is no translation to synchronise, so a legal one only advances `pc`. -/
def execSfenceVma (rs1 rs2 : Reg) (s : State) : Result :=
  s.hart.settle (if s.hart.sfenceAllowed then .done s.hart.advance
    else .raise (.illegalInstruction (encode (.sfenceVma rs1 rs2))))

end Sys2Proof.Machine
end

