-- ==== Sys2Proof/Machine/Environment.lean ====
section
/-! DEFINITION. The parts of a step that are not the instruction: taking the environment's input, waking from WFI,
choosing an interrupt and fetching the word (60_exceptions.md R304 parts 1 to 4). -/

namespace Sys2Proof.Machine

/-! ### The environment's input (R304 part 1, R405) -/

/-- The input of the next step: the next of the list, and past its end an input nothing constrains
(notes/assumptions/7.md, notes/assumptions/8.md). -/
def Hart.nextInput {x : Xlen} (h : Hart x) : StepInput :=
  match h.env with
  | i :: _ => i
  | [] => Config.freeInput h.steps

/-- A step begins: its input is taken, the lines are sampled and other agents' writes before the fetch land. -/
def Hart.beginStep {x : Xlen} (h : Hart x) : Hart x :=
  ({ h with now := h.nextInput, env := h.env.tail, steps := h.steps + 1 } : Hart x).agentWrites
    h.nextInput.agentBeforeFetch

/-! ### Waiting (R304 part 2, R333) -/

/-- `(mip & mie) != 0`: a wake-up event, whatever the global enables and the delegation (R205). -/
def Hart.wakeEvent {x : Xlen} (h : Hart x) : Bool := decide (h.mipWord &&& h.mie ≠ 0)

/-- The hart stays stalled: it waits, there is no wake-up event, and it does not wake spuriously. -/
def Hart.staysWaiting {x : Xlen} (h : Hart x) : Bool := h.waiting && !h.wakeEvent && !h.now.draws.wake

/-- The hart with `waiting` cleared. -/
def Hart.awake {x : Xlen} (h : Hart x) : Hart x := { h with waiting := false }

/-! ### Interrupts (R331, R332) -/

def Hart.pendingEnabled {x : Xlen} (h : Hart x) (i : Interrupt) : Bool :=
  h.mie.getLsbD (Interrupt.code i) && h.mipWord.getLsbD (Interrupt.code i)

/-- The destination of an interrupt is S-mode. -/
def Hart.destinedS {x : Xlen} (h : Hart x) (i : Interrupt) : Bool :=
  h.cfg.hasS && h.mideleg.getLsbD (Interrupt.code i)

/-- The interrupt can be taken now (R331). -/
def Hart.canTake {x : Xlen} (h : Hart x) (i : Interrupt) : Bool :=
  h.pendingEnabled i &&
    (if h.destinedS i then
      match h.priv with
      | .u => true
      | .s => h.mstatus.sie
      | .m => false
    else
      match h.priv with
      | .u => true
      | .s => true
      | .m => h.mstatus.mie)

/-- The order within one destination (R332). -/
def interruptOrder : List Interrupt := [.mei, .msi, .mti, .sei, .ssi, .sti]

/-- The interrupt this step takes, if any: those destined for M-mode come first (R332). -/
def Hart.chosenInterrupt {x : Xlen} (h : Hart x) : Option Interrupt :=
  match interruptOrder.find? (fun i => h.canTake i && !h.destinedS i) with
  | some i => some i
  | none => interruptOrder.find? (fun i => h.canTake i && h.destinedS i)

/-- Taking an interrupt: `t` is 0 and `epc` is the address of the instruction not yet executed (R310, R332). -/
def Hart.takeInterrupt {x : Xlen} (h : Hart x) (i : Interrupt) : Hart x :=
  h.enterTrap true (Interrupt.code i) 0 h.pc

/-! ### Fetch (20_memory.md R79, R84) -/

/-- `F[a]` for byte `k` of the instruction: the byte of memory, or, where the hart has stored to it since its last
FENCE.I, any one of the values it has held since, by a free choice (R84; notes/assumptions/6.md). -/
def Hart.fetchByte {x : Xlen} (h : Hart x) (k a : Nat) : Option Byte :=
  if h.storedSince a then
    match (h.heldSince a)[h.now.draws.fetchPick.getD k 0 % (h.heldSince a).length]? with
    | some b => b
    | none => Memory.read h.mem a
  else Memory.read h.mem a

/-- Some byte of the word at `pc` is not in `Main` (R79). -/
def Hart.fetchOutsideMain {x : Xlen} (h : Hart x) : Bool :=
  (byteAddrs h.pc 4).any fun a => decide (h.regionAt a ≠ .main)

/-- `Fetch(pc)`. -/
def Hart.fetch {x : Xlen} (h : Hart x) : Effect x InstWord :=
  if h.fetchOutsideMain then .raise (.instructionAccessFault h.pc)
  else
    match h.fetchByte 0 (byteAddr h.pc 0), h.fetchByte 1 (byteAddr h.pc 1), h.fetchByte 2 (byteAddr h.pc 2),
      h.fetchByte 3 (byteAddr h.pc 3) with
    | some b0, some b1, some b2, some b3 => .done (wordOfBytes b0 b1 b2 b3)
    | _, _, _, _ => .stop .fetchOfUnwrittenByte

/-! ### Loading a program from outside -/

/-- An entry taken out of a list. -/
def removeAt {α : Type} : List (Nat × α) → Nat → List (Nat × α)
  | [], _ => []
  | (k, v) :: rest, a => if k = a then rest else (k, v) :: removeAt rest a

/-- The environment puts one byte of a program in place: no store of the hart, so a fetch sees it at once (R403,
R411). -/
def Hart.loadByte {x : Xlen} (h : Hart x) (a : Nat) (b : Byte) : Hart x :=
  { h with mem := Memory.write h.mem a b, history := removeAt h.history a }

/-- The environment puts the four bytes of a word at `pc`, the first at the lowest address. -/
def Hart.loadWordAtPc {x : Xlen} (h : Hart x) (w : InstWord) : Hart x :=
  (((h.loadByte (byteAddr h.pc 0) (w.extractLsb' 0 8)).loadByte (byteAddr h.pc 1) (w.extractLsb' 8 8)).loadByte
    (byteAddr h.pc 2) (w.extractLsb' 16 8)).loadByte (byteAddr h.pc 3) (w.extractLsb' 24 8)

end Sys2Proof.Machine
end

