-- ==== Sys2Proof/Machine/Step.lean ====
section
/-! DEFINITION. The step of the hart (60_exceptions.md R304). -/

namespace Sys2Proof.Machine

/-- Parts 5 and 6 of R304: the fetched word is decoded and executed. Other agents' writes that fall between the fetch
and the instruction's own access land first (R86). -/
def stepWord (s : State) (w : InstWord) : Result :=
  let h := s.hart.agentWrites s.hart.now.agentAfterFetch
  match decode s.xlen w with
  | .ok i => exec i ⟨s.xlen, h⟩
  | .error _ => h.settle (.raise (.illegalInstruction w))

/-- Parts 3 to 6 of R304, on a hart that does not wait: an interrupt if one can be taken, else the instruction at
`pc`. -/
def stepAwake (s : State) : Result :=
  match s.hart.chosenInterrupt with
  | some i => .next ⟨s.xlen, s.hart.takeInterrupt i⟩
  | none =>
    match s.hart.fetch with
    | .done w => stepWord s w
    | .raise e => .next ⟨s.xlen, s.hart.takeException e⟩
    | .stop f => .fault f

/-- One step (R304): the environment's input is taken, and a hart that stays stalled changes nothing else. -/
def step (s : State) : Host.Outcome State Fault Refusal :=
  let h := s.hart.beginStep
  if h.staysWaiting then .next ⟨s.xlen, h⟩ else stepAwake ⟨s.xlen, h.awake⟩

/-- The state with this word in memory where the next step fetches: at `pc`, in the byte order of R71. -/
def State.withFetchWord (s : State) (nbits w : Nat) : State :=
  ⟨s.xlen, s.hart.loadWordAtPc (BitVec.ofNat 32 (w % 2 ^ nbits))⟩

end Sys2Proof.Machine
end

