-- ==== Sys2Proof/OpcodeTable.lean ====
section
/-! DEFINITION. The table of 30_encoding.md R112 as data: the mask and the match of every row, for each `XLEN`. The
decoder does not use it; statements about the decoder do. FENCE and FENCE.I have the decoder's mask (R114). -/

namespace Sys2Proof

/-- A word `w` is the instruction of the row when `w &&& mask = pattern` (R112). -/
structure TableRow where
  mask : InstWord
  pattern : InstWord
  deriving DecidableEq, Repr

/-- The word matches the row. -/
abbrev TableRow.Matches (r : TableRow) (w : InstWord) : Prop := w &&& r.mask = r.pattern

/-- The mask of the shift-immediates: bit 25 is fixed only when `XLEN = 32` (R109, R112). -/
def shiftMask : Xlen → InstWord
  | .rv32 => 0xFE00707F
  | .rv64 => 0xFC00707F

/-- The row of an instruction. -/
def rowOf (x : Xlen) : Instr → TableRow
  | .lui _ _ => ⟨0x0000007F, 0x00000037⟩
  | .auipc _ _ => ⟨0x0000007F, 0x00000017⟩
  | .addi _ _ _ => ⟨0x0000707F, 0x00000013⟩
  | .slti _ _ _ => ⟨0x0000707F, 0x00002013⟩
  | .sltiu _ _ _ => ⟨0x0000707F, 0x00003013⟩
  | .xori _ _ _ => ⟨0x0000707F, 0x00004013⟩
  | .ori _ _ _ => ⟨0x0000707F, 0x00006013⟩
  | .andi _ _ _ => ⟨0x0000707F, 0x00007013⟩
  | .slli _ _ _ => ⟨shiftMask x, 0x00001013⟩
  | .srli _ _ _ => ⟨shiftMask x, 0x00005013⟩
  | .srai _ _ _ => ⟨shiftMask x, 0x40005013⟩
  | .add _ _ _ => ⟨0xFE00707F, 0x00000033⟩
  | .sub _ _ _ => ⟨0xFE00707F, 0x40000033⟩
  | .sll _ _ _ => ⟨0xFE00707F, 0x00001033⟩
  | .slt _ _ _ => ⟨0xFE00707F, 0x00002033⟩
  | .sltu _ _ _ => ⟨0xFE00707F, 0x00003033⟩
  | .xor _ _ _ => ⟨0xFE00707F, 0x00004033⟩
  | .srl _ _ _ => ⟨0xFE00707F, 0x00005033⟩
  | .sra _ _ _ => ⟨0xFE00707F, 0x40005033⟩
  | .or _ _ _ => ⟨0xFE00707F, 0x00006033⟩
  | .and _ _ _ => ⟨0xFE00707F, 0x00007033⟩
  | .fence _ _ _ _ _ => ⟨0x0000707F, 0x0000000F⟩
  | .fenceI _ _ _ => ⟨0x0000707F, 0x0000100F⟩
  | .csrrw _ _ _ => ⟨0x0000707F, 0x00001073⟩
  | .csrrs _ _ _ => ⟨0x0000707F, 0x00002073⟩
  | .csrrc _ _ _ => ⟨0x0000707F, 0x00003073⟩
  | .csrrwi _ _ _ => ⟨0x0000707F, 0x00005073⟩
  | .csrrsi _ _ _ => ⟨0x0000707F, 0x00006073⟩
  | .csrrci _ _ _ => ⟨0x0000707F, 0x00007073⟩
  | .ecall => ⟨0xFFFFFFFF, 0x00000073⟩
  | .ebreak => ⟨0xFFFFFFFF, 0x00100073⟩
  | .uret => ⟨0xFFFFFFFF, 0x00200073⟩
  | .sret => ⟨0xFFFFFFFF, 0x10200073⟩
  | .mret => ⟨0xFFFFFFFF, 0x30200073⟩
  | .wfi => ⟨0xFFFFFFFF, 0x10500073⟩
  | .sfenceVma _ _ => ⟨0xFE007FFF, 0x12000073⟩
  | .lb _ _ _ => ⟨0x0000707F, 0x00000003⟩
  | .lh _ _ _ => ⟨0x0000707F, 0x00001003⟩
  | .lw _ _ _ => ⟨0x0000707F, 0x00002003⟩
  | .lbu _ _ _ => ⟨0x0000707F, 0x00004003⟩
  | .lhu _ _ _ => ⟨0x0000707F, 0x00005003⟩
  | .sb _ _ _ => ⟨0x0000707F, 0x00000023⟩
  | .sh _ _ _ => ⟨0x0000707F, 0x00001023⟩
  | .sw _ _ _ => ⟨0x0000707F, 0x00002023⟩
  | .jal _ _ => ⟨0x0000007F, 0x0000006F⟩
  | .jalr _ _ _ => ⟨0x0000707F, 0x00000067⟩
  | .beq _ _ _ => ⟨0x0000707F, 0x00000063⟩
  | .bne _ _ _ => ⟨0x0000707F, 0x00001063⟩
  | .blt _ _ _ => ⟨0x0000707F, 0x00004063⟩
  | .bge _ _ _ => ⟨0x0000707F, 0x00005063⟩
  | .bltu _ _ _ => ⟨0x0000707F, 0x00006063⟩
  | .bgeu _ _ _ => ⟨0x0000707F, 0x00007063⟩
  | .lwu _ _ _ => ⟨0x0000707F, 0x00006003⟩
  | .ld _ _ _ => ⟨0x0000707F, 0x00003003⟩
  | .sd _ _ _ => ⟨0x0000707F, 0x00003023⟩
  | .addiw _ _ _ => ⟨0x0000707F, 0x0000001B⟩
  | .slliw _ _ _ => ⟨0xFE00707F, 0x0000101B⟩
  | .srliw _ _ _ => ⟨0xFE00707F, 0x0000501B⟩
  | .sraiw _ _ _ => ⟨0xFE00707F, 0x4000501B⟩
  | .addw _ _ _ => ⟨0xFE00707F, 0x0000003B⟩
  | .subw _ _ _ => ⟨0xFE00707F, 0x4000003B⟩
  | .sllw _ _ _ => ⟨0xFE00707F, 0x0000103B⟩
  | .srlw _ _ _ => ⟨0xFE00707F, 0x0000503B⟩
  | .sraw _ _ _ => ⟨0xFE00707F, 0x4000503B⟩

/-- The rows present for both widths, in the table's order. -/
def commonRows (x : Xlen) : List TableRow :=
  [⟨0x0000007F, 0x00000037⟩, ⟨0x0000007F, 0x00000017⟩, ⟨0x0000707F, 0x00000013⟩, ⟨0x0000707F, 0x00002013⟩,
    ⟨0x0000707F, 0x00003013⟩, ⟨0x0000707F, 0x00004013⟩, ⟨0x0000707F, 0x00006013⟩, ⟨0x0000707F, 0x00007013⟩,
    ⟨shiftMask x, 0x00001013⟩, ⟨shiftMask x, 0x00005013⟩, ⟨shiftMask x, 0x40005013⟩, ⟨0xFE00707F, 0x00000033⟩,
    ⟨0xFE00707F, 0x40000033⟩, ⟨0xFE00707F, 0x00001033⟩, ⟨0xFE00707F, 0x00002033⟩, ⟨0xFE00707F, 0x00003033⟩,
    ⟨0xFE00707F, 0x00004033⟩, ⟨0xFE00707F, 0x00005033⟩, ⟨0xFE00707F, 0x40005033⟩, ⟨0xFE00707F, 0x00006033⟩,
    ⟨0xFE00707F, 0x00007033⟩, ⟨0x0000707F, 0x0000000F⟩, ⟨0x0000707F, 0x0000100F⟩, ⟨0x0000707F, 0x00001073⟩,
    ⟨0x0000707F, 0x00002073⟩, ⟨0x0000707F, 0x00003073⟩] ++
  [⟨0x0000707F, 0x00005073⟩, ⟨0x0000707F, 0x00006073⟩, ⟨0x0000707F, 0x00007073⟩, ⟨0xFFFFFFFF, 0x00000073⟩,
    ⟨0xFFFFFFFF, 0x00100073⟩, ⟨0xFFFFFFFF, 0x00200073⟩, ⟨0xFFFFFFFF, 0x10200073⟩, ⟨0xFFFFFFFF, 0x30200073⟩,
    ⟨0xFFFFFFFF, 0x10500073⟩, ⟨0xFE007FFF, 0x12000073⟩, ⟨0x0000707F, 0x00000003⟩, ⟨0x0000707F, 0x00001003⟩,
    ⟨0x0000707F, 0x00002003⟩, ⟨0x0000707F, 0x00004003⟩, ⟨0x0000707F, 0x00005003⟩, ⟨0x0000707F, 0x00000023⟩,
    ⟨0x0000707F, 0x00001023⟩, ⟨0x0000707F, 0x00002023⟩, ⟨0x0000007F, 0x0000006F⟩, ⟨0x0000707F, 0x00000067⟩,
    ⟨0x0000707F, 0x00000063⟩, ⟨0x0000707F, 0x00001063⟩, ⟨0x0000707F, 0x00004063⟩, ⟨0x0000707F, 0x00005063⟩,
    ⟨0x0000707F, 0x00006063⟩, ⟨0x0000707F, 0x00007063⟩]

/-- The rows present only when `XLEN = 64`. -/
def rv64Rows : List TableRow :=
  [⟨0x0000707F, 0x00006003⟩, ⟨0x0000707F, 0x00003003⟩, ⟨0x0000707F, 0x00003023⟩, ⟨0x0000707F, 0x0000001B⟩,
    ⟨0xFE00707F, 0x0000101B⟩, ⟨0xFE00707F, 0x0000501B⟩, ⟨0xFE00707F, 0x4000501B⟩, ⟨0xFE00707F, 0x0000003B⟩,
    ⟨0xFE00707F, 0x4000003B⟩, ⟨0xFE00707F, 0x0000103B⟩, ⟨0xFE00707F, 0x0000503B⟩, ⟨0xFE00707F, 0x4000503B⟩]

/-- The rows for a width. -/
def tableRows : Xlen → List TableRow
  | .rv32 => commonRows .rv32
  | .rv64 => commonRows .rv64 ++ rv64Rows

end Sys2Proof
end

