-- ==== Sys2Proof/Safety.lean ====
section
/-! DEFINITION. The terms claims are stated in: the invariant of the machine, what an instruction leaves alone, what it
means that a trap was taken, and the end of a run. No step uses anything of this file. -/

namespace Sys2Proof.Machine

/-! ### The invariant -/

/-- A parameter set the spec admits: `RESET_PC` and `END_PC` are multiples of 4 (R2), and U-mode exists where S-mode
does (PRESUMED, notes/assumptions/13.md). -/
structure ConfigOk {x : Xlen} (cfg : Config x) : Prop where
  modes : cfg.hasS = true → cfg.hasU = true
  resetPc : cfg.resetPc.toNat % 4 = 0
  endPc : ∀ e, cfg.endPc = some e → e.toNat % 4 = 0

/-- The mode is implemented (R26). -/
def modeExists {x : Xlen} (cfg : Config x) : Priv → Prop
  | .u => cfg.hasU = true
  | .s => cfg.hasS = true
  | .m => True

/-- The fields of `mstatus` that are read-only zero for want of a mode are zero, and MPP is an implemented mode (R33). -/
structure MstatusOk {x : Xlen} (cfg : Config x) (m : Mstatus) : Prop where
  mpp : modeExists cfg m.mpp
  supervisor : cfg.hasS = false →
    m.sie = false ∧ m.spie = false ∧ m.spp = false ∧ m.mxr = false ∧ m.tvm = false ∧ m.tsr = false
  user : cfg.hasU = false → m.mprv = false
  timeout : cfg.hasS = false → cfg.hasU = false → m.tw = false

/-- What holds of the hart at reset and after every step. -/
structure Hart.Inv {x : Xlen} (h : Hart x) : Prop where
  config : ConfigOk h.cfg
  /-- `pc` is always a multiple of 4 (R25). -/
  pcAligned : h.pc.toNat % 4 = 0
  /-- Bits 1-0 of `mepc` and `sepc` are read-only zero (R46). -/
  mepcAligned : h.mepc.toNat % 4 = 0
  sepcAligned : h.sepc.toNat % 4 = 0
  /-- MODE of a trap vector is 0 or 1 (R43, R44). -/
  mtvecMode : h.mtvec.toNat % 4 < 2
  stvecMode : h.stvec.toNat % 4 < 2
  /-- The read-only-zero bits are zero (R38 to R41). -/
  medelegBits : h.medeleg &&& ~~~medelegMask x = 0
  midelegBits : h.mideleg &&& ~~~supervisorMask x = 0
  mieBits : h.mie &&& ~~~mieMask h.cfg = 0
  mipBits : h.mipSoft &&& ~~~mipMask h.cfg = 0
  /-- `priv` is an implemented mode (R26). -/
  privExists : modeExists h.cfg h.priv
  mstatusOk : MstatusOk h.cfg h.mstatus
  /-- The memory is in canonical form and lists only `Main` addresses (R29). -/
  memRising : Memory.wf h.mem
  memMain : ∀ c ∈ h.mem, c.1 < 2 ^ x.bits ∧ h.regionAt c.1 = .main
  /-- A byte written since the last FENCE.I is in `Main`, and the value it has is among those it has held (R84). -/
  historyRising : risingAddresses h.history
  historyMain : ∀ p ∈ h.history, p.1 < 2 ^ x.bits ∧ h.regionAt p.1 = .main ∧ Memory.read h.mem p.1 ∈ p.2.held

/-- The invariant of the machine. -/
def State.Inv (s : State) : Prop := s.hart.Inv

/-! ### What is left alone -/

/-- Every control and status register, the mode and the parameters are the same. -/
structure Hart.SameSystem {x : Xlen} (h t : Hart x) : Prop where
  cfg : t.cfg = h.cfg
  priv : t.priv = h.priv
  mstatus : t.mstatus = h.mstatus
  medeleg : t.medeleg = h.medeleg
  mideleg : t.mideleg = h.mideleg
  mie : t.mie = h.mie
  mipSoft : t.mipSoft = h.mipSoft
  mtvec : t.mtvec = h.mtvec
  mscratch : t.mscratch = h.mscratch
  mepc : t.mepc = h.mepc
  mcause : t.mcause = h.mcause
  mtval : t.mtval = h.mtval
  stvec : t.stvec = h.stvec
  sscratch : t.sscratch = h.sscratch
  sepc : t.sepc = h.sepc
  scause : t.scause = h.scause
  stval : t.stval = h.stval
  waiting : t.waiting = h.waiting

/-- What the environment does, now and later, is the same: an instruction never touches it. -/
structure Hart.SameEnvironment {x : Xlen} (h t : Hart x) : Prop where
  now : t.now = h.now
  env : t.env = h.env
  steps : t.steps = h.steps

/-- Every byte of memory reads the same, a fetch may see the same values, and no `IO` access was made. -/
structure Hart.SameMemory {x : Xlen} (h t : Hart x) : Prop where
  bytes : ∀ a, Memory.read t.mem a = Memory.read h.mem a
  history : t.history = h.history
  ioLog : t.ioLog = h.ioLog

/-- Every integer register is the same. -/
def Hart.SameRegs {x : Xlen} (h t : Hart x) : Prop := ∀ j, t.readX j = h.readX j

/-- Every integer register but `rd` is the same, `x0` reads zero, and `rd`, where it is not `x0`, holds a value with
this property. -/
def Hart.Sets {x : Xlen} (h t : Hart x) (rd : Reg) (value : XWord x → Prop) : Prop :=
  (rd ≠ 0 → value (t.readX rd)) ∧ t.readX 0 = 0 ∧ ∀ j, j ≠ rd → t.readX j = h.readX j

/-- The whole effect of a computational instruction: `rd` gets a value with this property, `pc` moves on by 4 modulo
2^XLEN, and nothing else changes (R24, R130, R150). -/
structure Hart.Computes {x : Xlen} (h t : Hart x) (rd : Reg) (value : XWord x → Prop) : Prop where
  sets : h.Sets t rd value
  pc : t.pc.toNat = (h.pc.toNat + 4) % 2 ^ x.bits
  system : h.SameSystem t
  memory : h.SameMemory t
  environment : h.SameEnvironment t

/-- The whole effect of a control transfer: `pc` holds this address, `rd` a value with this property, nothing else
changes. -/
structure Hart.Transfers {x : Xlen} (h t : Hart x) (target : Nat) (rd : Reg) (value : XWord x → Prop) : Prop where
  sets : h.Sets t rd value
  pc : t.pc.toNat = target
  system : h.SameSystem t
  memory : h.SameMemory t
  environment : h.SameEnvironment t

/-! ### Traps (R311 to R314) -/

/-- The handler address of R314 as a number: the base, or for an interrupt in Vectored mode the base plus four times
the code. -/
def handlerAddress {x : Xlen} (tvec : XWord x) (interrupt : Bool) (code : Nat) : Nat :=
  if interrupt = true ∧ tvec.toNat % 4 = 1 then (tvec.toNat / 4 * 4 + 4 * code) % 2 ^ x.bits else tvec.toNat / 4 * 4

/-- The value of a cause register as a number: bit XLEN-1 is `interrupt` (R312). -/
def causeNumber (x : Xlen) (interrupt : Bool) (code : Nat) : Nat :=
  code + if interrupt = true then 2 ^ (x.bits - 1) else 0

/-- A trap handled in M-mode took the hart from `h` to `t` (R312): what is saved, what changes, and that nothing else
does. -/
structure Hart.TrapsToM {x : Xlen} (h t : Hart x) (interrupt : Bool) (code : Nat) (tval epc : XWord x) : Prop where
  mepc : t.mepc = epc
  mcause : t.mcause.toNat = causeNumber x interrupt code
  mtval : t.mtval = tval
  mstatus : t.mstatus = { h.mstatus with mpie := h.mstatus.mie, mie := false, mpp := h.priv }
  priv : t.priv = .m
  waiting : t.waiting = false
  pc : t.pc.toNat = handlerAddress h.mtvec interrupt code
  regs : h.SameRegs t
  memory : h.SameMemory t
  environment : h.SameEnvironment t
  cfg : t.cfg = h.cfg
  delegation : t.medeleg = h.medeleg ∧ t.mideleg = h.mideleg
  interrupts : t.mie = h.mie ∧ t.mipSoft = h.mipSoft
  vectors : t.mtvec = h.mtvec ∧ t.stvec = h.stvec
  scratch : t.mscratch = h.mscratch ∧ t.sscratch = h.sscratch
  supervisor : t.sepc = h.sepc ∧ t.scause = h.scause ∧ t.stval = h.stval

/-- A trap handled in S-mode took the hart from `h` to `t` (R312). -/
structure Hart.TrapsToS {x : Xlen} (h t : Hart x) (interrupt : Bool) (code : Nat) (tval epc : XWord x) : Prop where
  sepc : t.sepc = epc
  scause : t.scause.toNat = causeNumber x interrupt code
  stval : t.stval = tval
  mstatus : t.mstatus = { h.mstatus with spie := h.mstatus.sie, sie := false, spp := decide (h.priv = .s) }
  priv : t.priv = .s
  waiting : t.waiting = false
  pc : t.pc.toNat = handlerAddress h.stvec interrupt code
  regs : h.SameRegs t
  memory : h.SameMemory t
  environment : h.SameEnvironment t
  cfg : t.cfg = h.cfg
  delegation : t.medeleg = h.medeleg ∧ t.mideleg = h.mideleg
  interrupts : t.mie = h.mie ∧ t.mipSoft = h.mipSoft
  vectors : t.mtvec = h.mtvec ∧ t.stvec = h.stvec
  scratch : t.mscratch = h.mscratch ∧ t.sscratch = h.sscratch
  machine : t.mepc = h.mepc ∧ t.mcause = h.mcause ∧ t.mtval = h.mtval

/-- The condition of R311 for a trap to be handled in S-mode. -/
def Hart.HandledInS {x : Xlen} (h : Hart x) (interrupt : Bool) (code : Nat) : Prop :=
  h.cfg.hasS = true ∧ (h.priv = .u ∨ h.priv = .s) ∧
    (if interrupt = true then h.mideleg.getLsbD code = true else h.medeleg.getLsbD code = true)

/-- A trap with this cause, value and saved address took the hart from `h` to `t`, in the mode R311 gives. -/
def Hart.Traps {x : Xlen} (h t : Hart x) (interrupt : Bool) (code : Nat) (tval epc : XWord x) : Prop :=
  (h.HandledInS interrupt code → h.TrapsToS t interrupt code tval epc) ∧
    (¬ h.HandledInS interrupt code → h.TrapsToM t interrupt code tval epc)

/-- An outcome that is a synchronous exception of the instruction at `h`'s own `pc`, and nothing else. -/
def Hart.Raises {x : Xlen} (h : Hart x) (r : Result) (code : Nat) (tval : XWord x) : Prop :=
  ∃ t : Hart x, r = .next ⟨x, t⟩ ∧ h.Traps t false code tval h.pc

/-- The trap value of an illegal instruction, by the draw `MTVAL_ILLEGAL` of the step (R313). -/
def Hart.illegalValue {x : Xlen} (h : Hart x) (w : InstWord) : XWord x :=
  if h.now.draws.mtvalIllegal = .zero then 0 else w.setWidth x.bits

/-- An outcome that is an illegal-instruction exception of the word `w`. -/
def Hart.RaisesIllegal {x : Xlen} (h : Hart x) (r : Result) (w : InstWord) : Prop :=
  h.Raises r 2 (h.illegalValue w)

/-! ### An instruction completes -/

/-- The instruction answers a next state, of the same width, with this property. -/
def Hart.Completes {x : Xlen} (h : Hart x) (i : Instr) (after : Hart x → Prop) : Prop :=
  ∃ t : Hart x, exec i ⟨x, h⟩ = .next ⟨x, t⟩ ∧ after t

/-- The whole effect of an instruction whose rule changes nothing but `pc`: it moves on by 4 modulo 2^XLEN (R24). -/
def Hart.Advances {x : Xlen} (h t : Hart x) : Prop := h.Computes t 0 fun _ => True

/-! ### Memory accesses (R71 to R73, R77, R84) -/

/-- The `n` bytes from address `a` up have values, and they are those of the number `v`, least significant first. -/
def Hart.BytesAt {x : Xlen} (h : Hart x) (a n v : Nat) : Prop :=
  v < 256 ^ n ∧ ∀ k, k < n → Memory.read h.mem (a + k) = some (BitVec.ofNat 8 (v / 256 ^ k))

/-- The values an instruction fetch of the byte may return (R79, R84): those it has held since the hart's last FENCE.I
where the hart has stored to it since, else the one it has. -/
def Hart.fetchable {x : Xlen} (h : Hart x) (a : Nat) : List (Option Byte) :=
  if h.storedSince a = true then h.heldSince a else [Memory.read h.mem a]

/-- The whole effect of a store of the low `n` bytes of the number `v` to the `Main` bytes from address `a` up (R73,
R84). -/
structure Hart.Stores {x : Xlen} (h t : Hart x) (a n v : Nat) : Prop where
  pc : t.pc.toNat = (h.pc.toNat + 4) % 2 ^ x.bits
  stored : ∀ k, k < n → Memory.read t.mem (a + k) = some (BitVec.ofNat 8 (v / 256 ^ k))
  others : ∀ b, b < a ∨ a + n ≤ b → Memory.read t.mem b = Memory.read h.mem b
  fetched : ∀ k, k < n → ∀ y, y ∈ t.fetchable (a + k) ↔
    y ∈ h.heldSince (a + k) ∨ y = some (BitVec.ofNat 8 (v / 256 ^ k))
  fetchedOthers : ∀ b, b < a ∨ a + n ≤ b → t.fetchable b = h.fetchable b ∧ t.heldSince b = h.heldSince b
  ioLog : t.ioLog = h.ioLog
  regs : h.SameRegs t
  system : h.SameSystem t
  environment : h.SameEnvironment t

/-- The whole effect of one access to an `IO` region: the device sees it, after all earlier ones, `rd` gets a value with
this property, and no byte of memory changes (R77). -/
structure Hart.AccessesIo {x : Xlen} (h t : Hart x) (e : IoEvent) (rd : Reg) (value : XWord x → Prop) : Prop where
  pc : t.pc.toNat = (h.pc.toNat + 4) % 2 ^ x.bits
  ioLog : t.ioLog = h.ioLog ++ [e]
  sets : h.Sets t rd value
  bytes : ∀ a, Memory.read t.mem a = Memory.read h.mem a
  history : t.history = h.history
  system : h.SameSystem t
  environment : h.SameEnvironment t

/-! ### Branches (R249) -/

/-- The rule of a conditional branch on a condition: to the target where it holds and the target is a multiple of 4, an
exception with the target as trap value where it holds and the target is not, and the next instruction otherwise. -/
def Hart.BranchesOn {x : Xlen} (h : Hart x) (branch : BitVec 13 → Instr) (condition : Prop) : Prop :=
  ∀ (offset : BitVec 13) (target : XWord x), (target.toNat : Int) = (h.pc.toNat + offset.toInt) % 2 ^ x.bits →
    (condition → target.toNat % 4 = 0 →
      h.Completes (branch offset) fun t => h.Transfers t target.toNat 0 fun _ => True) ∧
    (condition → target.toNat % 4 ≠ 0 → h.Raises (exec (branch offset) ⟨x, h⟩) 0 target) ∧
    (¬ condition → h.Completes (branch offset) h.Advances)

/-! ### Access to the control and status registers (R31, R180) -/

/-- The address of each register (R31). -/
def csrAddress : Csr → CsrAddr
  | .sstatus => 0x100
  | .sie => 0x104
  | .stvec => 0x105
  | .sscratch => 0x140
  | .sepc => 0x141
  | .scause => 0x142
  | .stval => 0x143
  | .sip => 0x144
  | .satp => 0x180
  | .mstatus => 0x300
  | .misa => 0x301
  | .medeleg => 0x302
  | .mideleg => 0x303
  | .mie => 0x304
  | .mtvec => 0x305
  | .mscratch => 0x340
  | .mepc => 0x341
  | .mcause => 0x342
  | .mtval => 0x343
  | .mip => 0x344
  | .mvendorid => 0xF11
  | .marchid => 0xF12
  | .mimpid => 0xF13
  | .mhartid => 0xF14

/-- The addresses of R31 that are present in every configuration. -/
def csrAlways : List CsrAddr :=
  [0x300, 0x301, 0x304, 0x305, 0x340, 0x341, 0x342, 0x343, 0x344, 0xF11, 0xF12, 0xF13, 0xF14]

/-- The addresses of R31 that are present when S-mode exists. -/
def csrWithS : List CsrAddr :=
  [0x100, 0x104, 0x105, 0x140, 0x141, 0x142, 0x143, 0x144, 0x180, 0x302, 0x303]

/-- The four checks of R180 pass for an access to this address. -/
structure Hart.CsrPermits {x : Xlen} (h : Hart x) (a : CsrAddr) (writes : Prop) : Prop where
  implemented : a ∈ csrAlways ∨ h.cfg.hasS = true ∧ a ∈ csrWithS
  mode : a.toNat / 256 % 4 ≤ Priv.num h.priv
  readOnly : writes → a.toNat / 1024 ≠ 3
  satp : ¬ (a = 0x180 ∧ h.priv = .s ∧ h.mstatus.tvm = true)

/-- The whole effect of a CSR instruction: the register holds what a write of `new` to it leaves (R182), `rd` what it
held before, and nothing else changes. -/
structure Hart.Swaps {x : Xlen} (h t : Hart x) (c : Csr) (written : Hart x) (rd : Reg) : Prop where
  sets : h.Sets t rd fun v => v = h.csrRead c
  pc : t.pc.toNat = (h.pc.toNat + 4) % 2 ^ x.bits
  system : written.SameSystem t
  memory : h.SameMemory t
  environment : h.SameEnvironment t

/-- A CSR write changed what these registers read as, and nothing else (R182): every other register reads as before,
the registers that are views of one another being listed together, and so do the mode, `waiting` and the parameters. -/
structure Hart.WritesOnly {x : Xlen} (h t : Hart x) (changed : List Csr) : Prop where
  others : ∀ d, d ∉ changed → t.csrRead d = h.csrRead d
  cfg : t.cfg = h.cfg
  priv : t.priv = h.priv
  waiting : t.waiting = h.waiting

/-- The rule common to the six CSR instructions on an access that is permitted (R180 to R182): the register that stands at
the address (R31) is written with `new` of its old value where the instruction writes. -/
def Hart.CsrRule {x : Xlen} (h : Hart x) (i : Instr) (csr : CsrAddr) (rd : Reg) (writes : Prop)
    (new : XWord x → XWord x) : Prop :=
  h.CsrPermits csr writes → ∃ c, csrAddress c = csr ∧
    (writes → h.Completes i fun t => h.Swaps t c (h.csrWrite c (new (h.csrRead c))) rd) ∧
    (¬ writes → h.Completes i fun t => h.Swaps t c h rd)

/-! ### Interrupts (R330 to R332) -/

/-- The interrupt is pending: a line of the platform, or a bit software has set (R330). -/
def Hart.isPending {x : Xlen} (h : Hart x) : Interrupt → Prop
  | .mei => h.now.lines.meip = true
  | .mti => h.now.lines.mtip = true
  | .msi => h.now.lines.msip = true
  | .sei => h.mipSoft.getLsbD 9 = true
  | .sti => h.mipSoft.getLsbD 5 = true
  | .ssi => h.mipSoft.getLsbD 1 = true

/-- The interrupt's destination is S-mode (R331). -/
def Hart.goesToS {x : Xlen} (h : Hart x) (i : Interrupt) : Prop :=
  h.cfg.hasS = true ∧ h.mideleg.getLsbD (Interrupt.code i) = true

/-- The interrupt can be taken now (R331). -/
def Hart.Takeable {x : Xlen} (h : Hart x) (i : Interrupt) : Prop :=
  h.isPending i ∧ h.mie.getLsbD (Interrupt.code i) = true ∧
    (¬ h.goesToS i → h.priv = .m → h.mstatus.mie = true) ∧
    (h.goesToS i → h.priv = .u ∨ h.priv = .s ∧ h.mstatus.sie = true)

/-- The place of an interrupt in the order MEI, MSI, MTI, SEI, SSI, STI (R332). -/
def Interrupt.place : Interrupt → Nat
  | .mei => 0
  | .msi => 1
  | .mti => 2
  | .sei => 3
  | .ssi => 4
  | .sti => 5

/-- The first interrupt is taken before the second: destined for M-mode before S-mode, then by place (R332). -/
def Hart.takenBefore {x : Xlen} (h : Hart x) (i j : Interrupt) : Prop :=
  (¬ h.goesToS i ∧ h.goesToS j) ∨ ((h.goesToS i ↔ h.goesToS j) ∧ Interrupt.place i < Interrupt.place j)

/-! ### Kinds of instructions -/

/-- The destination of a computational instruction (R116): those of 40_integer_immediate.md, 41_integer_register.md and
the nine word instructions of 47_rv64i_only.md. -/
def computesInto : Instr → Option Reg
  | .lui rd _ | .auipc rd _ => some rd
  | .addi rd _ _ | .slti rd _ _ | .sltiu rd _ _ | .xori rd _ _ | .ori rd _ _ | .andi rd _ _ => some rd
  | .slli rd _ _ | .srli rd _ _ | .srai rd _ _ => some rd
  | .add rd _ _ | .sub rd _ _ | .sll rd _ _ | .slt rd _ _ | .sltu rd _ _ => some rd
  | .xor rd _ _ | .srl rd _ _ | .sra rd _ _ | .or rd _ _ | .and rd _ _ => some rd
  | .fence _ _ _ _ _ | .fenceI _ _ _ => none
  | .csrrw _ _ _ | .csrrs _ _ _ | .csrrc _ _ _ | .csrrwi _ _ _ | .csrrsi _ _ _ | .csrrci _ _ _ => none
  | .ecall | .ebreak | .uret | .sret | .mret | .wfi | .sfenceVma _ _ => none
  | .lb _ _ _ | .lh _ _ _ | .lw _ _ _ | .lbu _ _ _ | .lhu _ _ _ => none
  | .sb _ _ _ | .sh _ _ _ | .sw _ _ _ => none
  | .jal _ _ | .jalr _ _ _ => none
  | .beq _ _ _ | .bne _ _ _ | .blt _ _ _ | .bge _ _ _ | .bltu _ _ _ | .bgeu _ _ _ => none
  | .lwu _ _ _ | .ld _ _ _ | .sd _ _ _ => none
  | .addiw rd _ _ | .slliw rd _ _ | .srliw rd _ _ | .sraiw rd _ _ => some rd
  | .addw rd _ _ | .subw rd _ _ | .sllw rd _ _ | .srlw rd _ _ | .sraw rd _ _ => some rd

/-- The access of a load (R222 to R226, R261, R262): its base register, its offset and its width in bytes. -/
def loadAccess : Instr → Option (Reg × BitVec 12 × Nat)
  | .lb _ rs1 offset | .lbu _ rs1 offset => some (rs1, offset, 1)
  | .lh _ rs1 offset | .lhu _ rs1 offset => some (rs1, offset, 2)
  | .lw _ rs1 offset | .lwu _ rs1 offset => some (rs1, offset, 4)
  | .ld _ rs1 offset => some (rs1, offset, 8)
  | .lui _ _ | .auipc _ _ => none
  | .addi _ _ _ | .slti _ _ _ | .sltiu _ _ _ | .xori _ _ _ | .ori _ _ _ | .andi _ _ _ => none
  | .slli _ _ _ | .srli _ _ _ | .srai _ _ _ => none
  | .add _ _ _ | .sub _ _ _ | .sll _ _ _ | .slt _ _ _ | .sltu _ _ _ => none
  | .xor _ _ _ | .srl _ _ _ | .sra _ _ _ | .or _ _ _ | .and _ _ _ => none
  | .fence _ _ _ _ _ | .fenceI _ _ _ => none
  | .csrrw _ _ _ | .csrrs _ _ _ | .csrrc _ _ _ | .csrrwi _ _ _ | .csrrsi _ _ _ | .csrrci _ _ _ => none
  | .ecall | .ebreak | .uret | .sret | .mret | .wfi | .sfenceVma _ _ => none
  | .sb _ _ _ | .sh _ _ _ | .sw _ _ _ | .sd _ _ _ => none
  | .jal _ _ | .jalr _ _ _ => none
  | .beq _ _ _ | .bne _ _ _ | .blt _ _ _ | .bge _ _ _ | .bltu _ _ _ | .bgeu _ _ _ => none
  | .addiw _ _ _ | .slliw _ _ _ | .srliw _ _ _ | .sraiw _ _ _ => none
  | .addw _ _ _ | .subw _ _ _ | .sllw _ _ _ | .srlw _ _ _ | .sraw _ _ _ => none

/-- The instruction is a load of an aligned `Main` location with a byte that has no value. -/
def Hart.LoadsUnwritten {x : Xlen} (h : Hart x) (i : Instr) : Prop :=
  ∃ rs1 offset n k, loadAccess i = some (rs1, offset, n) ∧ (h.effAddr rs1 offset).toNat % n = 0 ∧
    h.regionAt (h.effAddr rs1 offset).toNat = .main ∧ k < n ∧
    Memory.read h.mem ((h.effAddr rs1 offset).toNat + k) = none

/-- The instruction may write `pc` itself: JAL, JALR, the branches and the two trap returns (R24). -/
def mayJump : Instr → Bool
  | .jal _ _ | .jalr _ _ _ => true
  | .beq _ _ _ | .bne _ _ _ | .blt _ _ _ | .bge _ _ _ | .bltu _ _ _ | .bgeu _ _ _ => true
  | .sret | .mret => true
  | .lui _ _ | .auipc _ _ => false
  | .addi _ _ _ | .slti _ _ _ | .sltiu _ _ _ | .xori _ _ _ | .ori _ _ _ | .andi _ _ _ => false
  | .slli _ _ _ | .srli _ _ _ | .srai _ _ _ => false
  | .add _ _ _ | .sub _ _ _ | .sll _ _ _ | .slt _ _ _ | .sltu _ _ _ => false
  | .xor _ _ _ | .srl _ _ _ | .sra _ _ _ | .or _ _ _ | .and _ _ _ => false
  | .fence _ _ _ _ _ | .fenceI _ _ _ => false
  | .csrrw _ _ _ | .csrrs _ _ _ | .csrrc _ _ _ | .csrrwi _ _ _ | .csrrsi _ _ _ | .csrrci _ _ _ => false
  | .ecall | .ebreak | .uret | .wfi | .sfenceVma _ _ => false
  | .lb _ _ _ | .lh _ _ _ | .lw _ _ _ | .lbu _ _ _ | .lhu _ _ _ | .lwu _ _ _ | .ld _ _ _ => false
  | .sb _ _ _ | .sh _ _ _ | .sw _ _ _ | .sd _ _ _ => false
  | .addiw _ _ _ | .slliw _ _ _ | .srliw _ _ _ | .sraiw _ _ _ => false
  | .addw _ _ _ | .subw _ _ _ | .sllw _ _ _ | .srlw _ _ _ | .sraw _ _ _ => false

/-! ### The end of a run (R404: a convention of the model, not a behaviour of the hardware) -/

/-- The run ends at the step that begins with `pc = END_PC`, `waiting = 0` and no interrupt takeable. -/
def State.atEnd (s : State) : Bool :=
  match s.hart.cfg.endPc with
  | none => false
  | some e => decide (s.hart.pc = e) && !s.hart.waiting && decide (s.hart.beginStep.chosenInterrupt = none)

/-- How a run of at most this many steps comes out. -/
inductive RunResult where
  | ended (s : State)
  | running (s : State)
  | stopped (f : Fault)
  | refused (r : Refusal)
  deriving DecidableEq, Repr

/-- Run until the end of the run, a stop, or the given number of steps. -/
def State.run : Nat → State → RunResult
  | 0, s => if s.atEnd then .ended s else .running s
  | k + 1, s =>
    if s.atEnd then .ended s
    else
      match step s with
      | .next t => State.run k t
      | .fault f => .stopped f
      | .refused r => .refused r

/-- A run is safe for this many steps: the machine neither stops nor refuses. -/
def State.safeFor (s : State) (k : Nat) : Prop :=
  ∃ t, State.run k s = .ended t ∨ State.run k s = .running t

end Sys2Proof.Machine
end

