-- ==== Sys2Proof/Certificates/Slice0/Obligations.lean ====
section
/-! DEFINITION. The statements about the model. The terms they are stated in (`Computes`, `Transfers`, `Stores`, `Traps`,
`Completes` and the rest) are in Sys2Proof/Safety.lean. A statement whose docstring names no log entry rests on the
spec's rules alone. -/

open Sys2Proof Sys2Proof.Machine

/-! ### Encoding (30_encoding.md) -/

/-- Decoding the word of a well-formed instruction gives it back, for every operand the encoding admits. -/
def Obligations.DecodeInvertsEncode : Prop :=
  ∀ (x : Xlen) (i : Instr), WellFormed x i = true → decode x (encode i) = .ok i

/-- Every word the decoder accepts is the word of the instruction it reads, which is well-formed: no bit is dropped. -/
def Obligations.EncodeInvertsDecode : Prop :=
  ∀ (x : Xlen) (w : InstWord) (i : Instr), decode x w = .ok i → WellFormed x i = true ∧ encode i = w

/-- R112, R113: a word is an instruction exactly when it matches a row of the table for the width, and it is the
instruction of that row. -/
def Obligations.WordIsInstructionIffItMatchesARow : Prop :=
  ∀ (x : Xlen) (w : InstWord),
    (∀ i, decode x w = .ok i → rowOf x i ∈ tableRows x ∧ (rowOf x i).Matches w) ∧
      (∀ r, r ∈ tableRows x → r.Matches w → ∃ i, decode x w = .ok i ∧ rowOf x i = r)

/-- R112: no two rows of the table match the same word. -/
def Obligations.NoTwoRowsMatchOneWord : Prop :=
  ∀ (x : Xlen) (w : InstWord) (r q : TableRow), r ∈ tableRows x → q ∈ tableRows x → r.Matches w → q.Matches w → r = q

/-- Words the spec writes out, one of each family, decode to the instructions they stand for. -/
def Obligations.SampleWordsDecodeAsTheSpecWritesThem : Prop :=
  decode .rv32 0x123452B7 = .ok (.lui 5 0x12345) ∧
  decode .rv32 0x407302B3 = .ok (.sub 5 6 7) ∧
  decode .rv32 0x0120000F = .ok (.fence 0 1 2 0 0) ∧
  decode .rv32 0x340312F3 = .ok (.csrrw 5 0x340 6) ∧
  decode .rv32 0x30200073 = .ok .mret ∧
  decode .rv32 0xFFF30283 = .ok (.lb 5 6 0xFFF) ∧
  decode .rv32 0xFE732E23 = .ok (.sw 7 6 0xFFC) ∧
  decode .rv32 0xFFDFF06F = .ok (.jal 0 0x1FFFFC) ∧
  decode .rv32 0xFE731CE3 = .ok (.bne 6 7 0x1FF8) ∧
  decode .rv64 0x4043529B = .ok (.sraiw 5 6 4)

/-! ### The step (60_exceptions.md R304) -/

/-- R304 parts 4 to 6: where the hart does not stay stalled and no interrupt can be taken, and the four bytes at `pc` are
in `Main`, not stored to since the last FENCE.I and the bytes of an instruction, the step is that instruction, on the
hart as it is once the step has taken its input. Where no other agent writes, that hart is the old one with the new
input. That a step takes its input from a list and other agents' writes in two parts is the model's:
notes/assumptions/7.md, notes/assumptions/9.md. -/
def Obligations.StepRunsDecodedInstruction : Prop :=
  ∀ (x : Xlen) (h b : Hart x) (i : Instr) (bytes : List Byte),
    b = h.beginStep.awake → h.beginStep.staysWaiting = false → b.chosenInterrupt = none →
    (∀ a ∈ byteAddrs b.pc 4, b.regionAt a = .main ∧ b.storedSince a = false) →
    readBytes b.mem (byteAddrs b.pc 4) = some bytes → decodeBytes x bytes = .ok (i, []) →
    step ⟨x, h⟩ = exec i ⟨x, b.agentWrites b.now.agentAfterFetch⟩ ∧
      (h.nextInput.agentBeforeFetch = [] → h.nextInput.agentAfterFetch = [] →
        b.agentWrites b.now.agentAfterFetch =
          { h with now := h.nextInput, env := h.env.tail, steps := h.steps + 1, waiting := false })

/-- R304 part 5, R302 (a): a word at `pc` that is no instruction raises `IllegalInstruction`. The hart that traps is the
one after the writes other agents make between the fetch and the instruction's own access: that these land in this step
is the model's, notes/assumptions/9.md. -/
def Obligations.StepTrapsOnAWordThatIsNoInstruction : Prop :=
  ∀ (x : Xlen) (h b : Hart x) (w : InstWord),
    b = h.beginStep.awake → h.beginStep.staysWaiting = false → b.chosenInterrupt = none → b.fetch = .done w →
    (∀ r ∈ tableRows x, ¬ r.Matches w) →
    (b.agentWrites b.now.agentAfterFetch).RaisesIllegal (step ⟨x, h⟩) w

/-- R79: a fetch that touches a byte outside `Main` raises `InstructionAccessFault` with the `pc` as trap value. The hart
that traps is the one that has taken the input of the step (notes/assumptions/7.md, notes/assumptions/9.md). -/
def Obligations.FetchOutsideMainTraps : Prop :=
  ∀ (x : Xlen) (h b : Hart x) (a : Nat),
    b = h.beginStep.awake → h.beginStep.staysWaiting = false → b.chosenInterrupt = none →
    a ∈ byteAddrs b.pc 4 → b.regionAt a = .vacant ∨ b.regionAt a = .io →
    b.Raises (step ⟨x, h⟩) 1 b.pc

/-- R84: a fetched byte is one of the values the byte may show, and each of them for some free choice; in a machine that
meets the invariant the newest is among them. The free choice in place of a refusal is the model's:
notes/assumptions/6.md. -/
def Obligations.FetchedByteIsOneOfTheValuesHeld : Prop :=
  ∀ (x : Xlen) (h : Hart x) (k a : Nat),
    (h.fetchable a ≠ [] → h.fetchByte k a ∈ h.fetchable a ∧
      ∀ y ∈ h.fetchable a, ∃ picks, ({ h with now.draws.fetchPick := picks } : Hart x).fetchByte k a = y) ∧
    (h.Inv → Memory.read h.mem a ∈ h.fetchable a)

/-- R332, with R331: of the interrupts that can be taken, the one before all others is taken, before any instruction is
fetched, with trap value 0 and the address of the instruction not yet executed. The hart that traps is the one that has
taken the input of the step (notes/assumptions/7.md, notes/assumptions/9.md). -/
def Obligations.HighestInterruptIsTakenBeforeTheFetch : Prop :=
  ∀ (x : Xlen) (h b : Hart x) (i : Interrupt),
    b = h.beginStep.awake → h.beginStep.staysWaiting = false → b.mipSoft &&& ~~~mipMask b.cfg = 0 →
    b.Takeable i → (∀ j, b.Takeable j → j ≠ i → b.takenBefore i j) →
    ∃ t : Hart x, step ⟨x, h⟩ = .next ⟨x, t⟩ ∧ b.Traps t true (Interrupt.code i) 0 b.pc

/-- R331: an interrupt is chosen exactly when one can be taken. -/
def Obligations.InterruptIsChosenExactlyWhenOneCanBeTaken : Prop :=
  ∀ (x : Xlen) (h : Hart x), h.mipSoft &&& ~~~mipMask h.cfg = 0 →
    (h.chosenInterrupt = none ↔ ∀ i, ¬ h.Takeable i) ∧ ∀ i, h.chosenInterrupt = some i → h.Takeable i

/-- R205, R333: a waiting hart stays stalled exactly when no enabled interrupt is pending and it does not wake
spuriously. Such a step fetches nothing: the next state is the one that has taken the input of the step, in which every
register, and every byte that no other agent may write, is as before. That the input is taken from a list, other agents'
writes among it, is the model's: notes/assumptions/7.md, notes/assumptions/9.md. -/
def Obligations.WaitingHartStaysUntilAWakeUp : Prop :=
  ∀ (x : Xlen) (h b : Hart x), b = h.beginStep → h.waiting = true → b.mipSoft &&& ~~~mipMask b.cfg = 0 →
    (b.staysWaiting = true ↔ (¬ ∃ i, b.isPending i ∧ b.mie.getLsbD (Interrupt.code i) = true) ∧ b.now.draws.wake = false) ∧
    (b.staysWaiting = true → step ⟨x, h⟩ = .next ⟨x, b⟩) ∧
    h.SameSystem b ∧ h.SameRegs b ∧ b.pc = h.pc ∧ b.ioLog = h.ioLog ∧
    ∀ a, h.sharedAt a = false → Memory.read b.mem a = Memory.read h.mem a ∧ b.fetchable a = h.fetchable a ∧
      b.heldSince a = h.heldSince a

/-! ### The whole machine -/

/-- Every step keeps the invariant of the machine: `pc` a multiple of 4, legal modes, read-only-zero bits zero, and
memory and the history of written bytes in canonical form and inside `Main`. That U-mode exists where S-mode does, a part of the
invariant, is notes/assumptions/13.md. -/
def Obligations.EveryStepKeepsTheInvariant : Prop :=
  ∀ s t : State, s.Inv → step s = .next t → t.Inv

/-- The machine right after reset meets the invariant. Its parameters are the model's: notes/assumptions/2.md. -/
def Obligations.ResetMeetsTheInvariant : Prop := State.reset.Inv

/-- R400, R403: so does every launch with admissible parameters (notes/assumptions/13.md) and an image in canonical form
inside `Main`; the registers without a reset value have those of notes/assumptions/3.md and notes/assumptions/4.md. -/
def Obligations.LaunchMeetsTheInvariant : Prop :=
  ∀ (x : Xlen) (cfg : Config x) (image : Memory) (env : List StepInput), ConfigOk cfg → Memory.wf image →
    (∀ c ∈ image, c.1 < 2 ^ x.bits ∧ (State.launch x cfg image env).hart.regionAt c.1 = .main) →
    (State.launch x cfg image env).Inv

/-- R26, R341: an instruction changes the privilege mode only by taking a trap, by MRET from M-mode, to the mode in MPP,
or by SRET from S-mode or M-mode, to the mode in SPP. -/
def Obligations.PrivilegeChangesOnlyByTrapOrTrapReturn : Prop :=
  ∀ (x : Xlen) (h : Hart x) (i : Instr) (s : State), exec i ⟨x, h⟩ = .next s →
    ∃ t : Hart x, s = ⟨x, t⟩ ∧
      (t.priv = h.priv ∨
        (∃ code tval, h.Traps t false code tval h.pc) ∨
        (i = .mret ∧ h.priv = .m ∧ t.priv = h.mstatus.mpp) ∨
        (i = .sret ∧ h.priv ≠ .u ∧ t.priv = if h.mstatus.spp = true then .s else .u))

/-- R340: in U-mode no instruction changes a control and status register, the mode or the waiting bit, other than by
taking a trap; WFI, where S-mode does not exist and TW is clear, sets the waiting bit and changes nothing else but `pc`
(R205). -/
def Obligations.UserModeChangesNoSystemStateButByTrap : Prop :=
  ∀ (x : Xlen) (h : Hart x) (i : Instr) (s : State), h.priv = .u → exec i ⟨x, h⟩ = .next s →
    ∃ t : Hart x, s = ⟨x, t⟩ ∧
      (h.SameSystem t ∨ (∃ code tval, h.Traps t false code tval h.pc) ∨
        (i = .wfi ∧ h.cfg.hasS = false ∧ h.mstatus.tw = false ∧ t = { h with pc := h.pc + 4, waiting := true }))

/-- R340, R341: in S-mode no instruction changes the machine's own registers and fields, other than by taking a trap:
it reaches `mie` only in the delegated supervisor bits, `mip` only in SSIP, and of `mstatus` only the supervisor's
fields. -/
def Obligations.SupervisorModeLeavesMachineStateButByTrap : Prop :=
  ∀ (x : Xlen) (h : Hart x) (i : Instr) (s : State), h.priv = .s → exec i ⟨x, h⟩ = .next s →
    ∃ t : Hart x, s = ⟨x, t⟩ ∧
      ((∃ code tval, h.Traps t false code tval h.pc) ∨
        (t.cfg = h.cfg ∧ t.medeleg = h.medeleg ∧ t.mideleg = h.mideleg ∧ t.mtvec = h.mtvec ∧ t.mscratch = h.mscratch ∧
          t.mepc = h.mepc ∧ t.mcause = h.mcause ∧ t.mtval = h.mtval ∧
          (∀ k, ¬ (k ∈ [1, 5, 9] ∧ h.mideleg.getLsbD k = true) → t.mie.getLsbD k = h.mie.getLsbD k) ∧
          (∀ k, k ≠ 1 → t.mipSoft.getLsbD k = h.mipSoft.getLsbD k) ∧
          t.mstatus.mie = h.mstatus.mie ∧ t.mstatus.mpie = h.mstatus.mpie ∧ t.mstatus.mpp = h.mstatus.mpp ∧
          t.mstatus.mprv = h.mstatus.mprv ∧ t.mstatus.tvm = h.mstatus.tvm ∧ t.mstatus.tw = h.mstatus.tw ∧
          t.mstatus.tsr = h.mstatus.tsr))

/-- No instruction and no step is refused, and the only stop of an instruction is that of a load from an aligned `Main`
location with a byte that has no value (R29; that such a read stops the model is notes/assumptions/5.md). -/
def Obligations.OnlyALoadOfAnUnwrittenByteStopsAnInstruction : Prop :=
  (∀ (i : Instr) (s : State) (r : Refusal), exec i s ≠ .refused r) ∧
  (∀ (s : State) (r : Refusal), step s ≠ .refused r) ∧
  (∀ (x : Xlen) (h : Hart x) (i : Instr) (f : Fault), exec i ⟨x, h⟩ = .fault f →
    f = .loadOfUnwrittenByte ∧ h.LoadsUnwritten i)

/-- R24: after an instruction that does not write `pc` itself and raises no exception, `pc` has moved on by 4. -/
def Obligations.OtherInstructionsContinueAtTheNextWord : Prop :=
  ∀ (x : Xlen) (h : Hart x) (i : Instr) (s : State), mayJump i = false → exec i ⟨x, h⟩ = .next s →
    ∃ t : Hart x, s = ⟨x, t⟩ ∧
      (t.pc.toNat = (h.pc.toNat + 4) % 2 ^ x.bits ∨ ∃ code tval, h.Traps t false code tval h.pc)

/-- R86, R405: other agents' writes reach shared `Main` ranges only, and no register, mode or parameter; that a write
elsewhere is dropped is notes/assumptions/9.md. R50 (c), R84: a value written to a shared byte is one the byte has held
since the last FENCE.I from then on, whether or not the hart has stored to the byte. -/
def Obligations.OtherAgentsWriteOnlySharedMemory : Prop :=
  ∀ (x : Xlen) (h : Hart x) (cells : List Host.Cell),
    (∀ a, h.sharedAt a = false →
      Memory.read (h.agentWrites cells).mem a = Memory.read h.mem a ∧
        (h.agentWrites cells).fetchable a = h.fetchable a ∧ (h.agentWrites cells).heldSince a = h.heldSince a) ∧
      h.SameSystem (h.agentWrites cells) ∧ h.SameRegs (h.agentWrites cells) ∧ (h.agentWrites cells).pc = h.pc ∧
      (h.agentWrites cells).ioLog = h.ioLog ∧ h.SameEnvironment (h.agentWrites cells) ∧
      ∀ (a : Nat) (v : Byte), h.sharedAt a = true → a < 2 ^ x.bits →
        Memory.read (h.agentWrites [(a, v)]).mem a = some v ∧
          (∀ y, y ∈ (h.agentWrites [(a, v)]).heldSince a ↔ y ∈ h.heldSince a ∨ y = some v) ∧
          (h.agentWrites [(a, v)]).storedSince a = h.storedSince a

/-! ### Integer registers (10_state.md) -/

/-- R7: `x[0]` reads as 0 and a write to it is discarded; a write to any other register is what it then reads as, and
leaves every other register. -/
def Obligations.RegisterZeroReadsZeroAndDiscardsWrites : Prop :=
  ∀ (x : Xlen) (h : Hart x) (v : XWord x),
    h.readX 0 = 0 ∧ h.writeX 0 v = h ∧
      ∀ i : Reg, i ≠ 0 → (h.writeX i v).readX i = v ∧ ∀ j, j ≠ i → (h.writeX i v).readX j = h.readX j

/-! ### Computational instructions (40_integer_immediate.md, 41_integer_register.md, 47_rv64i_only.md) -/

/-- R131, R132: LUI puts the 20-bit immediate times 4096, sign-extended, into `rd`; AUIPC adds it to its own `pc`. -/
def Obligations.UpperImmediateResults : Prop :=
  ∀ (x : Xlen) (h : Hart x) (rd : Reg) (imm : BitVec 20),
    (h.Completes (.lui rd imm) fun t => h.Computes t rd fun v => v.toInt = imm.toInt * 4096) ∧
    (h.Completes (.auipc rd imm) fun t => h.Computes t rd fun v =>
      (v.toNat : Int) = (h.pc.toNat + imm.toInt * 4096) % 2 ^ x.bits)

/-- R133, R151, R152: ADDI, ADD and SUB keep the low XLEN bits of the sum or difference. -/
def Obligations.AdditionAndSubtractionResults : Prop :=
  ∀ (x : Xlen) (h : Hart x) (rd rs1 rs2 : Reg) (imm : BitVec 12),
    (h.Completes (.addi rd rs1 imm) fun t => h.Computes t rd fun v =>
      (v.toNat : Int) = ((h.readX rs1).toNat + imm.toInt) % 2 ^ x.bits) ∧
    (h.Completes (.add rd rs1 rs2) fun t => h.Computes t rd fun v =>
      v.toNat = ((h.readX rs1).toNat + (h.readX rs2).toNat) % 2 ^ x.bits) ∧
    (h.Completes (.sub rd rs1 rs2) fun t => h.Computes t rd fun v =>
      (v.toNat : Int) = ((h.readX rs1).toNat - (h.readX rs2).toNat) % 2 ^ x.bits)

/-- R134, R135, R154, R155: the comparisons write 1 or 0; SLTIU compares with the sign-extended immediate read as an
unsigned number. -/
def Obligations.ComparisonResults : Prop :=
  ∀ (x : Xlen) (h : Hart x) (rd rs1 rs2 : Reg) (imm : BitVec 12),
    (h.Completes (.slti rd rs1 imm) fun t => h.Computes t rd fun v =>
      v.toNat = if (h.readX rs1).toInt < imm.toInt then 1 else 0) ∧
    (h.Completes (.sltiu rd rs1 imm) fun t => h.Computes t rd fun v =>
      v.toNat = if ((h.readX rs1).toNat : Int) < imm.toInt % 2 ^ x.bits then 1 else 0) ∧
    (h.Completes (.slt rd rs1 rs2) fun t => h.Computes t rd fun v =>
      v.toNat = if (h.readX rs1).toInt < (h.readX rs2).toInt then 1 else 0) ∧
    (h.Completes (.sltu rd rs1 rs2) fun t => h.Computes t rd fun v =>
      v.toNat = if (h.readX rs1).toNat < (h.readX rs2).toNat then 1 else 0)

/-- R136 to R138, R156, R159, R160: the bitwise operations, bit by bit; bit 11 of an immediate stands for all above it. -/
def Obligations.BitwiseResults : Prop :=
  ∀ (x : Xlen) (h : Hart x) (rd rs1 rs2 : Reg) (imm : BitVec 12),
    (h.Completes (.xori rd rs1 imm) fun t => h.Computes t rd fun v => ∀ k, k < x.bits →
      v.getLsbD k = ((h.readX rs1).getLsbD k ^^ imm.getLsbD (min k 11))) ∧
    (h.Completes (.ori rd rs1 imm) fun t => h.Computes t rd fun v => ∀ k, k < x.bits →
      v.getLsbD k = ((h.readX rs1).getLsbD k || imm.getLsbD (min k 11))) ∧
    (h.Completes (.andi rd rs1 imm) fun t => h.Computes t rd fun v => ∀ k, k < x.bits →
      v.getLsbD k = ((h.readX rs1).getLsbD k && imm.getLsbD (min k 11))) ∧
    (h.Completes (.xor rd rs1 rs2) fun t => h.Computes t rd fun v => ∀ k, k < x.bits →
      v.getLsbD k = ((h.readX rs1).getLsbD k ^^ (h.readX rs2).getLsbD k)) ∧
    (h.Completes (.or rd rs1 rs2) fun t => h.Computes t rd fun v => ∀ k, k < x.bits →
      v.getLsbD k = ((h.readX rs1).getLsbD k || (h.readX rs2).getLsbD k)) ∧
    (h.Completes (.and rd rs1 rs2) fun t => h.Computes t rd fun v => ∀ k, k < x.bits →
      v.getLsbD k = ((h.readX rs1).getLsbD k && (h.readX rs2).getLsbD k))

/-- R140 to R142: the shifts by a constant below XLEN. -/
def Obligations.ShiftByConstantResults : Prop :=
  ∀ (x : Xlen) (h : Hart x) (rd rs1 : Reg) (shamt : BitVec 6), shamt.toNat < x.bits →
    (h.Completes (.slli rd rs1 shamt) fun t => h.Computes t rd fun v =>
      v.toNat = (h.readX rs1).toNat * 2 ^ shamt.toNat % 2 ^ x.bits) ∧
    (h.Completes (.srli rd rs1 shamt) fun t => h.Computes t rd fun v =>
      v.toNat = (h.readX rs1).toNat / 2 ^ shamt.toNat) ∧
    (h.Completes (.srai rd rs1 shamt) fun t => h.Computes t rd fun v =>
      v.toInt = (h.readX rs1).toInt / 2 ^ shamt.toNat)

/-- R153, R157, R158 with R150: the shifts by a register use the low log2(XLEN) bits of it. -/
def Obligations.ShiftByRegisterResults : Prop :=
  ∀ (x : Xlen) (h : Hart x) (rd rs1 rs2 : Reg) (n : Nat), n = (h.readX rs2).toNat % x.bits →
    (h.Completes (.sll rd rs1 rs2) fun t => h.Computes t rd fun v =>
      v.toNat = (h.readX rs1).toNat * 2 ^ n % 2 ^ x.bits) ∧
    (h.Completes (.srl rd rs1 rs2) fun t => h.Computes t rd fun v => v.toNat = (h.readX rs1).toNat / 2 ^ n) ∧
    (h.Completes (.sra rd rs1 rs2) fun t => h.Computes t rd fun v => v.toInt = (h.readX rs1).toInt / 2 ^ n)

/-- R139: on a 32-bit hart a shift-immediate with a shift amount of 32 or more is an illegal instruction. That `exec`
itself raises it is notes/assumptions/18.md. -/
def Obligations.ReservedShiftsTrap : Prop :=
  ∀ (h : Hart .rv32) (rd rs1 : Reg) (shamt : BitVec 6), 32 ≤ shamt.toNat →
    h.RaisesIllegal (exec (.slli rd rs1 shamt) ⟨.rv32, h⟩) (encode (.slli rd rs1 shamt)) ∧
    h.RaisesIllegal (exec (.srli rd rs1 shamt) ⟨.rv32, h⟩) (encode (.srli rd rs1 shamt)) ∧
    h.RaisesIllegal (exec (.srai rd rs1 shamt) ⟨.rv32, h⟩) (encode (.srai rd rs1 shamt))

/-- R264, R269, R270: the word additions and the word subtraction sign-extend the low 32 bits of the result. -/
def Obligations.WordAdditionResults : Prop :=
  ∀ (h : Hart .rv64) (rd rs1 rs2 : Reg) (imm : BitVec 12),
    (h.Completes (.addiw rd rs1 imm) fun t => h.Computes t rd fun v =>
      v.toInt = ((h.readX rs1).toNat + imm.toInt : Int).bmod (2 ^ 32)) ∧
    (h.Completes (.addw rd rs1 rs2) fun t => h.Computes t rd fun v =>
      v.toInt = ((h.readX rs1).toNat + (h.readX rs2).toNat : Int).bmod (2 ^ 32)) ∧
    (h.Completes (.subw rd rs1 rs2) fun t => h.Computes t rd fun v =>
      v.toInt = ((h.readX rs1).toNat - (h.readX rs2).toNat : Int).bmod (2 ^ 32))

/-- R266 to R268, R271 to R273: the word shifts, by a constant and by the low 5 bits of a register. -/
def Obligations.WordShiftResults : Prop :=
  ∀ (h : Hart .rv64) (rd rs1 rs2 : Reg) (shamt : BitVec 5) (n : Nat), n = (h.readX rs2).toNat % 32 →
    (h.Completes (.slliw rd rs1 shamt) fun t => h.Computes t rd fun v =>
      v.toInt = ((h.readX rs1).toNat * 2 ^ shamt.toNat : Int).bmod (2 ^ 32)) ∧
    (h.Completes (.srliw rd rs1 shamt) fun t => h.Computes t rd fun v =>
      v.toInt = ((h.readX rs1).toNat % 2 ^ 32 / 2 ^ shamt.toNat : Int).bmod (2 ^ 32)) ∧
    (h.Completes (.sraiw rd rs1 shamt) fun t => h.Computes t rd fun v =>
      v.toInt = ((h.readX rs1).toNat : Int).bmod (2 ^ 32) / 2 ^ shamt.toNat) ∧
    (h.Completes (.sllw rd rs1 rs2) fun t => h.Computes t rd fun v =>
      v.toInt = ((h.readX rs1).toNat * 2 ^ n : Int).bmod (2 ^ 32)) ∧
    (h.Completes (.srlw rd rs1 rs2) fun t => h.Computes t rd fun v =>
      v.toInt = ((h.readX rs1).toNat % 2 ^ 32 / 2 ^ n : Int).bmod (2 ^ 32)) ∧
    (h.Completes (.sraw rd rs1 rs2) fun t => h.Computes t rd fun v =>
      v.toInt = ((h.readX rs1).toNat : Int).bmod (2 ^ 32) / 2 ^ n)

/-- R113: on a 32-bit hart each of the twelve instructions of 47_rv64i_only.md is an illegal instruction. That `exec`
itself raises it is notes/assumptions/18.md. -/
def Obligations.Rv64OnlyInstructionsTrapOnRv32 : Prop :=
  ∀ (h : Hart .rv32) (i : Instr), WellFormed .rv64 i = true → rowOf .rv32 i ∈ rv64Rows →
    h.RaisesIllegal (exec i ⟨.rv32, h⟩) (encode i)

/-- R116: a computational instruction with `rd = x0`, and a FENCE with `pred = 0` or `succ = 0`, changes nothing but
`pc`. -/
def Obligations.HintsChangeNothingButPc : Prop :=
  ∀ (x : Xlen) (h : Hart x) (i : Instr), WellFormed x i = true →
    computesInto i = some 0 ∨ (∃ fm pred succ rs1 rd, i = .fence fm pred succ rs1 rd ∧ (pred = 0 ∨ succ = 0)) →
    exec i ⟨x, h⟩ = .next ⟨x, { h with pc := h.pc + 4 }⟩

/-! ### Fences (42_fence.md) -/

/-- R170, R171: FENCE changes nothing but `pc` (notes/assumptions/10.md); FENCE.I also makes every fetch see the memory
as it is and forgets what a byte has held before. -/
def Obligations.FencesComplete : Prop :=
  ∀ (x : Xlen) (h : Hart x) (fm pred succ : BitVec 4) (imm : BitVec 12) (rs1 rd : Reg),
    h.Completes (.fence fm pred succ rs1 rd) h.Advances ∧
    (h.Completes (.fenceI imm rs1 rd) fun t =>
      (∀ a, t.fetchable a = [Memory.read h.mem a] ∧ t.heldSince a = [Memory.read h.mem a]) ∧ t.mem = h.mem ∧ t.ioLog = h.ioLog ∧
        t.pc.toNat = (h.pc.toNat + 4) % 2 ^ x.bits ∧ h.SameRegs t ∧ h.SameSystem t ∧ h.SameEnvironment t)

/-! ### Loads and stores (20_memory.md, 45_load_store.md) -/

/-- R70: the effective address is the sum of `x[rs1]` and the sign-extended offset, modulo 2^XLEN. -/
def Obligations.EffectiveAddressIsTheWrappedSum : Prop :=
  ∀ (x : Xlen) (h : Hart x) (rs1 : Reg) (offset : BitVec 12),
    ((h.effAddr rs1 offset).toNat : Int) = ((h.readX rs1).toNat + offset.toInt) % 2 ^ x.bits

/-- R222 to R226, R261, R262, R72: a load from aligned `Main` bytes that have a value puts it, sign- or zero-extended, into `rd`. -/
def Obligations.LoadsFromMainSetTheRegister : Prop :=
  ∀ (x : Xlen) (h : Hart x) (rd rs1 : Reg) (offset : BitVec 12) (a v : Nat),
    a = (h.effAddr rs1 offset).toNat → h.regionAt a = .main →
    (h.BytesAt a 1 v →
      (h.Completes (.lb rd rs1 offset) fun t => h.Computes t rd fun r => r.toInt = (v : Int).bmod (2 ^ 8)) ∧
      (h.Completes (.lbu rd rs1 offset) fun t => h.Computes t rd fun r => r.toNat = v)) ∧
    (a % 2 = 0 → h.BytesAt a 2 v →
      (h.Completes (.lh rd rs1 offset) fun t => h.Computes t rd fun r => r.toInt = (v : Int).bmod (2 ^ 16)) ∧
      (h.Completes (.lhu rd rs1 offset) fun t => h.Computes t rd fun r => r.toNat = v)) ∧
    (a % 4 = 0 → h.BytesAt a 4 v →
      (h.Completes (.lw rd rs1 offset) fun t => h.Computes t rd fun r => r.toInt = (v : Int).bmod (2 ^ 32)) ∧
      (x = .rv64 → h.Completes (.lwu rd rs1 offset) fun t => h.Computes t rd fun r => r.toNat = v)) ∧
    (a % 8 = 0 → h.BytesAt a 8 v →
      x = .rv64 → h.Completes (.ld rd rs1 offset) fun t => h.Computes t rd fun r => r.toNat = v)

/-- R227 to R229, R263, R73: a store to aligned `Main` bytes writes the low bytes of `x[rs2]`, least significant first,
and no other byte; a later fetch may see the new value and any the byte has held since the last FENCE.I (R84), whether
the hart or another agent wrote it. -/
def Obligations.StoresToMainWriteTheirBytesOnly : Prop :=
  ∀ (x : Xlen) (h : Hart x) (rs2 rs1 : Reg) (offset : BitVec 12) (a v : Nat),
    a = (h.effAddr rs1 offset).toNat → v = (h.readX rs2).toNat → h.regionAt a = .main →
    (h.Completes (.sb rs2 rs1 offset) fun t => h.Stores t a 1 v) ∧
    (a % 2 = 0 → h.Completes (.sh rs2 rs1 offset) fun t => h.Stores t a 2 v) ∧
    (a % 4 = 0 → h.Completes (.sw rs2 rs1 offset) fun t => h.Stores t a 4 v) ∧
    (x = .rv64 → a % 8 = 0 → h.Completes (.sd rs2 rs1 offset) fun t => h.Stores t a 8 v)

/-- R77: an aligned access to an `IO` region happens once, in program order, and changes no memory; the value a load
gets is the device's. That the device's answer is the draw of the step is notes/assumptions/8.md, the record
notes/assumptions/20.md. -/
def Obligations.IoAccessesReachTheDevice : Prop :=
  ∀ (x : Xlen) (h : Hart x) (r rs1 : Reg) (offset : BitVec 12) (a d v : Nat),
    a = (h.effAddr rs1 offset).toNat → h.regionAt a = .io → d = h.now.draws.ioAnswer.toNat → v = (h.readX r).toNat →
    (h.Completes (.lb r rs1 offset) fun t =>
      h.AccessesIo t (.read a 1 (BitVec.ofNat 64 (d % 2 ^ 8))) r fun w => w.toInt = (d : Int).bmod (2 ^ 8)) ∧
    (h.Completes (.lbu r rs1 offset) fun t =>
      h.AccessesIo t (.read a 1 (BitVec.ofNat 64 (d % 2 ^ 8))) r fun w => w.toNat = d % 2 ^ 8) ∧
    (h.Completes (.sb r rs1 offset) fun t =>
      h.AccessesIo t (.write a 1 (BitVec.ofNat 64 (v % 2 ^ 8))) 0 fun _ => True) ∧
    (a % 2 = 0 →
      (h.Completes (.lh r rs1 offset) fun t =>
        h.AccessesIo t (.read a 2 (BitVec.ofNat 64 (d % 2 ^ 16))) r fun w => w.toInt = (d : Int).bmod (2 ^ 16)) ∧
      (h.Completes (.lhu r rs1 offset) fun t =>
        h.AccessesIo t (.read a 2 (BitVec.ofNat 64 (d % 2 ^ 16))) r fun w => w.toNat = d % 2 ^ 16) ∧
      (h.Completes (.sh r rs1 offset) fun t =>
        h.AccessesIo t (.write a 2 (BitVec.ofNat 64 (v % 2 ^ 16))) 0 fun _ => True)) ∧
    (a % 4 = 0 →
      (h.Completes (.lw r rs1 offset) fun t =>
        h.AccessesIo t (.read a 4 (BitVec.ofNat 64 (d % 2 ^ 32))) r fun w => w.toInt = (d : Int).bmod (2 ^ 32)) ∧
      (h.Completes (.sw r rs1 offset) fun t =>
        h.AccessesIo t (.write a 4 (BitVec.ofNat 64 (v % 2 ^ 32))) 0 fun _ => True) ∧
      (x = .rv64 → h.Completes (.lwu r rs1 offset) fun t =>
        h.AccessesIo t (.read a 4 (BitVec.ofNat 64 (d % 2 ^ 32))) r fun w => w.toNat = d % 2 ^ 32)) ∧
    (x = .rv64 → a % 8 = 0 →
      (h.Completes (.ld r rs1 offset) fun t =>
        h.AccessesIo t (.read a 8 (BitVec.ofNat 64 d)) r fun w => w.toNat = d) ∧
      (h.Completes (.sd r rs1 offset) fun t =>
        h.AccessesIo t (.write a 8 (BitVec.ofNat 64 v)) 0 fun _ => True))

/-- R75, R78: a misaligned load raises `LoadAddressMisaligned` and a misaligned store `StoreAddressMisaligned`, with the
effective address as trap value, whatever the region: also where the access touches a `Vacant` address. -/
def Obligations.MisalignedAccessesTrap : Prop :=
  ∀ (x : Xlen) (h : Hart x) (r rs1 : Reg) (offset : BitVec 12) (a : XWord x), a = h.effAddr rs1 offset →
    (a.toNat % 2 ≠ 0 →
      h.Raises (exec (.lh r rs1 offset) ⟨x, h⟩) 4 a ∧ h.Raises (exec (.lhu r rs1 offset) ⟨x, h⟩) 4 a ∧
      h.Raises (exec (.sh r rs1 offset) ⟨x, h⟩) 6 a) ∧
    (a.toNat % 4 ≠ 0 →
      h.Raises (exec (.lw r rs1 offset) ⟨x, h⟩) 4 a ∧ h.Raises (exec (.sw r rs1 offset) ⟨x, h⟩) 6 a ∧
      (x = .rv64 → h.Raises (exec (.lwu r rs1 offset) ⟨x, h⟩) 4 a)) ∧
    (x = .rv64 → a.toNat % 8 ≠ 0 →
      h.Raises (exec (.ld r rs1 offset) ⟨x, h⟩) 4 a ∧ h.Raises (exec (.sd r rs1 offset) ⟨x, h⟩) 6 a)

/-- R76: an aligned access to a `Vacant` address raises the access fault of its kind, with the effective address as
trap value. -/
def Obligations.VacantAccessesTrap : Prop :=
  ∀ (x : Xlen) (h : Hart x) (r rs1 : Reg) (offset : BitVec 12) (a : XWord x),
    a = h.effAddr rs1 offset → h.regionAt a.toNat = .vacant →
    h.Raises (exec (.lb r rs1 offset) ⟨x, h⟩) 5 a ∧ h.Raises (exec (.lbu r rs1 offset) ⟨x, h⟩) 5 a ∧
    h.Raises (exec (.sb r rs1 offset) ⟨x, h⟩) 7 a ∧
    (a.toNat % 2 = 0 →
      h.Raises (exec (.lh r rs1 offset) ⟨x, h⟩) 5 a ∧ h.Raises (exec (.lhu r rs1 offset) ⟨x, h⟩) 5 a ∧
      h.Raises (exec (.sh r rs1 offset) ⟨x, h⟩) 7 a) ∧
    (a.toNat % 4 = 0 →
      h.Raises (exec (.lw r rs1 offset) ⟨x, h⟩) 5 a ∧ h.Raises (exec (.sw r rs1 offset) ⟨x, h⟩) 7 a ∧
      (x = .rv64 → h.Raises (exec (.lwu r rs1 offset) ⟨x, h⟩) 5 a)) ∧
    (x = .rv64 → a.toNat % 8 = 0 →
      h.Raises (exec (.ld r rs1 offset) ⟨x, h⟩) 5 a ∧ h.Raises (exec (.sd r rs1 offset) ⟨x, h⟩) 7 a)

/-- R29, R400: a load of an aligned `Main` word with a byte that nothing has given a value stops the model by name
(notes/assumptions/5.md). -/
def Obligations.LoadOfAnUnwrittenByteStops : Prop :=
  ∀ (x : Xlen) (h : Hart x) (rd rs1 : Reg) (offset : BitVec 12) (a k : Nat),
    a = (h.effAddr rs1 offset).toNat → h.regionAt a = .main → Memory.read h.mem (a + k) = none →
    (k < 1 → exec (.lb rd rs1 offset) ⟨x, h⟩ = .fault .loadOfUnwrittenByte ∧
      exec (.lbu rd rs1 offset) ⟨x, h⟩ = .fault .loadOfUnwrittenByte) ∧
    (k < 2 → a % 2 = 0 → exec (.lh rd rs1 offset) ⟨x, h⟩ = .fault .loadOfUnwrittenByte ∧
      exec (.lhu rd rs1 offset) ⟨x, h⟩ = .fault .loadOfUnwrittenByte) ∧
    (k < 4 → a % 4 = 0 → exec (.lw rd rs1 offset) ⟨x, h⟩ = .fault .loadOfUnwrittenByte) ∧
    (k < 4 → a % 4 = 0 → x = .rv64 → exec (.lwu rd rs1 offset) ⟨x, h⟩ = .fault .loadOfUnwrittenByte) ∧
    (k < 8 → a % 8 = 0 → x = .rv64 → exec (.ld rd rs1 offset) ⟨x, h⟩ = .fault .loadOfUnwrittenByte)

/-- R80, R85: a read of `m` bytes at distance `j` inside the `n` bytes just written returns the corresponding bytes. -/
def Obligations.NarrowReadSeesTheBytesOfAWiderWrite : Prop :=
  ∀ (x : Xlen) (h t : Hart x) (a : XWord x) (n m j : Nat) (v : BitVec (8 * n)),
    n ∈ [1, 2, 4, 8] → m ∈ [1, 2, 4, 8] → j + m ≤ n → j % m = 0 → h.regionAt a.toNat = .main →
    h.memWrite a n v = .done t →
    t.memRead (a + BitVec.ofNat x.bits j) m = .done (v.extractLsb' (8 * j) (8 * m), t)

/-! ### Control transfer (46_control_transfer.md) -/

/-- R240, R241: JAL and JALR with a target that is a multiple of 4 go to it and leave `pc + 4` in `rd`. -/
def Obligations.JumpsLinkAndTransfer : Prop :=
  ∀ (x : Xlen) (h : Hart x) (rd rs1 : Reg) (offset : BitVec 21) (imm : BitVec 12) (target : Nat), target % 4 = 0 →
    ((target : Int) = (h.pc.toNat + offset.toInt) % 2 ^ x.bits →
      h.Completes (.jal rd offset) fun t =>
        h.Transfers t target rd fun v => v.toNat = (h.pc.toNat + 4) % 2 ^ x.bits) ∧
    ((target : Int) = ((h.readX rs1).toNat + imm.toInt) % 2 ^ x.bits / 2 * 2 →
      h.Completes (.jalr rd rs1 imm) fun t =>
        h.Transfers t target rd fun v => v.toNat = (h.pc.toNat + 4) % 2 ^ x.bits)

/-- R242 to R249: each conditional branch branches on its comparison; a taken one to a target that is not a multiple of 4
raises the exception (notes/assumptions/15.md). -/
def Obligations.BranchesFollowTheirConditions : Prop :=
  ∀ (x : Xlen) (h : Hart x) (rs1 rs2 : Reg),
    h.BranchesOn (.beq rs1 rs2) (h.readX rs1 = h.readX rs2) ∧
    h.BranchesOn (.bne rs1 rs2) (h.readX rs1 ≠ h.readX rs2) ∧
    h.BranchesOn (.blt rs1 rs2) ((h.readX rs1).toInt < (h.readX rs2).toInt) ∧
    h.BranchesOn (.bge rs1 rs2) ((h.readX rs2).toInt ≤ (h.readX rs1).toInt) ∧
    h.BranchesOn (.bltu rs1 rs2) ((h.readX rs1).toNat < (h.readX rs2).toNat) ∧
    h.BranchesOn (.bgeu rs1 rs2) ((h.readX rs2).toNat ≤ (h.readX rs1).toNat)

/-- R248 (and R240, R241): a jump whose target has bit 1 set raises `InstructionAddressMisaligned` with the target as
trap value, and changes nothing else: no register either. -/
def Obligations.JumpsToMisalignedTargetsTrap : Prop :=
  ∀ (x : Xlen) (h : Hart x) (rd rs1 : Reg) (offset : BitVec 21) (imm : BitVec 12) (target : XWord x),
    target.getLsbD 1 = true →
    ((target.toNat : Int) = (h.pc.toNat + offset.toInt) % 2 ^ x.bits →
      h.Raises (exec (.jal rd offset) ⟨x, h⟩) 0 target) ∧
    ((target.toNat : Int) = ((h.readX rs1).toNat + imm.toInt) % 2 ^ x.bits / 2 * 2 →
      h.Raises (exec (.jalr rd rs1 imm) ⟨x, h⟩) 0 target)

/-! ### Control and status registers (10_state.md R30 to R51, 43_csr.md) -/

/-- R184 to R189, R181, R31: an access the checks permit reads the register that stands at the address into `rd` and
writes the new value, where the instruction writes. -/
def Obligations.CsrInstructionsReadAndWrite : Prop :=
  ∀ (x : Xlen) (h : Hart x) (rd rs1 : Reg) (csr : CsrAddr) (uimm : BitVec 5),
    h.CsrRule (.csrrw rd csr rs1) csr rd True (fun _ => h.readX rs1) ∧
    h.CsrRule (.csrrs rd csr rs1) csr rd (rs1 ≠ 0) (fun old => old ||| h.readX rs1) ∧
    h.CsrRule (.csrrc rd csr rs1) csr rd (rs1 ≠ 0) (fun old => old &&& ~~~h.readX rs1) ∧
    h.CsrRule (.csrrwi rd csr uimm) csr rd True (fun _ => BitVec.ofNat x.bits uimm.toNat) ∧
    h.CsrRule (.csrrsi rd csr uimm) csr rd (uimm ≠ 0) (fun old => old ||| BitVec.ofNat x.bits uimm.toNat) ∧
    h.CsrRule (.csrrci rd csr uimm) csr rd (uimm ≠ 0) (fun old => old &&& ~~~BitVec.ofNat x.bits uimm.toNat)

/-- R180: an access that fails one of the four checks raises `IllegalInstruction` and changes nothing. -/
def Obligations.ForbiddenCsrAccessesTrap : Prop :=
  ∀ (x : Xlen) (h : Hart x) (rd rs1 : Reg) (csr : CsrAddr) (uimm : BitVec 5),
    (¬ h.CsrPermits csr True →
      h.RaisesIllegal (exec (.csrrw rd csr rs1) ⟨x, h⟩) (encode (.csrrw rd csr rs1)) ∧
      h.RaisesIllegal (exec (.csrrwi rd csr uimm) ⟨x, h⟩) (encode (.csrrwi rd csr uimm))) ∧
    (¬ h.CsrPermits csr (rs1 ≠ 0) →
      h.RaisesIllegal (exec (.csrrs rd csr rs1) ⟨x, h⟩) (encode (.csrrs rd csr rs1)) ∧
      h.RaisesIllegal (exec (.csrrc rd csr rs1) ⟨x, h⟩) (encode (.csrrc rd csr rs1))) ∧
    (¬ h.CsrPermits csr (uimm ≠ 0) →
      h.RaisesIllegal (exec (.csrrsi rd csr uimm) ⟨x, h⟩) (encode (.csrrsi rd csr uimm)) ∧
      h.RaisesIllegal (exec (.csrrci rd csr uimm) ⟨x, h⟩) (encode (.csrrci rd csr uimm)))

/-- R45, R47, R48, R182: the scratch, cause and trap-value registers hold whatever is written, and a write to one changes
nothing else. -/
def Obligations.WholeRegistersHoldWhatIsWritten : Prop :=
  ∀ (x : Xlen) (h : Hart x) (v : XWord x) (c : Csr),
    c ∈ [Csr.mscratch, .sscratch, .mcause, .scause, .mtval, .stval] →
    (h.csrWrite c v).csrRead c = v ∧ h.WritesOnly (h.csrWrite c v) [c]

/-- R36, R37, R49: `misa`, `satp` and the identification registers read as constants, and a write to them is ignored.
That UXL, SXL and the values are those of the parameters is R2. -/
def Obligations.ConstantRegistersIgnoreWrites : Prop :=
  ∀ (x : Xlen) (h : Hart x) (v : XWord x),
    (∀ c, c ∈ [Csr.misa, .satp, .mvendorid, .marchid, .mimpid, .mhartid] → h.csrWrite c v = h) ∧
    h.csrRead .satp = 0 ∧ h.csrRead .mvendorid = h.cfg.vendorId ∧ h.csrRead .marchid = h.cfg.archId ∧
    h.csrRead .mimpid = h.cfg.impId ∧ h.csrRead .mhartid = h.cfg.hartId ∧
    (h.csrRead .misa).toNat =
      (if x = .rv64 then 2 else 1) * 2 ^ (x.bits - 2) + 2 ^ 8 + (if h.cfg.hasS = true then 2 ^ 18 else 0) +
        (if h.cfg.hasU = true then 2 ^ 20 else 0)

/-- R43, R44, R46, R182: a trap vector takes the whole base, and the mode where it is 0 or 1; a saved pc takes all but its
two low bits, which stay zero; a write to one of the four changes nothing else. -/
def Obligations.TrapVectorAndSavedPcWrites : Prop :=
  ∀ (x : Xlen) (h : Hart x) (v : XWord x) (k : Nat),
    (∀ c, c = Csr.mtvec ∨ c = Csr.stvec →
      (2 ≤ k → ((h.csrWrite c v).csrRead c).getLsbD k = v.getLsbD k) ∧
      (k < 2 → v.toNat % 4 < 2 → ((h.csrWrite c v).csrRead c).getLsbD k = v.getLsbD k) ∧
      (k < 2 → 2 ≤ v.toNat % 4 → ((h.csrWrite c v).csrRead c).getLsbD k = (h.csrRead c).getLsbD k)) ∧
    (∀ c, c = Csr.mepc ∨ c = Csr.sepc →
      ((h.csrWrite c v).csrRead c).getLsbD k = (v.getLsbD k && decide (2 ≤ k))) ∧
    ∀ c, c ∈ [Csr.mtvec, .stvec, .mepc, .sepc] → h.WritesOnly (h.csrWrite c v) [c]

/-- R38 to R41, R182: which bits of the delegation, enable and pending registers a write reaches; `mip` shows the lines in
bits 11, 7 and 3; a write to one of the four changes nothing else but the views `sie` and `sip` of it. -/
def Obligations.DelegationEnableAndPendingWrites : Prop :=
  ∀ (x : Xlen) (h : Hart x) (v : XWord x),
    h.WritesOnly (h.csrWrite .medeleg v) [.medeleg] ∧ h.WritesOnly (h.csrWrite .mideleg v) [.mideleg, .sie, .sip] ∧
    h.WritesOnly (h.csrWrite .mie v) [.mie, .sie] ∧ h.WritesOnly (h.csrWrite .mip v) [.mip, .sip] ∧
    ∀ k, k < x.bits →
    ((h.csrWrite .medeleg v).csrRead .medeleg).getLsbD k = (v.getLsbD k && decide (k ≤ 9)) ∧
    ((h.csrWrite .mideleg v).csrRead .mideleg).getLsbD k = (v.getLsbD k && decide (k ∈ [1, 5, 9])) ∧
    ((h.csrWrite .mie v).csrRead .mie).getLsbD k =
      (v.getLsbD k && (decide (k ∈ [3, 7, 11]) || h.cfg.hasS && decide (k ∈ [1, 5, 9]))) ∧
    ((h.csrWrite .mip v).csrRead .mip).getLsbD k =
      (v.getLsbD k && h.cfg.hasS && decide (k ∈ [1, 5, 9]) || decide (k = 11) && h.now.lines.meip ||
        decide (k = 7) && h.now.lines.mtip || decide (k = 3) && h.now.lines.msip)

/-- R33, R182: what `mstatus` reads as, bit by bit, and what a write changes: its fields, and nothing else but the view
`sstatus` of them. That UXL and SXL read 2 whatever modes exist is
notes/assumptions/14.md. -/
def Obligations.MstatusFieldsReadAndWrite : Prop :=
  ∀ (x : Xlen) (h : Hart x) (v : XWord x) (t : Mstatus), t = (h.csrWrite .mstatus v).mstatus →
    (h.csrRead .mstatus).toNat =
      (if h.mstatus.sie = true then 2 ^ 1 else 0) + (if h.mstatus.mie = true then 2 ^ 3 else 0) +
      (if h.mstatus.spie = true then 2 ^ 5 else 0) + (if h.mstatus.mpie = true then 2 ^ 7 else 0) +
      (if h.mstatus.spp = true then 2 ^ 8 else 0) + Priv.num h.mstatus.mpp * 2 ^ 11 +
      (if h.mstatus.mprv = true then 2 ^ 17 else 0) + (if h.mstatus.mxr = true then 2 ^ 19 else 0) +
      (if h.mstatus.tvm = true then 2 ^ 20 else 0) + (if h.mstatus.tw = true then 2 ^ 21 else 0) +
      (if h.mstatus.tsr = true then 2 ^ 22 else 0) + (if x = .rv64 then 2 * 2 ^ 32 + 2 * 2 ^ 34 else 0) ∧
    t.mie = v.getLsbD 3 ∧ t.mpie = v.getLsbD 7 ∧ t.sie = (h.cfg.hasS && v.getLsbD 1) ∧
    t.spie = (h.cfg.hasS && v.getLsbD 5) ∧ t.spp = (h.cfg.hasS && v.getLsbD 8) ∧
    t.mprv = (h.cfg.hasU && v.getLsbD 17) ∧ t.mxr = (h.cfg.hasS && v.getLsbD 19) ∧
    t.tvm = (h.cfg.hasS && v.getLsbD 20) ∧ t.tw = ((h.cfg.hasS || h.cfg.hasU) && v.getLsbD 21) ∧
    t.tsr = (h.cfg.hasS && v.getLsbD 22) ∧
    t.mpp = (if v.toNat / 2 ^ 11 % 4 = 0 ∧ h.cfg.hasU = true then .u
      else if v.toNat / 2 ^ 11 % 4 = 1 ∧ h.cfg.hasS = true then .s
      else if v.toNat / 2 ^ 11 % 4 = 3 then .m else h.mstatus.mpp) ∧
    h.WritesOnly (h.csrWrite .mstatus v) [.mstatus, .sstatus]

/-- R35: `sstatus` shows its bits of `mstatus` and zero elsewhere; a write changes SIE, SPIE, SPP and MXR only. -/
def Obligations.SstatusIsAViewOfMstatus : Prop :=
  ∀ (x : Xlen) (h : Hart x) (v : XWord x) (k : Nat), k < x.bits →
    (h.csrRead .sstatus).getLsbD k =
      ((h.csrRead .mstatus).getLsbD k &&
        (decide (k ∈ [0, 1, 4, 5, 8, 13, 14, 15, 16, 18, 19, x.bits - 1]) || decide (x = .rv64 ∧ k ∈ [32, 33]))) ∧
    ((h.csrWrite .sstatus v).csrRead .mstatus).getLsbD k =
      (if k ∈ [1, 5, 8, 19] then v.getLsbD k else (h.csrRead .mstatus).getLsbD k) ∧
    h.WritesOnly (h.csrWrite .sstatus v) [.mstatus, .sstatus]

/-- R42: `sie` and `sip` are views of `mie` and `mip` through `mideleg`. -/
def Obligations.SieAndSipAreViewsThroughMideleg : Prop :=
  ∀ (x : Xlen) (h : Hart x) (v m : XWord x), m = h.mideleg &&& 0x222 →
    h.csrRead .sie = h.csrRead .mie &&& m ∧
    h.csrWrite .sie v = { h with mie := (h.mie &&& ~~~m) ||| (v &&& m) } ∧
    h.csrRead .sip = h.csrRead .mip &&& m ∧
    (h.mideleg.getLsbD 1 = false → h.csrWrite .sip v = h) ∧
    (h.mideleg.getLsbD 1 = true → ∀ k, k < x.bits →
      ((h.csrWrite .sip v).csrRead .mip).getLsbD k = if k = 1 then v.getLsbD 1 else (h.csrRead .mip).getLsbD k) ∧
    h.WritesOnly (h.csrWrite .sip v) [.mip, .sip]

/-! ### Traps (60_exceptions.md, 44_system.md) -/

/-- R311, R312, R314: which mode handles a trap, what is saved and changed, where control goes, and that nothing else
changes. The codes are those of R301 and R330, all below 16. -/
def Obligations.TrapEntrySavesAndTransfers : Prop :=
  ∀ (x : Xlen) (h : Hart x) (interrupt : Bool) (code : Nat) (tval epc : XWord x), code < 16 →
    h.Traps (h.enterTrap interrupt code tval epc) interrupt code tval epc ∧
      (h.enterTrap interrupt code tval epc).pc.toNat % 4 = 0

/-- R200 to R202: ECALL raises the environment call of the mode it is executed in and nothing else, EBREAK a breakpoint,
URET an illegal instruction in every mode. -/
def Obligations.EnvironmentCallBreakpointAndUretTrap : Prop :=
  ∀ (x : Xlen) (h : Hart x),
    h.Raises (exec .ecall ⟨x, h⟩) (match h.priv with | .u => 8 | .s => 9 | .m => 11) 0 ∧
    h.Raises (exec .ebreak ⟨x, h⟩) 3 (if h.now.draws.mtvalEbreak = .zero then 0 else h.pc) ∧
    h.RaisesIllegal (exec .uret ⟨x, h⟩) 0x00200073

/-- R320, with R203 and R204: what MRET and SRET restore where they are legal, and that nothing else changes. That SRET
goes to U-mode with SPP clear also where U-mode is absent rests on notes/assumptions/13.md. -/
def Obligations.TrapReturnsRestore : Prop :=
  ∀ (x : Xlen) (h : Hart x),
    (h.priv = .m → exec .mret ⟨x, h⟩ = .next ⟨x, { h with
      mstatus.mie := h.mstatus.mpie
      mstatus.mpie := true
      mstatus.mpp := if h.cfg.hasU = true then .u else .m
      priv := h.mstatus.mpp
      pc := h.mepc }⟩) ∧
    (h.cfg.hasS = true → h.priv = .m ∨ h.priv = .s ∧ h.mstatus.tsr = false →
      exec .sret ⟨x, h⟩ = .next ⟨x, { h with
        mstatus.sie := h.mstatus.spie
        mstatus.spie := true
        mstatus.spp := false
        priv := if h.mstatus.spp = true then .s else .u
        pc := h.sepc }⟩)

/-- R203 to R206, R302 (d) to (g): where the privileged instructions are illegal. -/
def Obligations.PrivilegedInstructionsTrapWhereIllegal : Prop :=
  ∀ (x : Xlen) (h : Hart x) (rs1 rs2 : Reg),
    (h.cfg.hasS = false ∨ h.priv = .u ∨ h.priv = .s ∧ h.mstatus.tsr = true →
      h.RaisesIllegal (exec .sret ⟨x, h⟩) 0x10200073) ∧
    (h.priv ≠ .m → h.RaisesIllegal (exec .mret ⟨x, h⟩) 0x30200073) ∧
    (h.priv = .u ∧ h.cfg.hasS = true ∨ h.priv ≠ .m ∧ h.mstatus.tw = true →
      h.RaisesIllegal (exec .wfi ⟨x, h⟩) 0x10500073) ∧
    (h.cfg.hasS = false ∨ h.priv = .u ∨ h.priv = .s ∧ h.mstatus.tvm = true →
      h.RaisesIllegal (exec (.sfenceVma rs1 rs2) ⟨x, h⟩) (encode (.sfenceVma rs1 rs2)))

/-- R205, R206: a legal WFI retires at once and sets the waiting bit; a legal SFENCE.VMA changes nothing but `pc`. -/
def Obligations.WaitAndTranslationFenceComplete : Prop :=
  ∀ (x : Xlen) (h : Hart x) (rs1 rs2 : Reg),
    (h.priv = .m ∨ h.mstatus.tw = false ∧ (h.priv = .s ∨ h.cfg.hasS = false) →
      exec .wfi ⟨x, h⟩ = .next ⟨x, { h with pc := h.pc + 4, waiting := true }⟩) ∧
    (h.cfg.hasS = true → h.priv = .m ∨ h.priv = .s ∧ h.mstatus.tvm = false →
      exec (.sfenceVma rs1 rs2) ⟨x, h⟩ = .next ⟨x, { h with pc := h.pc + 4 }⟩)

/-! ### Reset (70_reset_and_hazards.md) -/

/-- R400, R401: the values the spec gives after reset, for every choice of the parameters. That `State.reset` is the
launch with these parameters and no image is the model's: notes/assumptions/1.md, notes/assumptions/2.md,
notes/assumptions/12.md. -/
def Obligations.ResetLeavesTheValuesTheSpecGives : Prop :=
  ∀ (x : Xlen) (cfg : Config x) (image : Memory) (env : List StepInput) (h : Hart x),
    h = (State.launch x cfg image env).hart →
    h.priv = .m ∧ h.pc = cfg.resetPc ∧ h.mstatus.mie = false ∧ h.mstatus.mprv = false ∧ h.csrRead .mcause = 0 ∧
      h.readX 0 = 0 ∧ h.waiting = false ∧ h.history = [] ∧ h.mem = image ∧ h.csrRead .satp = 0 ∧
      h.csrRead .mvendorid = cfg.vendorId ∧ h.csrRead .marchid = cfg.archId ∧ h.csrRead .mimpid = cfg.impId ∧
      h.csrRead .mhartid = cfg.hartId ∧ modeExists cfg h.mstatus.mpp ∧
      State.reset = State.launch .rv32 (Config.default .rv32) [] []
end

