-- ==== Sys2Proof/Laws/Encoding.lean ====
section
/-! SUPPORT. Fields of instruction words: what a field read from a word put together of fields is, and how a word is put
together again of its fields. -/

namespace Sys2Proof.Laws

theorem placeField_bit {n w : Nat} (lo : Nat) (v : BitVec n) (k : Nat) :
    (placeField w lo v).getLsbD k = (decide (k < w) && decide (lo ≤ k) && v.getLsbD (k - lo)) := by
  unfold placeField
  rw [BitVec.getLsbD_shiftLeft, BitVec.getLsbD_setWidth]
  by_cases h1 : k < w
  · by_cases h2 : k < lo
    · simp [h2]
    · simp [h1, h2, show k - lo < w by omega, show lo ≤ k by omega]
  · simp [h1]

/-! ### Reading a field -/

theorem extract_or {w : Nat} (a b : BitVec w) (p k : Nat) :
    (a ||| b).extractLsb' p k = a.extractLsb' p k ||| b.extractLsb' p k := by
  apply BitVec.eq_of_getLsbD_eq
  intro i hi
  simp only [BitVec.getLsbD_extractLsb', BitVec.getLsbD_or, hi, decide_true, Bool.true_and]

/-- A part of a field that was placed there. -/
theorem extract_place_sub {n w : Nat} (lo p k : Nat) (v : BitVec n) (h1 : lo ≤ p) (h2 : p + k ≤ w) :
    (placeField w lo v).extractLsb' p k = v.extractLsb' (p - lo) k := by
  apply BitVec.eq_of_getLsbD_eq
  intro i hi
  rw [BitVec.getLsbD_extractLsb', BitVec.getLsbD_extractLsb', placeField_bit, show p + i - lo = p - lo + i by omega]
  simp [show p + i < w by omega, show lo ≤ p + i by omega]

/-- The field that was placed there. -/
theorem extract_place_same {n w : Nat} (lo : Nat) (v : BitVec n) (h : lo + n ≤ w) :
    (placeField w lo v).extractLsb' lo n = v := by
  rw [extract_place_sub lo lo n v (by omega) h, Nat.sub_self]
  apply BitVec.eq_of_getLsbD_eq
  intro i hi
  simp only [BitVec.getLsbD_extractLsb', hi, decide_true, Bool.true_and, Nat.zero_add]

/-- A field placed elsewhere contributes nothing. -/
theorem extract_place_disjoint {n w : Nat} (lo p k : Nat) (v : BitVec n) (h : p + k ≤ lo ∨ lo + n ≤ p) :
    (placeField w lo v).extractLsb' p k = 0#k := by
  apply BitVec.eq_of_getLsbD_eq
  intro i hi
  rw [BitVec.getLsbD_extractLsb', placeField_bit, BitVec.getLsbD_zero]
  rcases h with h | h
  · simp [show ¬ lo ≤ p + i by omega]
  · rw [BitVec.getLsbD_of_ge v (p + i - lo) (by omega)]; simp

/-! ### Putting a word together of its fields -/

/-- Two neighbouring fields are one. -/
theorem place_split {w W : Nat} (v : BitVec w) (a b : Nat) :
    placeField W 0 (v.extractLsb' 0 (a + b)) =
      placeField W a (v.extractLsb' a b) ||| placeField W 0 (v.extractLsb' 0 a) := by
  apply BitVec.eq_of_getLsbD_eq
  intro i hi
  simp only [BitVec.getLsbD_or, placeField_bit, BitVec.getLsbD_extractLsb', hi, Nat.zero_le, decide_true, Bool.true_and,
    Nat.sub_zero, Nat.zero_add]
  by_cases h1 : i < a
  · simp [h1, show ¬ a ≤ i by omega, show i < a + b by omega]
  · simp [h1, show a ≤ i by omega, show (i - a < b) = (i < a + b) by simp; omega, show a + (i - a) = i by omega]

/-- Every value is its one full field. -/
theorem place_all {w : Nat} (v : BitVec w) : placeField w 0 (v.extractLsb' 0 w) = v := by
  apply BitVec.eq_of_getLsbD_eq
  intro i hi
  rw [placeField_bit, BitVec.getLsbD_extractLsb']
  simp [hi]

/-- A word is its six R-type fields. -/
theorem encR_fields (w : InstWord) :
    encR (funct7Field w) (rs2Field w) (rs1Field w) (funct3Field w) (rdField w) (opcodeField w) = w := by
  unfold encR funct7Field rs2Field rs1Field funct3Field rdField opcodeField
  simp only [BitVec.or_assoc]
  rw [← place_split w 7 5, ← place_split w 12 3, ← place_split w 15 5, ← place_split w 20 5, ← place_split w 25 7]
  exact place_all w

/-- A word is its five I-type fields. -/
theorem encI_fields (w : InstWord) :
    encI (immI w) (rs1Field w) (funct3Field w) (rdField w) (opcodeField w) = w := by
  unfold encI immI rs1Field funct3Field rdField opcodeField
  simp only [BitVec.or_assoc]
  rw [← place_split w 7 5, ← place_split w 12 3, ← place_split w 15 5, ← place_split w 20 12]
  exact place_all w

/-- A word is its shift-immediate fields. -/
theorem encShift_fields (w : InstWord) :
    encShift (funct6Field w) (shamtField w) (rs1Field w) (funct3Field w) (rdField w) (opcodeField w) = w := by
  unfold encShift funct6Field shamtField rs1Field funct3Field rdField opcodeField
  simp only [BitVec.or_assoc]
  rw [← place_split w 7 5, ← place_split w 12 3, ← place_split w 15 5, ← place_split w 20 6, ← place_split w 26 6]
  exact place_all w

/-- A word is its U-type fields. -/
theorem encU_fields (w : InstWord) : encU (immU w) (rdField w) (opcodeField w) = w := by
  unfold encU immU rdField opcodeField
  simp only [BitVec.or_assoc]
  rw [← place_split w 7 5, ← place_split w 12 20]
  exact place_all w

/-- A word is its FENCE fields. -/
theorem encFence_fields (w : InstWord) :
    encFence (w.extractLsb' 28 4) (w.extractLsb' 24 4) (w.extractLsb' 20 4) (rs1Field w) (funct3Field w) (rdField w)
      (opcodeField w) = w := by
  unfold encFence rs1Field funct3Field rdField opcodeField
  simp only [BitVec.or_assoc]
  rw [← place_split w 7 5, ← place_split w 12 3, ← place_split w 15 5, ← place_split w 20 4, ← place_split w 24 4,
    ← place_split w 28 4]
  exact place_all w

/-! ### The split immediates -/

theorem immS_high (w : InstWord) : (immS w).extractLsb' 5 7 = w.extractLsb' 25 7 := by
  rw [immS, extract_or, extract_place_same _ _ (by omega), extract_place_disjoint _ _ _ _ (by omega), BitVec.or_zero]

theorem immS_low (w : InstWord) : (immS w).extractLsb' 0 5 = w.extractLsb' 7 5 := by
  rw [immS, extract_or, extract_place_disjoint _ _ _ _ (by omega), extract_place_same _ _ (by omega), BitVec.zero_or]

/-- A word is its S-type fields. -/
theorem encS_fields (w : InstWord) :
    encS (immS w) (rs2Field w) (rs1Field w) (funct3Field w) (opcodeField w) = w := by
  rw [encS, immS_high, immS_low]
  exact encR_fields w

theorem immB_parts (w : InstWord) :
    (immB w).extractLsb' 12 1 = w.extractLsb' 31 1 ∧ (immB w).extractLsb' 11 1 = w.extractLsb' 7 1 ∧
      (immB w).extractLsb' 5 6 = w.extractLsb' 25 6 ∧ (immB w).extractLsb' 1 4 = w.extractLsb' 8 4 ∧
      (immB w).extractLsb' 0 1 = 0#1 := by
  refine ⟨?_, ?_, ?_, ?_, ?_⟩ <;> unfold immB <;>
    simp (disch := omega) only [extract_or, extract_place_same, extract_place_disjoint, BitVec.or_zero, BitVec.zero_or]

/-- A word is its B-type fields. -/
theorem encB_fields (w : InstWord) :
    encB (immB w) (rs2Field w) (rs1Field w) (funct3Field w) (opcodeField w) = w := by
  obtain ⟨h12, h11, h5, h1, -⟩ := immB_parts w
  rw [encB, h12, h11, h5, h1]
  unfold rs2Field rs1Field funct3Field opcodeField
  simp only [BitVec.or_assoc]
  rw [← place_split w 7 1, ← place_split w 8 4, ← place_split w 12 3, ← place_split w 15 5, ← place_split w 20 5,
    ← place_split w 25 6, ← place_split w 31 1]
  exact place_all w

theorem immJ_parts (w : InstWord) :
    (immJ w).extractLsb' 20 1 = w.extractLsb' 31 1 ∧ (immJ w).extractLsb' 12 8 = w.extractLsb' 12 8 ∧
      (immJ w).extractLsb' 11 1 = w.extractLsb' 20 1 ∧ (immJ w).extractLsb' 1 10 = w.extractLsb' 21 10 ∧
      (immJ w).extractLsb' 0 1 = 0#1 := by
  refine ⟨?_, ?_, ?_, ?_, ?_⟩ <;> unfold immJ <;>
    simp (disch := omega) only [extract_or, extract_place_same, extract_place_disjoint, BitVec.or_zero, BitVec.zero_or]

/-- A word is its J-type fields. -/
theorem encJ_fields (w : InstWord) : encJ (immJ w) (rdField w) (opcodeField w) = w := by
  obtain ⟨h20, h12, h11, h1, -⟩ := immJ_parts w
  rw [encJ, h20, h12, h11, h1]
  unfold rdField opcodeField
  simp only [BitVec.or_assoc]
  rw [← place_split w 7 5, ← place_split w 12 8, ← place_split w 20 1, ← place_split w 21 10, ← place_split w 31 1]
  exact place_all w

/-- A 12-bit immediate is the two fields a store's encoding splits it into. -/
theorem immS_of_parts (imm : BitVec 12) :
    placeField 12 5 (imm.extractLsb' 5 7) ||| placeField 12 0 (imm.extractLsb' 0 5) = imm := by
  rw [← place_split imm 5 7]; exact place_all imm

theorem low_bit {n : Nat} (v : BitVec n) (h : v.getLsbD 0 = false) : v.extractLsb' 0 1 = 0#1 := by
  apply BitVec.eq_of_getLsbD_eq
  intro i hi
  have : i = 0 := by omega
  subst this
  simpa [BitVec.getLsbD_extractLsb'] using h

/-- An even branch offset is the four fields its encoding splits it into. -/
theorem immB_of_parts (v : BitVec 13) (h : v.getLsbD 0 = false) :
    placeField 13 12 (v.extractLsb' 12 1) ||| placeField 13 11 (v.extractLsb' 11 1) |||
      placeField 13 5 (v.extractLsb' 5 6) ||| placeField 13 1 (v.extractLsb' 1 4) = v := by
  have low : placeField 13 1 (v.extractLsb' 1 4) = placeField 13 0 (v.extractLsb' 0 (1 + 4)) := by
    rw [place_split v 1 4, low_bit v h, show placeField 13 0 (0#1) = 0#13 from rfl, BitVec.or_zero]
  simp only [BitVec.or_assoc]
  rw [low, ← place_split v 5 6, ← place_split v 11 1, ← place_split v 12 1]
  exact place_all v

/-- An even jump offset is the four fields its encoding splits it into. -/
theorem immJ_of_parts (v : BitVec 21) (h : v.getLsbD 0 = false) :
    placeField 21 20 (v.extractLsb' 20 1) ||| placeField 21 12 (v.extractLsb' 12 8) |||
      placeField 21 11 (v.extractLsb' 11 1) ||| placeField 21 1 (v.extractLsb' 1 10) = v := by
  have low : placeField 21 1 (v.extractLsb' 1 10) = placeField 21 0 (v.extractLsb' 0 (1 + 10)) := by
    rw [place_split v 1 10, low_bit v h, show placeField 21 0 (0#1) = 0#21 from rfl, BitVec.or_zero]
  simp only [BitVec.or_assoc]
  rw [low, ← place_split v 11 1, ← place_split v 12 8, ← place_split v 20 1]
  exact place_all v

/-! ### Bytes of a word -/

/-- A word is its four bytes in memory order. -/
theorem wordOfBytes_of_word (w : InstWord) :
    wordOfBytes (w.extractLsb' 0 8) (w.extractLsb' 8 8) (w.extractLsb' 16 8) (w.extractLsb' 24 8) = w := by
  unfold wordOfBytes
  simp only [BitVec.or_assoc]
  rw [← place_split w 8 8, ← place_split w 16 8, ← place_split w 24 8]
  exact place_all w

end Sys2Proof.Laws
end

