-- ==== Sys2Proof/Laws/State.lean ====
section
/-! SUPPORT. One lemma for each field of the state and each update of it, so that no later proof unfolds a record
update. -/

namespace Sys2Proof.Laws

open Sys2Proof.Machine

variable {x : Xlen}

/-! ### Registers and pc -/

@[simp] theorem writeX_cfg (h : Hart x) (i : Reg) (v : XWord x) : (h.writeX i v).cfg = h.cfg := by
  unfold Hart.writeX; split <;> rfl
@[simp] theorem writeX_pc (h : Hart x) (i : Reg) (v : XWord x) : (h.writeX i v).pc = h.pc := by
  unfold Hart.writeX; split <;> rfl
@[simp] theorem writeX_priv (h : Hart x) (i : Reg) (v : XWord x) : (h.writeX i v).priv = h.priv := by
  unfold Hart.writeX; split <;> rfl
@[simp] theorem writeX_mstatus (h : Hart x) (i : Reg) (v : XWord x) : (h.writeX i v).mstatus = h.mstatus := by
  unfold Hart.writeX; split <;> rfl
@[simp] theorem writeX_medeleg (h : Hart x) (i : Reg) (v : XWord x) : (h.writeX i v).medeleg = h.medeleg := by
  unfold Hart.writeX; split <;> rfl
@[simp] theorem writeX_mideleg (h : Hart x) (i : Reg) (v : XWord x) : (h.writeX i v).mideleg = h.mideleg := by
  unfold Hart.writeX; split <;> rfl
@[simp] theorem writeX_mie (h : Hart x) (i : Reg) (v : XWord x) : (h.writeX i v).mie = h.mie := by
  unfold Hart.writeX; split <;> rfl
@[simp] theorem writeX_mipSoft (h : Hart x) (i : Reg) (v : XWord x) : (h.writeX i v).mipSoft = h.mipSoft := by
  unfold Hart.writeX; split <;> rfl
@[simp] theorem writeX_mtvec (h : Hart x) (i : Reg) (v : XWord x) : (h.writeX i v).mtvec = h.mtvec := by
  unfold Hart.writeX; split <;> rfl
@[simp] theorem writeX_mscratch (h : Hart x) (i : Reg) (v : XWord x) : (h.writeX i v).mscratch = h.mscratch := by
  unfold Hart.writeX; split <;> rfl
@[simp] theorem writeX_mepc (h : Hart x) (i : Reg) (v : XWord x) : (h.writeX i v).mepc = h.mepc := by
  unfold Hart.writeX; split <;> rfl
@[simp] theorem writeX_mcause (h : Hart x) (i : Reg) (v : XWord x) : (h.writeX i v).mcause = h.mcause := by
  unfold Hart.writeX; split <;> rfl
@[simp] theorem writeX_mtval (h : Hart x) (i : Reg) (v : XWord x) : (h.writeX i v).mtval = h.mtval := by
  unfold Hart.writeX; split <;> rfl
@[simp] theorem writeX_stvec (h : Hart x) (i : Reg) (v : XWord x) : (h.writeX i v).stvec = h.stvec := by
  unfold Hart.writeX; split <;> rfl
@[simp] theorem writeX_sscratch (h : Hart x) (i : Reg) (v : XWord x) : (h.writeX i v).sscratch = h.sscratch := by
  unfold Hart.writeX; split <;> rfl
@[simp] theorem writeX_sepc (h : Hart x) (i : Reg) (v : XWord x) : (h.writeX i v).sepc = h.sepc := by
  unfold Hart.writeX; split <;> rfl
@[simp] theorem writeX_scause (h : Hart x) (i : Reg) (v : XWord x) : (h.writeX i v).scause = h.scause := by
  unfold Hart.writeX; split <;> rfl
@[simp] theorem writeX_stval (h : Hart x) (i : Reg) (v : XWord x) : (h.writeX i v).stval = h.stval := by
  unfold Hart.writeX; split <;> rfl
@[simp] theorem writeX_waiting (h : Hart x) (i : Reg) (v : XWord x) : (h.writeX i v).waiting = h.waiting := by
  unfold Hart.writeX; split <;> rfl
@[simp] theorem writeX_mem (h : Hart x) (i : Reg) (v : XWord x) : (h.writeX i v).mem = h.mem := by
  unfold Hart.writeX; split <;> rfl
@[simp] theorem writeX_history (h : Hart x) (i : Reg) (v : XWord x) : (h.writeX i v).history = h.history := by
  unfold Hart.writeX; split <;> rfl
@[simp] theorem writeX_ioLog (h : Hart x) (i : Reg) (v : XWord x) : (h.writeX i v).ioLog = h.ioLog := by
  unfold Hart.writeX; split <;> rfl
@[simp] theorem writeX_now (h : Hart x) (i : Reg) (v : XWord x) : (h.writeX i v).now = h.now := by
  unfold Hart.writeX; split <;> rfl
@[simp] theorem writeX_env (h : Hart x) (i : Reg) (v : XWord x) : (h.writeX i v).env = h.env := by
  unfold Hart.writeX; split <;> rfl
@[simp] theorem writeX_steps (h : Hart x) (i : Reg) (v : XWord x) : (h.writeX i v).steps = h.steps := by
  unfold Hart.writeX; split <;> rfl
@[simp] theorem writeX_regionAt (h : Hart x) (i : Reg) (v : XWord x) (p : Nat) :
    (h.writeX i v).regionAt p = h.regionAt p := by
  simp only [Hart.regionAt, writeX_cfg]
@[simp] theorem writeX_sharedAt (h : Hart x) (i : Reg) (v : XWord x) (p : Nat) :
    (h.writeX i v).sharedAt p = h.sharedAt p := by
  simp only [Hart.sharedAt, writeX_cfg]

@[simp] theorem setPc_cfg (h : Hart x) (a : XWord x) : (h.setPc a).cfg = h.cfg := rfl
@[simp] theorem setPc_xs (h : Hart x) (a : XWord x) : (h.setPc a).xs = h.xs := rfl
@[simp] theorem setPc_pc (h : Hart x) (a : XWord x) : (h.setPc a).pc = a := rfl
@[simp] theorem setPc_priv (h : Hart x) (a : XWord x) : (h.setPc a).priv = h.priv := rfl
@[simp] theorem setPc_mstatus (h : Hart x) (a : XWord x) : (h.setPc a).mstatus = h.mstatus := rfl
@[simp] theorem setPc_medeleg (h : Hart x) (a : XWord x) : (h.setPc a).medeleg = h.medeleg := rfl
@[simp] theorem setPc_mideleg (h : Hart x) (a : XWord x) : (h.setPc a).mideleg = h.mideleg := rfl
@[simp] theorem setPc_mie (h : Hart x) (a : XWord x) : (h.setPc a).mie = h.mie := rfl
@[simp] theorem setPc_mipSoft (h : Hart x) (a : XWord x) : (h.setPc a).mipSoft = h.mipSoft := rfl
@[simp] theorem setPc_mtvec (h : Hart x) (a : XWord x) : (h.setPc a).mtvec = h.mtvec := rfl
@[simp] theorem setPc_mscratch (h : Hart x) (a : XWord x) : (h.setPc a).mscratch = h.mscratch := rfl
@[simp] theorem setPc_mepc (h : Hart x) (a : XWord x) : (h.setPc a).mepc = h.mepc := rfl
@[simp] theorem setPc_mcause (h : Hart x) (a : XWord x) : (h.setPc a).mcause = h.mcause := rfl
@[simp] theorem setPc_mtval (h : Hart x) (a : XWord x) : (h.setPc a).mtval = h.mtval := rfl
@[simp] theorem setPc_stvec (h : Hart x) (a : XWord x) : (h.setPc a).stvec = h.stvec := rfl
@[simp] theorem setPc_sscratch (h : Hart x) (a : XWord x) : (h.setPc a).sscratch = h.sscratch := rfl
@[simp] theorem setPc_sepc (h : Hart x) (a : XWord x) : (h.setPc a).sepc = h.sepc := rfl
@[simp] theorem setPc_scause (h : Hart x) (a : XWord x) : (h.setPc a).scause = h.scause := rfl
@[simp] theorem setPc_stval (h : Hart x) (a : XWord x) : (h.setPc a).stval = h.stval := rfl
@[simp] theorem setPc_waiting (h : Hart x) (a : XWord x) : (h.setPc a).waiting = h.waiting := rfl
@[simp] theorem setPc_mem (h : Hart x) (a : XWord x) : (h.setPc a).mem = h.mem := rfl
@[simp] theorem setPc_history (h : Hart x) (a : XWord x) : (h.setPc a).history = h.history := rfl
@[simp] theorem setPc_ioLog (h : Hart x) (a : XWord x) : (h.setPc a).ioLog = h.ioLog := rfl
@[simp] theorem setPc_now (h : Hart x) (a : XWord x) : (h.setPc a).now = h.now := rfl
@[simp] theorem setPc_env (h : Hart x) (a : XWord x) : (h.setPc a).env = h.env := rfl
@[simp] theorem setPc_steps (h : Hart x) (a : XWord x) : (h.setPc a).steps = h.steps := rfl
@[simp] theorem setPc_readX (h : Hart x) (a : XWord x) (j : Reg) : (h.setPc a).readX j = h.readX j := by
  simp only [Hart.readX, setPc_xs]
@[simp] theorem setPc_regionAt (h : Hart x) (a : XWord x) (p : Nat) : (h.setPc a).regionAt p = h.regionAt p := by
  simp only [Hart.regionAt, setPc_cfg]
@[simp] theorem setPc_sharedAt (h : Hart x) (a : XWord x) (p : Nat) : (h.setPc a).sharedAt p = h.sharedAt p := by
  simp only [Hart.sharedAt, setPc_cfg]

@[simp] theorem advance_cfg (h : Hart x) : (h.advance).cfg = h.cfg := rfl
@[simp] theorem advance_xs (h : Hart x) : (h.advance).xs = h.xs := rfl
@[simp] theorem advance_pc (h : Hart x) : (h.advance).pc = h.pc + 4 := rfl
@[simp] theorem advance_priv (h : Hart x) : (h.advance).priv = h.priv := rfl
@[simp] theorem advance_mstatus (h : Hart x) : (h.advance).mstatus = h.mstatus := rfl
@[simp] theorem advance_medeleg (h : Hart x) : (h.advance).medeleg = h.medeleg := rfl
@[simp] theorem advance_mideleg (h : Hart x) : (h.advance).mideleg = h.mideleg := rfl
@[simp] theorem advance_mie (h : Hart x) : (h.advance).mie = h.mie := rfl
@[simp] theorem advance_mipSoft (h : Hart x) : (h.advance).mipSoft = h.mipSoft := rfl
@[simp] theorem advance_mtvec (h : Hart x) : (h.advance).mtvec = h.mtvec := rfl
@[simp] theorem advance_mscratch (h : Hart x) : (h.advance).mscratch = h.mscratch := rfl
@[simp] theorem advance_mepc (h : Hart x) : (h.advance).mepc = h.mepc := rfl
@[simp] theorem advance_mcause (h : Hart x) : (h.advance).mcause = h.mcause := rfl
@[simp] theorem advance_mtval (h : Hart x) : (h.advance).mtval = h.mtval := rfl
@[simp] theorem advance_stvec (h : Hart x) : (h.advance).stvec = h.stvec := rfl
@[simp] theorem advance_sscratch (h : Hart x) : (h.advance).sscratch = h.sscratch := rfl
@[simp] theorem advance_sepc (h : Hart x) : (h.advance).sepc = h.sepc := rfl
@[simp] theorem advance_scause (h : Hart x) : (h.advance).scause = h.scause := rfl
@[simp] theorem advance_stval (h : Hart x) : (h.advance).stval = h.stval := rfl
@[simp] theorem advance_waiting (h : Hart x) : (h.advance).waiting = h.waiting := rfl
@[simp] theorem advance_mem (h : Hart x) : (h.advance).mem = h.mem := rfl
@[simp] theorem advance_history (h : Hart x) : (h.advance).history = h.history := rfl
@[simp] theorem advance_ioLog (h : Hart x) : (h.advance).ioLog = h.ioLog := rfl
@[simp] theorem advance_now (h : Hart x) : (h.advance).now = h.now := rfl
@[simp] theorem advance_env (h : Hart x) : (h.advance).env = h.env := rfl
@[simp] theorem advance_steps (h : Hart x) : (h.advance).steps = h.steps := rfl
@[simp] theorem advance_readX (h : Hart x) (j : Reg) : (h.advance).readX j = h.readX j := by
  simp only [Hart.readX, advance_xs]
@[simp] theorem advance_regionAt (h : Hart x) (p : Nat) : (h.advance).regionAt p = h.regionAt p := by
  simp only [Hart.regionAt, advance_cfg]
@[simp] theorem advance_sharedAt (h : Hart x) (p : Nat) : (h.advance).sharedAt p = h.sharedAt p := by
  simp only [Hart.sharedAt, advance_cfg]

@[simp] theorem writeResult_cfg (h : Hart x) (i : Reg) (v : XWord x) : (h.writeResult i v).cfg = h.cfg := by
  simp [Hart.writeResult]
@[simp] theorem writeResult_xs (h : Hart x) (i : Reg) (v : XWord x) : (h.writeResult i v).xs = (h.writeX i v).xs := by
  simp [Hart.writeResult]
@[simp] theorem writeResult_pc (h : Hart x) (i : Reg) (v : XWord x) : (h.writeResult i v).pc = h.pc + 4 := by
  simp [Hart.writeResult]
@[simp] theorem writeResult_priv (h : Hart x) (i : Reg) (v : XWord x) : (h.writeResult i v).priv = h.priv := by
  simp [Hart.writeResult]
@[simp] theorem writeResult_mstatus (h : Hart x) (i : Reg) (v : XWord x) :
    (h.writeResult i v).mstatus = h.mstatus := by
  simp [Hart.writeResult]
@[simp] theorem writeResult_medeleg (h : Hart x) (i : Reg) (v : XWord x) :
    (h.writeResult i v).medeleg = h.medeleg := by
  simp [Hart.writeResult]
@[simp] theorem writeResult_mideleg (h : Hart x) (i : Reg) (v : XWord x) :
    (h.writeResult i v).mideleg = h.mideleg := by
  simp [Hart.writeResult]
@[simp] theorem writeResult_mie (h : Hart x) (i : Reg) (v : XWord x) : (h.writeResult i v).mie = h.mie := by
  simp [Hart.writeResult]
@[simp] theorem writeResult_mipSoft (h : Hart x) (i : Reg) (v : XWord x) :
    (h.writeResult i v).mipSoft = h.mipSoft := by
  simp [Hart.writeResult]
@[simp] theorem writeResult_mtvec (h : Hart x) (i : Reg) (v : XWord x) : (h.writeResult i v).mtvec = h.mtvec := by
  simp [Hart.writeResult]
@[simp] theorem writeResult_mscratch (h : Hart x) (i : Reg) (v : XWord x) :
    (h.writeResult i v).mscratch = h.mscratch := by
  simp [Hart.writeResult]
@[simp] theorem writeResult_mepc (h : Hart x) (i : Reg) (v : XWord x) : (h.writeResult i v).mepc = h.mepc := by
  simp [Hart.writeResult]
@[simp] theorem writeResult_mcause (h : Hart x) (i : Reg) (v : XWord x) : (h.writeResult i v).mcause = h.mcause := by
  simp [Hart.writeResult]
@[simp] theorem writeResult_mtval (h : Hart x) (i : Reg) (v : XWord x) : (h.writeResult i v).mtval = h.mtval := by
  simp [Hart.writeResult]
@[simp] theorem writeResult_stvec (h : Hart x) (i : Reg) (v : XWord x) : (h.writeResult i v).stvec = h.stvec := by
  simp [Hart.writeResult]
@[simp] theorem writeResult_sscratch (h : Hart x) (i : Reg) (v : XWord x) :
    (h.writeResult i v).sscratch = h.sscratch := by
  simp [Hart.writeResult]
@[simp] theorem writeResult_sepc (h : Hart x) (i : Reg) (v : XWord x) : (h.writeResult i v).sepc = h.sepc := by
  simp [Hart.writeResult]
@[simp] theorem writeResult_scause (h : Hart x) (i : Reg) (v : XWord x) : (h.writeResult i v).scause = h.scause := by
  simp [Hart.writeResult]
@[simp] theorem writeResult_stval (h : Hart x) (i : Reg) (v : XWord x) : (h.writeResult i v).stval = h.stval := by
  simp [Hart.writeResult]
@[simp] theorem writeResult_waiting (h : Hart x) (i : Reg) (v : XWord x) :
    (h.writeResult i v).waiting = h.waiting := by
  simp [Hart.writeResult]
@[simp] theorem writeResult_mem (h : Hart x) (i : Reg) (v : XWord x) : (h.writeResult i v).mem = h.mem := by
  simp [Hart.writeResult]
@[simp] theorem writeResult_history (h : Hart x) (i : Reg) (v : XWord x) : (h.writeResult i v).history = h.history := by
  simp [Hart.writeResult]
@[simp] theorem writeResult_ioLog (h : Hart x) (i : Reg) (v : XWord x) : (h.writeResult i v).ioLog = h.ioLog := by
  simp [Hart.writeResult]
@[simp] theorem writeResult_now (h : Hart x) (i : Reg) (v : XWord x) : (h.writeResult i v).now = h.now := by
  simp [Hart.writeResult]
@[simp] theorem writeResult_env (h : Hart x) (i : Reg) (v : XWord x) : (h.writeResult i v).env = h.env := by
  simp [Hart.writeResult]
@[simp] theorem writeResult_steps (h : Hart x) (i : Reg) (v : XWord x) : (h.writeResult i v).steps = h.steps := by
  simp [Hart.writeResult]
@[simp] theorem writeResult_regionAt (h : Hart x) (i : Reg) (v : XWord x) (p : Nat) :
    (h.writeResult i v).regionAt p = h.regionAt p := by
  simp only [Hart.regionAt, writeResult_cfg]
@[simp] theorem writeResult_sharedAt (h : Hart x) (i : Reg) (v : XWord x) (p : Nat) :
    (h.writeResult i v).sharedAt p = h.sharedAt p := by
  simp only [Hart.sharedAt, writeResult_cfg]

/-! ### Memory -/

@[simp] theorem logIo_cfg (h : Hart x) (e : IoEvent) : (h.logIo e).cfg = h.cfg := rfl
@[simp] theorem logIo_xs (h : Hart x) (e : IoEvent) : (h.logIo e).xs = h.xs := rfl
@[simp] theorem logIo_pc (h : Hart x) (e : IoEvent) : (h.logIo e).pc = h.pc := rfl
@[simp] theorem logIo_priv (h : Hart x) (e : IoEvent) : (h.logIo e).priv = h.priv := rfl
@[simp] theorem logIo_mstatus (h : Hart x) (e : IoEvent) : (h.logIo e).mstatus = h.mstatus := rfl
@[simp] theorem logIo_medeleg (h : Hart x) (e : IoEvent) : (h.logIo e).medeleg = h.medeleg := rfl
@[simp] theorem logIo_mideleg (h : Hart x) (e : IoEvent) : (h.logIo e).mideleg = h.mideleg := rfl
@[simp] theorem logIo_mie (h : Hart x) (e : IoEvent) : (h.logIo e).mie = h.mie := rfl
@[simp] theorem logIo_mipSoft (h : Hart x) (e : IoEvent) : (h.logIo e).mipSoft = h.mipSoft := rfl
@[simp] theorem logIo_mtvec (h : Hart x) (e : IoEvent) : (h.logIo e).mtvec = h.mtvec := rfl
@[simp] theorem logIo_mscratch (h : Hart x) (e : IoEvent) : (h.logIo e).mscratch = h.mscratch := rfl
@[simp] theorem logIo_mepc (h : Hart x) (e : IoEvent) : (h.logIo e).mepc = h.mepc := rfl
@[simp] theorem logIo_mcause (h : Hart x) (e : IoEvent) : (h.logIo e).mcause = h.mcause := rfl
@[simp] theorem logIo_mtval (h : Hart x) (e : IoEvent) : (h.logIo e).mtval = h.mtval := rfl
@[simp] theorem logIo_stvec (h : Hart x) (e : IoEvent) : (h.logIo e).stvec = h.stvec := rfl
@[simp] theorem logIo_sscratch (h : Hart x) (e : IoEvent) : (h.logIo e).sscratch = h.sscratch := rfl
@[simp] theorem logIo_sepc (h : Hart x) (e : IoEvent) : (h.logIo e).sepc = h.sepc := rfl
@[simp] theorem logIo_scause (h : Hart x) (e : IoEvent) : (h.logIo e).scause = h.scause := rfl
@[simp] theorem logIo_stval (h : Hart x) (e : IoEvent) : (h.logIo e).stval = h.stval := rfl
@[simp] theorem logIo_waiting (h : Hart x) (e : IoEvent) : (h.logIo e).waiting = h.waiting := rfl
@[simp] theorem logIo_mem (h : Hart x) (e : IoEvent) : (h.logIo e).mem = h.mem := rfl
@[simp] theorem logIo_history (h : Hart x) (e : IoEvent) : (h.logIo e).history = h.history := rfl
@[simp] theorem logIo_ioLog (h : Hart x) (e : IoEvent) : (h.logIo e).ioLog = h.ioLog ++ [e] := rfl
@[simp] theorem logIo_now (h : Hart x) (e : IoEvent) : (h.logIo e).now = h.now := rfl
@[simp] theorem logIo_env (h : Hart x) (e : IoEvent) : (h.logIo e).env = h.env := rfl
@[simp] theorem logIo_steps (h : Hart x) (e : IoEvent) : (h.logIo e).steps = h.steps := rfl
@[simp] theorem logIo_readX (h : Hart x) (e : IoEvent) (j : Reg) : (h.logIo e).readX j = h.readX j := by
  simp only [Hart.readX, logIo_xs]
@[simp] theorem logIo_regionAt (h : Hart x) (e : IoEvent) (p : Nat) : (h.logIo e).regionAt p = h.regionAt p := by
  simp only [Hart.regionAt, logIo_cfg]
@[simp] theorem logIo_sharedAt (h : Hart x) (e : IoEvent) (p : Nat) : (h.logIo e).sharedAt p = h.sharedAt p := by
  simp only [Hart.sharedAt, logIo_cfg]

@[simp] theorem storeByte_cfg (h : Hart x) (a : Nat) (b : Byte) : (h.storeByte a b).cfg = h.cfg := rfl
@[simp] theorem storeByte_xs (h : Hart x) (a : Nat) (b : Byte) : (h.storeByte a b).xs = h.xs := rfl
@[simp] theorem storeByte_pc (h : Hart x) (a : Nat) (b : Byte) : (h.storeByte a b).pc = h.pc := rfl
@[simp] theorem storeByte_priv (h : Hart x) (a : Nat) (b : Byte) : (h.storeByte a b).priv = h.priv := rfl
@[simp] theorem storeByte_mstatus (h : Hart x) (a : Nat) (b : Byte) : (h.storeByte a b).mstatus = h.mstatus := rfl
@[simp] theorem storeByte_medeleg (h : Hart x) (a : Nat) (b : Byte) : (h.storeByte a b).medeleg = h.medeleg := rfl
@[simp] theorem storeByte_mideleg (h : Hart x) (a : Nat) (b : Byte) : (h.storeByte a b).mideleg = h.mideleg := rfl
@[simp] theorem storeByte_mie (h : Hart x) (a : Nat) (b : Byte) : (h.storeByte a b).mie = h.mie := rfl
@[simp] theorem storeByte_mipSoft (h : Hart x) (a : Nat) (b : Byte) : (h.storeByte a b).mipSoft = h.mipSoft := rfl
@[simp] theorem storeByte_mtvec (h : Hart x) (a : Nat) (b : Byte) : (h.storeByte a b).mtvec = h.mtvec := rfl
@[simp] theorem storeByte_mscratch (h : Hart x) (a : Nat) (b : Byte) : (h.storeByte a b).mscratch = h.mscratch := rfl
@[simp] theorem storeByte_mepc (h : Hart x) (a : Nat) (b : Byte) : (h.storeByte a b).mepc = h.mepc := rfl
@[simp] theorem storeByte_mcause (h : Hart x) (a : Nat) (b : Byte) : (h.storeByte a b).mcause = h.mcause := rfl
@[simp] theorem storeByte_mtval (h : Hart x) (a : Nat) (b : Byte) : (h.storeByte a b).mtval = h.mtval := rfl
@[simp] theorem storeByte_stvec (h : Hart x) (a : Nat) (b : Byte) : (h.storeByte a b).stvec = h.stvec := rfl
@[simp] theorem storeByte_sscratch (h : Hart x) (a : Nat) (b : Byte) : (h.storeByte a b).sscratch = h.sscratch := rfl
@[simp] theorem storeByte_sepc (h : Hart x) (a : Nat) (b : Byte) : (h.storeByte a b).sepc = h.sepc := rfl
@[simp] theorem storeByte_scause (h : Hart x) (a : Nat) (b : Byte) : (h.storeByte a b).scause = h.scause := rfl
@[simp] theorem storeByte_stval (h : Hart x) (a : Nat) (b : Byte) : (h.storeByte a b).stval = h.stval := rfl
@[simp] theorem storeByte_waiting (h : Hart x) (a : Nat) (b : Byte) : (h.storeByte a b).waiting = h.waiting := rfl
@[simp] theorem storeByte_mem (h : Hart x) (a : Nat) (b : Byte) :
    (h.storeByte a b).mem = Memory.write h.mem a b := rfl
@[simp] theorem storeByte_ioLog (h : Hart x) (a : Nat) (b : Byte) : (h.storeByte a b).ioLog = h.ioLog := rfl
@[simp] theorem storeByte_now (h : Hart x) (a : Nat) (b : Byte) : (h.storeByte a b).now = h.now := rfl
@[simp] theorem storeByte_env (h : Hart x) (a : Nat) (b : Byte) : (h.storeByte a b).env = h.env := rfl
@[simp] theorem storeByte_steps (h : Hart x) (a : Nat) (b : Byte) : (h.storeByte a b).steps = h.steps := rfl
@[simp] theorem storeByte_readX (h : Hart x) (a : Nat) (b : Byte) (j : Reg) :
    (h.storeByte a b).readX j = h.readX j := by
  simp only [Hart.readX, storeByte_xs]
@[simp] theorem storeByte_regionAt (h : Hart x) (a : Nat) (b : Byte) (p : Nat) :
    (h.storeByte a b).regionAt p = h.regionAt p := by
  simp only [Hart.regionAt, storeByte_cfg]
@[simp] theorem storeByte_sharedAt (h : Hart x) (a : Nat) (b : Byte) (p : Nat) :
    (h.storeByte a b).sharedAt p = h.sharedAt p := by
  simp only [Hart.sharedAt, storeByte_cfg]

/-- The bytes written change the memory and the history only. -/
theorem storeCells_eq (h : Hart x) (l : List Host.Cell) :
    h.storeCells l = { h with mem := (h.storeCells l).mem, history := (h.storeCells l).history } := by
  induction l generalizing h with
  | nil => rfl
  | cons c rest ih => rw [Hart.storeCells, ih]; simp

@[simp] theorem storeCells_cfg (h : Hart x) (l : List Host.Cell) :
    (h.storeCells l).cfg = h.cfg := congrArg (fun k => k.cfg) (storeCells_eq h l)
@[simp] theorem storeCells_xs (h : Hart x) (l : List Host.Cell) :
    (h.storeCells l).xs = h.xs := congrArg (fun k => k.xs) (storeCells_eq h l)
@[simp] theorem storeCells_pc (h : Hart x) (l : List Host.Cell) :
    (h.storeCells l).pc = h.pc := congrArg (fun k => k.pc) (storeCells_eq h l)
@[simp] theorem storeCells_priv (h : Hart x) (l : List Host.Cell) :
    (h.storeCells l).priv = h.priv := congrArg (fun k => k.priv) (storeCells_eq h l)
@[simp] theorem storeCells_mstatus (h : Hart x) (l : List Host.Cell) :
    (h.storeCells l).mstatus = h.mstatus := congrArg (fun k => k.mstatus) (storeCells_eq h l)
@[simp] theorem storeCells_medeleg (h : Hart x) (l : List Host.Cell) :
    (h.storeCells l).medeleg = h.medeleg := congrArg (fun k => k.medeleg) (storeCells_eq h l)
@[simp] theorem storeCells_mideleg (h : Hart x) (l : List Host.Cell) :
    (h.storeCells l).mideleg = h.mideleg := congrArg (fun k => k.mideleg) (storeCells_eq h l)
@[simp] theorem storeCells_mie (h : Hart x) (l : List Host.Cell) :
    (h.storeCells l).mie = h.mie := congrArg (fun k => k.mie) (storeCells_eq h l)
@[simp] theorem storeCells_mipSoft (h : Hart x) (l : List Host.Cell) :
    (h.storeCells l).mipSoft = h.mipSoft := congrArg (fun k => k.mipSoft) (storeCells_eq h l)
@[simp] theorem storeCells_mtvec (h : Hart x) (l : List Host.Cell) :
    (h.storeCells l).mtvec = h.mtvec := congrArg (fun k => k.mtvec) (storeCells_eq h l)
@[simp] theorem storeCells_mscratch (h : Hart x) (l : List Host.Cell) :
    (h.storeCells l).mscratch = h.mscratch := congrArg (fun k => k.mscratch) (storeCells_eq h l)
@[simp] theorem storeCells_mepc (h : Hart x) (l : List Host.Cell) :
    (h.storeCells l).mepc = h.mepc := congrArg (fun k => k.mepc) (storeCells_eq h l)
@[simp] theorem storeCells_mcause (h : Hart x) (l : List Host.Cell) :
    (h.storeCells l).mcause = h.mcause := congrArg (fun k => k.mcause) (storeCells_eq h l)
@[simp] theorem storeCells_mtval (h : Hart x) (l : List Host.Cell) :
    (h.storeCells l).mtval = h.mtval := congrArg (fun k => k.mtval) (storeCells_eq h l)
@[simp] theorem storeCells_stvec (h : Hart x) (l : List Host.Cell) :
    (h.storeCells l).stvec = h.stvec := congrArg (fun k => k.stvec) (storeCells_eq h l)
@[simp] theorem storeCells_sscratch (h : Hart x) (l : List Host.Cell) :
    (h.storeCells l).sscratch = h.sscratch := congrArg (fun k => k.sscratch) (storeCells_eq h l)
@[simp] theorem storeCells_sepc (h : Hart x) (l : List Host.Cell) :
    (h.storeCells l).sepc = h.sepc := congrArg (fun k => k.sepc) (storeCells_eq h l)
@[simp] theorem storeCells_scause (h : Hart x) (l : List Host.Cell) :
    (h.storeCells l).scause = h.scause := congrArg (fun k => k.scause) (storeCells_eq h l)
@[simp] theorem storeCells_stval (h : Hart x) (l : List Host.Cell) :
    (h.storeCells l).stval = h.stval := congrArg (fun k => k.stval) (storeCells_eq h l)
@[simp] theorem storeCells_waiting (h : Hart x) (l : List Host.Cell) :
    (h.storeCells l).waiting = h.waiting := congrArg (fun k => k.waiting) (storeCells_eq h l)
@[simp] theorem storeCells_ioLog (h : Hart x) (l : List Host.Cell) :
    (h.storeCells l).ioLog = h.ioLog := congrArg (fun k => k.ioLog) (storeCells_eq h l)
@[simp] theorem storeCells_now (h : Hart x) (l : List Host.Cell) :
    (h.storeCells l).now = h.now := congrArg (fun k => k.now) (storeCells_eq h l)
@[simp] theorem storeCells_env (h : Hart x) (l : List Host.Cell) :
    (h.storeCells l).env = h.env := congrArg (fun k => k.env) (storeCells_eq h l)
@[simp] theorem storeCells_steps (h : Hart x) (l : List Host.Cell) :
    (h.storeCells l).steps = h.steps := congrArg (fun k => k.steps) (storeCells_eq h l)
@[simp] theorem storeCells_readX (h : Hart x) (l : List Host.Cell) (j : Reg) :
    (h.storeCells l).readX j = h.readX j := by
  simp only [Hart.readX, storeCells_xs]
@[simp] theorem storeCells_regionAt (h : Hart x) (l : List Host.Cell) (p : Nat) :
    (h.storeCells l).regionAt p = h.regionAt p := by
  simp only [Hart.regionAt, storeCells_cfg]
@[simp] theorem storeCells_sharedAt (h : Hart x) (l : List Host.Cell) (p : Nat) :
    (h.storeCells l).sharedAt p = h.sharedAt p := by
  simp only [Hart.sharedAt, storeCells_cfg]

@[simp] theorem agentByte_cfg (h : Hart x) (a : Nat) (b : Byte) : (h.agentByte a b).cfg = h.cfg := by
  unfold Hart.agentByte; split <;> rfl
@[simp] theorem agentByte_xs (h : Hart x) (a : Nat) (b : Byte) : (h.agentByte a b).xs = h.xs := by
  unfold Hart.agentByte; split <;> rfl
@[simp] theorem agentByte_pc (h : Hart x) (a : Nat) (b : Byte) : (h.agentByte a b).pc = h.pc := by
  unfold Hart.agentByte; split <;> rfl
@[simp] theorem agentByte_priv (h : Hart x) (a : Nat) (b : Byte) : (h.agentByte a b).priv = h.priv := by
  unfold Hart.agentByte; split <;> rfl
@[simp] theorem agentByte_mstatus (h : Hart x) (a : Nat) (b : Byte) : (h.agentByte a b).mstatus = h.mstatus := by
  unfold Hart.agentByte; split <;> rfl
@[simp] theorem agentByte_medeleg (h : Hart x) (a : Nat) (b : Byte) : (h.agentByte a b).medeleg = h.medeleg := by
  unfold Hart.agentByte; split <;> rfl
@[simp] theorem agentByte_mideleg (h : Hart x) (a : Nat) (b : Byte) : (h.agentByte a b).mideleg = h.mideleg := by
  unfold Hart.agentByte; split <;> rfl
@[simp] theorem agentByte_mie (h : Hart x) (a : Nat) (b : Byte) : (h.agentByte a b).mie = h.mie := by
  unfold Hart.agentByte; split <;> rfl
@[simp] theorem agentByte_mipSoft (h : Hart x) (a : Nat) (b : Byte) : (h.agentByte a b).mipSoft = h.mipSoft := by
  unfold Hart.agentByte; split <;> rfl
@[simp] theorem agentByte_mtvec (h : Hart x) (a : Nat) (b : Byte) : (h.agentByte a b).mtvec = h.mtvec := by
  unfold Hart.agentByte; split <;> rfl
@[simp] theorem agentByte_mscratch (h : Hart x) (a : Nat) (b : Byte) : (h.agentByte a b).mscratch = h.mscratch := by
  unfold Hart.agentByte; split <;> rfl
@[simp] theorem agentByte_mepc (h : Hart x) (a : Nat) (b : Byte) : (h.agentByte a b).mepc = h.mepc := by
  unfold Hart.agentByte; split <;> rfl
@[simp] theorem agentByte_mcause (h : Hart x) (a : Nat) (b : Byte) : (h.agentByte a b).mcause = h.mcause := by
  unfold Hart.agentByte; split <;> rfl
@[simp] theorem agentByte_mtval (h : Hart x) (a : Nat) (b : Byte) : (h.agentByte a b).mtval = h.mtval := by
  unfold Hart.agentByte; split <;> rfl
@[simp] theorem agentByte_stvec (h : Hart x) (a : Nat) (b : Byte) : (h.agentByte a b).stvec = h.stvec := by
  unfold Hart.agentByte; split <;> rfl
@[simp] theorem agentByte_sscratch (h : Hart x) (a : Nat) (b : Byte) : (h.agentByte a b).sscratch = h.sscratch := by
  unfold Hart.agentByte; split <;> rfl
@[simp] theorem agentByte_sepc (h : Hart x) (a : Nat) (b : Byte) : (h.agentByte a b).sepc = h.sepc := by
  unfold Hart.agentByte; split <;> rfl
@[simp] theorem agentByte_scause (h : Hart x) (a : Nat) (b : Byte) : (h.agentByte a b).scause = h.scause := by
  unfold Hart.agentByte; split <;> rfl
@[simp] theorem agentByte_stval (h : Hart x) (a : Nat) (b : Byte) : (h.agentByte a b).stval = h.stval := by
  unfold Hart.agentByte; split <;> rfl
@[simp] theorem agentByte_waiting (h : Hart x) (a : Nat) (b : Byte) : (h.agentByte a b).waiting = h.waiting := by
  unfold Hart.agentByte; split <;> rfl
@[simp] theorem agentByte_ioLog (h : Hart x) (a : Nat) (b : Byte) : (h.agentByte a b).ioLog = h.ioLog := by
  unfold Hart.agentByte; split <;> rfl
@[simp] theorem agentByte_now (h : Hart x) (a : Nat) (b : Byte) : (h.agentByte a b).now = h.now := by
  unfold Hart.agentByte; split <;> rfl
@[simp] theorem agentByte_env (h : Hart x) (a : Nat) (b : Byte) : (h.agentByte a b).env = h.env := by
  unfold Hart.agentByte; split <;> rfl
@[simp] theorem agentByte_steps (h : Hart x) (a : Nat) (b : Byte) : (h.agentByte a b).steps = h.steps := by
  unfold Hart.agentByte; split <;> rfl
@[simp] theorem agentByte_readX (h : Hart x) (a : Nat) (b : Byte) (j : Reg) :
    (h.agentByte a b).readX j = h.readX j := by
  simp only [Hart.readX, agentByte_xs]
@[simp] theorem agentByte_regionAt (h : Hart x) (a : Nat) (b : Byte) (p : Nat) :
    (h.agentByte a b).regionAt p = h.regionAt p := by
  simp only [Hart.regionAt, agentByte_cfg]
@[simp] theorem agentByte_sharedAt (h : Hart x) (a : Nat) (b : Byte) (p : Nat) :
    (h.agentByte a b).sharedAt p = h.sharedAt p := by
  simp only [Hart.sharedAt, agentByte_cfg]

/-- The bytes written change the memory and the history only. -/
theorem agentCells_eq (h : Hart x) (l : List Host.Cell) :
    h.agentCells l = { h with mem := (h.agentCells l).mem, history := (h.agentCells l).history } := by
  induction l generalizing h with
  | nil => rfl
  | cons c rest ih => rw [Hart.agentCells, ih]; simp

@[simp] theorem agentCells_cfg (h : Hart x) (l : List Host.Cell) :
    (h.agentCells l).cfg = h.cfg := congrArg (fun k => k.cfg) (agentCells_eq h l)
@[simp] theorem agentCells_xs (h : Hart x) (l : List Host.Cell) :
    (h.agentCells l).xs = h.xs := congrArg (fun k => k.xs) (agentCells_eq h l)
@[simp] theorem agentCells_pc (h : Hart x) (l : List Host.Cell) :
    (h.agentCells l).pc = h.pc := congrArg (fun k => k.pc) (agentCells_eq h l)
@[simp] theorem agentCells_priv (h : Hart x) (l : List Host.Cell) :
    (h.agentCells l).priv = h.priv := congrArg (fun k => k.priv) (agentCells_eq h l)
@[simp] theorem agentCells_mstatus (h : Hart x) (l : List Host.Cell) :
    (h.agentCells l).mstatus = h.mstatus := congrArg (fun k => k.mstatus) (agentCells_eq h l)
@[simp] theorem agentCells_medeleg (h : Hart x) (l : List Host.Cell) :
    (h.agentCells l).medeleg = h.medeleg := congrArg (fun k => k.medeleg) (agentCells_eq h l)
@[simp] theorem agentCells_mideleg (h : Hart x) (l : List Host.Cell) :
    (h.agentCells l).mideleg = h.mideleg := congrArg (fun k => k.mideleg) (agentCells_eq h l)
@[simp] theorem agentCells_mie (h : Hart x) (l : List Host.Cell) :
    (h.agentCells l).mie = h.mie := congrArg (fun k => k.mie) (agentCells_eq h l)
@[simp] theorem agentCells_mipSoft (h : Hart x) (l : List Host.Cell) :
    (h.agentCells l).mipSoft = h.mipSoft := congrArg (fun k => k.mipSoft) (agentCells_eq h l)
@[simp] theorem agentCells_mtvec (h : Hart x) (l : List Host.Cell) :
    (h.agentCells l).mtvec = h.mtvec := congrArg (fun k => k.mtvec) (agentCells_eq h l)
@[simp] theorem agentCells_mscratch (h : Hart x) (l : List Host.Cell) :
    (h.agentCells l).mscratch = h.mscratch := congrArg (fun k => k.mscratch) (agentCells_eq h l)
@[simp] theorem agentCells_mepc (h : Hart x) (l : List Host.Cell) :
    (h.agentCells l).mepc = h.mepc := congrArg (fun k => k.mepc) (agentCells_eq h l)
@[simp] theorem agentCells_mcause (h : Hart x) (l : List Host.Cell) :
    (h.agentCells l).mcause = h.mcause := congrArg (fun k => k.mcause) (agentCells_eq h l)
@[simp] theorem agentCells_mtval (h : Hart x) (l : List Host.Cell) :
    (h.agentCells l).mtval = h.mtval := congrArg (fun k => k.mtval) (agentCells_eq h l)
@[simp] theorem agentCells_stvec (h : Hart x) (l : List Host.Cell) :
    (h.agentCells l).stvec = h.stvec := congrArg (fun k => k.stvec) (agentCells_eq h l)
@[simp] theorem agentCells_sscratch (h : Hart x) (l : List Host.Cell) :
    (h.agentCells l).sscratch = h.sscratch := congrArg (fun k => k.sscratch) (agentCells_eq h l)
@[simp] theorem agentCells_sepc (h : Hart x) (l : List Host.Cell) :
    (h.agentCells l).sepc = h.sepc := congrArg (fun k => k.sepc) (agentCells_eq h l)
@[simp] theorem agentCells_scause (h : Hart x) (l : List Host.Cell) :
    (h.agentCells l).scause = h.scause := congrArg (fun k => k.scause) (agentCells_eq h l)
@[simp] theorem agentCells_stval (h : Hart x) (l : List Host.Cell) :
    (h.agentCells l).stval = h.stval := congrArg (fun k => k.stval) (agentCells_eq h l)
@[simp] theorem agentCells_waiting (h : Hart x) (l : List Host.Cell) :
    (h.agentCells l).waiting = h.waiting := congrArg (fun k => k.waiting) (agentCells_eq h l)
@[simp] theorem agentCells_ioLog (h : Hart x) (l : List Host.Cell) :
    (h.agentCells l).ioLog = h.ioLog := congrArg (fun k => k.ioLog) (agentCells_eq h l)
@[simp] theorem agentCells_now (h : Hart x) (l : List Host.Cell) :
    (h.agentCells l).now = h.now := congrArg (fun k => k.now) (agentCells_eq h l)
@[simp] theorem agentCells_env (h : Hart x) (l : List Host.Cell) :
    (h.agentCells l).env = h.env := congrArg (fun k => k.env) (agentCells_eq h l)
@[simp] theorem agentCells_steps (h : Hart x) (l : List Host.Cell) :
    (h.agentCells l).steps = h.steps := congrArg (fun k => k.steps) (agentCells_eq h l)
@[simp] theorem agentCells_readX (h : Hart x) (l : List Host.Cell) (j : Reg) :
    (h.agentCells l).readX j = h.readX j := by
  simp only [Hart.readX, agentCells_xs]
@[simp] theorem agentCells_regionAt (h : Hart x) (l : List Host.Cell) (p : Nat) :
    (h.agentCells l).regionAt p = h.regionAt p := by
  simp only [Hart.regionAt, agentCells_cfg]
@[simp] theorem agentCells_sharedAt (h : Hart x) (l : List Host.Cell) (p : Nat) :
    (h.agentCells l).sharedAt p = h.sharedAt p := by
  simp only [Hart.sharedAt, agentCells_cfg]

theorem sharedAt_false {h : Hart x} (hs : h.cfg.regions.any RegionRange.shared = false) (a : Nat) : h.sharedAt a = false := by
  unfold Hart.sharedAt
  generalize h.cfg.regions = l at hs
  induction l with
  | nil => rfl
  | cons r rest ih =>
    rw [List.any_cons, Bool.or_eq_false_iff] at hs
    unfold rangeAt
    cases RegionRange.covers r a
    · exact ih hs.2
    · simp [hs.1]

/-- The test before other agents' writes changes nothing: without a shared range every one of them is dropped. -/
@[simp] theorem agentWrites_eq (h : Hart x) (l : List Host.Cell) : h.agentWrites l = h.agentCells l := by
  unfold Hart.agentWrites
  split
  · rfl
  · rename_i hs
    rw [Bool.not_eq_true] at hs
    induction l with
    | nil => rfl
    | cons c rest ih => rw [Hart.agentCells, Hart.agentByte, sharedAt_false hs]; exact ih

@[simp] theorem syncFetch_cfg (h : Hart x) : (h.syncFetch).cfg = h.cfg := rfl
@[simp] theorem syncFetch_xs (h : Hart x) : (h.syncFetch).xs = h.xs := rfl
@[simp] theorem syncFetch_pc (h : Hart x) : (h.syncFetch).pc = h.pc := rfl
@[simp] theorem syncFetch_priv (h : Hart x) : (h.syncFetch).priv = h.priv := rfl
@[simp] theorem syncFetch_mstatus (h : Hart x) : (h.syncFetch).mstatus = h.mstatus := rfl
@[simp] theorem syncFetch_medeleg (h : Hart x) : (h.syncFetch).medeleg = h.medeleg := rfl
@[simp] theorem syncFetch_mideleg (h : Hart x) : (h.syncFetch).mideleg = h.mideleg := rfl
@[simp] theorem syncFetch_mie (h : Hart x) : (h.syncFetch).mie = h.mie := rfl
@[simp] theorem syncFetch_mipSoft (h : Hart x) : (h.syncFetch).mipSoft = h.mipSoft := rfl
@[simp] theorem syncFetch_mtvec (h : Hart x) : (h.syncFetch).mtvec = h.mtvec := rfl
@[simp] theorem syncFetch_mscratch (h : Hart x) : (h.syncFetch).mscratch = h.mscratch := rfl
@[simp] theorem syncFetch_mepc (h : Hart x) : (h.syncFetch).mepc = h.mepc := rfl
@[simp] theorem syncFetch_mcause (h : Hart x) : (h.syncFetch).mcause = h.mcause := rfl
@[simp] theorem syncFetch_mtval (h : Hart x) : (h.syncFetch).mtval = h.mtval := rfl
@[simp] theorem syncFetch_stvec (h : Hart x) : (h.syncFetch).stvec = h.stvec := rfl
@[simp] theorem syncFetch_sscratch (h : Hart x) : (h.syncFetch).sscratch = h.sscratch := rfl
@[simp] theorem syncFetch_sepc (h : Hart x) : (h.syncFetch).sepc = h.sepc := rfl
@[simp] theorem syncFetch_scause (h : Hart x) : (h.syncFetch).scause = h.scause := rfl
@[simp] theorem syncFetch_stval (h : Hart x) : (h.syncFetch).stval = h.stval := rfl
@[simp] theorem syncFetch_waiting (h : Hart x) : (h.syncFetch).waiting = h.waiting := rfl
@[simp] theorem syncFetch_mem (h : Hart x) : (h.syncFetch).mem = h.mem := rfl
@[simp] theorem syncFetch_history (h : Hart x) : (h.syncFetch).history = [] := rfl
@[simp] theorem syncFetch_ioLog (h : Hart x) : (h.syncFetch).ioLog = h.ioLog := rfl
@[simp] theorem syncFetch_now (h : Hart x) : (h.syncFetch).now = h.now := rfl
@[simp] theorem syncFetch_env (h : Hart x) : (h.syncFetch).env = h.env := rfl
@[simp] theorem syncFetch_steps (h : Hart x) : (h.syncFetch).steps = h.steps := rfl
@[simp] theorem syncFetch_readX (h : Hart x) (j : Reg) : (h.syncFetch).readX j = h.readX j := by
  simp only [Hart.readX, syncFetch_xs]
@[simp] theorem syncFetch_regionAt (h : Hart x) (p : Nat) : (h.syncFetch).regionAt p = h.regionAt p := by
  simp only [Hart.regionAt, syncFetch_cfg]
@[simp] theorem syncFetch_sharedAt (h : Hart x) (p : Nat) : (h.syncFetch).sharedAt p = h.sharedAt p := by
  simp only [Hart.sharedAt, syncFetch_cfg]

@[simp] theorem loadByte_cfg (h : Hart x) (a : Nat) (b : Byte) : (h.loadByte a b).cfg = h.cfg := rfl
@[simp] theorem loadByte_xs (h : Hart x) (a : Nat) (b : Byte) : (h.loadByte a b).xs = h.xs := rfl
@[simp] theorem loadByte_pc (h : Hart x) (a : Nat) (b : Byte) : (h.loadByte a b).pc = h.pc := rfl
@[simp] theorem loadByte_priv (h : Hart x) (a : Nat) (b : Byte) : (h.loadByte a b).priv = h.priv := rfl
@[simp] theorem loadByte_mstatus (h : Hart x) (a : Nat) (b : Byte) : (h.loadByte a b).mstatus = h.mstatus := rfl
@[simp] theorem loadByte_medeleg (h : Hart x) (a : Nat) (b : Byte) : (h.loadByte a b).medeleg = h.medeleg := rfl
@[simp] theorem loadByte_mideleg (h : Hart x) (a : Nat) (b : Byte) : (h.loadByte a b).mideleg = h.mideleg := rfl
@[simp] theorem loadByte_mie (h : Hart x) (a : Nat) (b : Byte) : (h.loadByte a b).mie = h.mie := rfl
@[simp] theorem loadByte_mipSoft (h : Hart x) (a : Nat) (b : Byte) : (h.loadByte a b).mipSoft = h.mipSoft := rfl
@[simp] theorem loadByte_mtvec (h : Hart x) (a : Nat) (b : Byte) : (h.loadByte a b).mtvec = h.mtvec := rfl
@[simp] theorem loadByte_mscratch (h : Hart x) (a : Nat) (b : Byte) : (h.loadByte a b).mscratch = h.mscratch := rfl
@[simp] theorem loadByte_mepc (h : Hart x) (a : Nat) (b : Byte) : (h.loadByte a b).mepc = h.mepc := rfl
@[simp] theorem loadByte_mcause (h : Hart x) (a : Nat) (b : Byte) : (h.loadByte a b).mcause = h.mcause := rfl
@[simp] theorem loadByte_mtval (h : Hart x) (a : Nat) (b : Byte) : (h.loadByte a b).mtval = h.mtval := rfl
@[simp] theorem loadByte_stvec (h : Hart x) (a : Nat) (b : Byte) : (h.loadByte a b).stvec = h.stvec := rfl
@[simp] theorem loadByte_sscratch (h : Hart x) (a : Nat) (b : Byte) : (h.loadByte a b).sscratch = h.sscratch := rfl
@[simp] theorem loadByte_sepc (h : Hart x) (a : Nat) (b : Byte) : (h.loadByte a b).sepc = h.sepc := rfl
@[simp] theorem loadByte_scause (h : Hart x) (a : Nat) (b : Byte) : (h.loadByte a b).scause = h.scause := rfl
@[simp] theorem loadByte_stval (h : Hart x) (a : Nat) (b : Byte) : (h.loadByte a b).stval = h.stval := rfl
@[simp] theorem loadByte_waiting (h : Hart x) (a : Nat) (b : Byte) : (h.loadByte a b).waiting = h.waiting := rfl
@[simp] theorem loadByte_mem (h : Hart x) (a : Nat) (b : Byte) : (h.loadByte a b).mem = Memory.write h.mem a b := rfl
@[simp] theorem loadByte_history (h : Hart x) (a : Nat) (b : Byte) : (h.loadByte a b).history = removeAt h.history a := rfl
@[simp] theorem loadByte_ioLog (h : Hart x) (a : Nat) (b : Byte) : (h.loadByte a b).ioLog = h.ioLog := rfl
@[simp] theorem loadByte_now (h : Hart x) (a : Nat) (b : Byte) : (h.loadByte a b).now = h.now := rfl
@[simp] theorem loadByte_env (h : Hart x) (a : Nat) (b : Byte) : (h.loadByte a b).env = h.env := rfl
@[simp] theorem loadByte_steps (h : Hart x) (a : Nat) (b : Byte) : (h.loadByte a b).steps = h.steps := rfl
@[simp] theorem loadByte_readX (h : Hart x) (a : Nat) (b : Byte) (j : Reg) :
    (h.loadByte a b).readX j = h.readX j := by
  simp only [Hart.readX, loadByte_xs]
@[simp] theorem loadByte_regionAt (h : Hart x) (a : Nat) (b : Byte) (p : Nat) :
    (h.loadByte a b).regionAt p = h.regionAt p := by
  simp only [Hart.regionAt, loadByte_cfg]
@[simp] theorem loadByte_sharedAt (h : Hart x) (a : Nat) (b : Byte) (p : Nat) :
    (h.loadByte a b).sharedAt p = h.sharedAt p := by
  simp only [Hart.sharedAt, loadByte_cfg]

/-! ### Traps -/

@[simp] theorem enterTrapM_cfg (h : Hart x) (i : Bool) (c : Nat) (t e : XWord x) :
    (h.enterTrapM i c t e).cfg = h.cfg := rfl
@[simp] theorem enterTrapM_xs (h : Hart x) (i : Bool) (c : Nat) (t e : XWord x) :
    (h.enterTrapM i c t e).xs = h.xs := rfl
@[simp] theorem enterTrapM_pc (h : Hart x) (i : Bool) (c : Nat) (t e : XWord x) :
    (h.enterTrapM i c t e).pc = trapTarget h.mtvec i c := rfl
@[simp] theorem enterTrapM_priv (h : Hart x) (i : Bool) (c : Nat) (t e : XWord x) :
    (h.enterTrapM i c t e).priv = .m := rfl
@[simp] theorem enterTrapM_mstatus (h : Hart x) (i : Bool) (c : Nat) (t e : XWord x) :
    (h.enterTrapM i c t e).mstatus = { h.mstatus with mpie := h.mstatus.mie, mie := false, mpp := h.priv } := rfl
@[simp] theorem enterTrapM_medeleg (h : Hart x) (i : Bool) (c : Nat) (t e : XWord x) :
    (h.enterTrapM i c t e).medeleg = h.medeleg := rfl
@[simp] theorem enterTrapM_mideleg (h : Hart x) (i : Bool) (c : Nat) (t e : XWord x) :
    (h.enterTrapM i c t e).mideleg = h.mideleg := rfl
@[simp] theorem enterTrapM_mie (h : Hart x) (i : Bool) (c : Nat) (t e : XWord x) :
    (h.enterTrapM i c t e).mie = h.mie := rfl
@[simp] theorem enterTrapM_mipSoft (h : Hart x) (i : Bool) (c : Nat) (t e : XWord x) :
    (h.enterTrapM i c t e).mipSoft = h.mipSoft := rfl
@[simp] theorem enterTrapM_mtvec (h : Hart x) (i : Bool) (c : Nat) (t e : XWord x) :
    (h.enterTrapM i c t e).mtvec = h.mtvec := rfl
@[simp] theorem enterTrapM_mscratch (h : Hart x) (i : Bool) (c : Nat) (t e : XWord x) :
    (h.enterTrapM i c t e).mscratch = h.mscratch := rfl
@[simp] theorem enterTrapM_mepc (h : Hart x) (i : Bool) (c : Nat) (t e : XWord x) :
    (h.enterTrapM i c t e).mepc = e := rfl
@[simp] theorem enterTrapM_mcause (h : Hart x) (i : Bool) (c : Nat) (t e : XWord x) :
    (h.enterTrapM i c t e).mcause = causeWord x i c := rfl
@[simp] theorem enterTrapM_mtval (h : Hart x) (i : Bool) (c : Nat) (t e : XWord x) :
    (h.enterTrapM i c t e).mtval = t := rfl
@[simp] theorem enterTrapM_stvec (h : Hart x) (i : Bool) (c : Nat) (t e : XWord x) :
    (h.enterTrapM i c t e).stvec = h.stvec := rfl
@[simp] theorem enterTrapM_sscratch (h : Hart x) (i : Bool) (c : Nat) (t e : XWord x) :
    (h.enterTrapM i c t e).sscratch = h.sscratch := rfl
@[simp] theorem enterTrapM_sepc (h : Hart x) (i : Bool) (c : Nat) (t e : XWord x) :
    (h.enterTrapM i c t e).sepc = h.sepc := rfl
@[simp] theorem enterTrapM_scause (h : Hart x) (i : Bool) (c : Nat) (t e : XWord x) :
    (h.enterTrapM i c t e).scause = h.scause := rfl
@[simp] theorem enterTrapM_stval (h : Hart x) (i : Bool) (c : Nat) (t e : XWord x) :
    (h.enterTrapM i c t e).stval = h.stval := rfl
@[simp] theorem enterTrapM_waiting (h : Hart x) (i : Bool) (c : Nat) (t e : XWord x) :
    (h.enterTrapM i c t e).waiting = false := rfl
@[simp] theorem enterTrapM_mem (h : Hart x) (i : Bool) (c : Nat) (t e : XWord x) :
    (h.enterTrapM i c t e).mem = h.mem := rfl
@[simp] theorem enterTrapM_history (h : Hart x) (i : Bool) (c : Nat) (t e : XWord x) :
    (h.enterTrapM i c t e).history = h.history := rfl
@[simp] theorem enterTrapM_ioLog (h : Hart x) (i : Bool) (c : Nat) (t e : XWord x) :
    (h.enterTrapM i c t e).ioLog = h.ioLog := rfl
@[simp] theorem enterTrapM_now (h : Hart x) (i : Bool) (c : Nat) (t e : XWord x) :
    (h.enterTrapM i c t e).now = h.now := rfl
@[simp] theorem enterTrapM_env (h : Hart x) (i : Bool) (c : Nat) (t e : XWord x) :
    (h.enterTrapM i c t e).env = h.env := rfl
@[simp] theorem enterTrapM_steps (h : Hart x) (i : Bool) (c : Nat) (t e : XWord x) :
    (h.enterTrapM i c t e).steps = h.steps := rfl
@[simp] theorem enterTrapM_readX (h : Hart x) (i : Bool) (c : Nat) (t e : XWord x) (j : Reg) :
    (h.enterTrapM i c t e).readX j = h.readX j := by
  simp only [Hart.readX, enterTrapM_xs]
@[simp] theorem enterTrapM_regionAt (h : Hart x) (i : Bool) (c : Nat) (t e : XWord x) (p : Nat) :
    (h.enterTrapM i c t e).regionAt p = h.regionAt p := by
  simp only [Hart.regionAt, enterTrapM_cfg]
@[simp] theorem enterTrapM_sharedAt (h : Hart x) (i : Bool) (c : Nat) (t e : XWord x) (p : Nat) :
    (h.enterTrapM i c t e).sharedAt p = h.sharedAt p := by
  simp only [Hart.sharedAt, enterTrapM_cfg]

@[simp] theorem enterTrapS_cfg (h : Hart x) (i : Bool) (c : Nat) (t e : XWord x) :
    (h.enterTrapS i c t e).cfg = h.cfg := rfl
@[simp] theorem enterTrapS_xs (h : Hart x) (i : Bool) (c : Nat) (t e : XWord x) :
    (h.enterTrapS i c t e).xs = h.xs := rfl
@[simp] theorem enterTrapS_pc (h : Hart x) (i : Bool) (c : Nat) (t e : XWord x) :
    (h.enterTrapS i c t e).pc = trapTarget h.stvec i c := rfl
@[simp] theorem enterTrapS_priv (h : Hart x) (i : Bool) (c : Nat) (t e : XWord x) :
    (h.enterTrapS i c t e).priv = .s := rfl
@[simp] theorem enterTrapS_mstatus (h : Hart x) (i : Bool) (c : Nat) (t e : XWord x) :
    (h.enterTrapS i c t e).mstatus =
      { h.mstatus with spie := h.mstatus.sie, sie := false, spp := Priv.isS h.priv } := rfl
@[simp] theorem enterTrapS_medeleg (h : Hart x) (i : Bool) (c : Nat) (t e : XWord x) :
    (h.enterTrapS i c t e).medeleg = h.medeleg := rfl
@[simp] theorem enterTrapS_mideleg (h : Hart x) (i : Bool) (c : Nat) (t e : XWord x) :
    (h.enterTrapS i c t e).mideleg = h.mideleg := rfl
@[simp] theorem enterTrapS_mie (h : Hart x) (i : Bool) (c : Nat) (t e : XWord x) :
    (h.enterTrapS i c t e).mie = h.mie := rfl
@[simp] theorem enterTrapS_mipSoft (h : Hart x) (i : Bool) (c : Nat) (t e : XWord x) :
    (h.enterTrapS i c t e).mipSoft = h.mipSoft := rfl
@[simp] theorem enterTrapS_mtvec (h : Hart x) (i : Bool) (c : Nat) (t e : XWord x) :
    (h.enterTrapS i c t e).mtvec = h.mtvec := rfl
@[simp] theorem enterTrapS_mscratch (h : Hart x) (i : Bool) (c : Nat) (t e : XWord x) :
    (h.enterTrapS i c t e).mscratch = h.mscratch := rfl
@[simp] theorem enterTrapS_mepc (h : Hart x) (i : Bool) (c : Nat) (t e : XWord x) :
    (h.enterTrapS i c t e).mepc = h.mepc := rfl
@[simp] theorem enterTrapS_mcause (h : Hart x) (i : Bool) (c : Nat) (t e : XWord x) :
    (h.enterTrapS i c t e).mcause = h.mcause := rfl
@[simp] theorem enterTrapS_mtval (h : Hart x) (i : Bool) (c : Nat) (t e : XWord x) :
    (h.enterTrapS i c t e).mtval = h.mtval := rfl
@[simp] theorem enterTrapS_stvec (h : Hart x) (i : Bool) (c : Nat) (t e : XWord x) :
    (h.enterTrapS i c t e).stvec = h.stvec := rfl
@[simp] theorem enterTrapS_sscratch (h : Hart x) (i : Bool) (c : Nat) (t e : XWord x) :
    (h.enterTrapS i c t e).sscratch = h.sscratch := rfl
@[simp] theorem enterTrapS_sepc (h : Hart x) (i : Bool) (c : Nat) (t e : XWord x) :
    (h.enterTrapS i c t e).sepc = e := rfl
@[simp] theorem enterTrapS_scause (h : Hart x) (i : Bool) (c : Nat) (t e : XWord x) :
    (h.enterTrapS i c t e).scause = causeWord x i c := rfl
@[simp] theorem enterTrapS_stval (h : Hart x) (i : Bool) (c : Nat) (t e : XWord x) :
    (h.enterTrapS i c t e).stval = t := rfl
@[simp] theorem enterTrapS_waiting (h : Hart x) (i : Bool) (c : Nat) (t e : XWord x) :
    (h.enterTrapS i c t e).waiting = false := rfl
@[simp] theorem enterTrapS_mem (h : Hart x) (i : Bool) (c : Nat) (t e : XWord x) :
    (h.enterTrapS i c t e).mem = h.mem := rfl
@[simp] theorem enterTrapS_history (h : Hart x) (i : Bool) (c : Nat) (t e : XWord x) :
    (h.enterTrapS i c t e).history = h.history := rfl
@[simp] theorem enterTrapS_ioLog (h : Hart x) (i : Bool) (c : Nat) (t e : XWord x) :
    (h.enterTrapS i c t e).ioLog = h.ioLog := rfl
@[simp] theorem enterTrapS_now (h : Hart x) (i : Bool) (c : Nat) (t e : XWord x) :
    (h.enterTrapS i c t e).now = h.now := rfl
@[simp] theorem enterTrapS_env (h : Hart x) (i : Bool) (c : Nat) (t e : XWord x) :
    (h.enterTrapS i c t e).env = h.env := rfl
@[simp] theorem enterTrapS_steps (h : Hart x) (i : Bool) (c : Nat) (t e : XWord x) :
    (h.enterTrapS i c t e).steps = h.steps := rfl
@[simp] theorem enterTrapS_readX (h : Hart x) (i : Bool) (c : Nat) (t e : XWord x) (j : Reg) :
    (h.enterTrapS i c t e).readX j = h.readX j := by
  simp only [Hart.readX, enterTrapS_xs]
@[simp] theorem enterTrapS_regionAt (h : Hart x) (i : Bool) (c : Nat) (t e : XWord x) (p : Nat) :
    (h.enterTrapS i c t e).regionAt p = h.regionAt p := by
  simp only [Hart.regionAt, enterTrapS_cfg]
@[simp] theorem enterTrapS_sharedAt (h : Hart x) (i : Bool) (c : Nat) (t e : XWord x) (p : Nat) :
    (h.enterTrapS i c t e).sharedAt p = h.sharedAt p := by
  simp only [Hart.sharedAt, enterTrapS_cfg]

@[simp] theorem trapReturnM_cfg (h : Hart x) : (h.trapReturnM).cfg = h.cfg := rfl
@[simp] theorem trapReturnM_xs (h : Hart x) : (h.trapReturnM).xs = h.xs := rfl
@[simp] theorem trapReturnM_pc (h : Hart x) : (h.trapReturnM).pc = h.mepc := rfl
@[simp] theorem trapReturnM_priv (h : Hart x) : (h.trapReturnM).priv = h.mstatus.mpp := rfl
@[simp] theorem trapReturnM_mstatus (h : Hart x) : (h.trapReturnM).mstatus =
    { h.mstatus with mie := h.mstatus.mpie, mpie := true, mpp := if h.cfg.hasU then .u else .m } := rfl
@[simp] theorem trapReturnM_medeleg (h : Hart x) : (h.trapReturnM).medeleg = h.medeleg := rfl
@[simp] theorem trapReturnM_mideleg (h : Hart x) : (h.trapReturnM).mideleg = h.mideleg := rfl
@[simp] theorem trapReturnM_mie (h : Hart x) : (h.trapReturnM).mie = h.mie := rfl
@[simp] theorem trapReturnM_mipSoft (h : Hart x) : (h.trapReturnM).mipSoft = h.mipSoft := rfl
@[simp] theorem trapReturnM_mtvec (h : Hart x) : (h.trapReturnM).mtvec = h.mtvec := rfl
@[simp] theorem trapReturnM_mscratch (h : Hart x) : (h.trapReturnM).mscratch = h.mscratch := rfl
@[simp] theorem trapReturnM_mepc (h : Hart x) : (h.trapReturnM).mepc = h.mepc := rfl
@[simp] theorem trapReturnM_mcause (h : Hart x) : (h.trapReturnM).mcause = h.mcause := rfl
@[simp] theorem trapReturnM_mtval (h : Hart x) : (h.trapReturnM).mtval = h.mtval := rfl
@[simp] theorem trapReturnM_stvec (h : Hart x) : (h.trapReturnM).stvec = h.stvec := rfl
@[simp] theorem trapReturnM_sscratch (h : Hart x) : (h.trapReturnM).sscratch = h.sscratch := rfl
@[simp] theorem trapReturnM_sepc (h : Hart x) : (h.trapReturnM).sepc = h.sepc := rfl
@[simp] theorem trapReturnM_scause (h : Hart x) : (h.trapReturnM).scause = h.scause := rfl
@[simp] theorem trapReturnM_stval (h : Hart x) : (h.trapReturnM).stval = h.stval := rfl
@[simp] theorem trapReturnM_waiting (h : Hart x) : (h.trapReturnM).waiting = h.waiting := rfl
@[simp] theorem trapReturnM_mem (h : Hart x) : (h.trapReturnM).mem = h.mem := rfl
@[simp] theorem trapReturnM_history (h : Hart x) : (h.trapReturnM).history = h.history := rfl
@[simp] theorem trapReturnM_ioLog (h : Hart x) : (h.trapReturnM).ioLog = h.ioLog := rfl
@[simp] theorem trapReturnM_now (h : Hart x) : (h.trapReturnM).now = h.now := rfl
@[simp] theorem trapReturnM_env (h : Hart x) : (h.trapReturnM).env = h.env := rfl
@[simp] theorem trapReturnM_steps (h : Hart x) : (h.trapReturnM).steps = h.steps := rfl
@[simp] theorem trapReturnM_readX (h : Hart x) (j : Reg) : (h.trapReturnM).readX j = h.readX j := by
  simp only [Hart.readX, trapReturnM_xs]
@[simp] theorem trapReturnM_regionAt (h : Hart x) (p : Nat) : (h.trapReturnM).regionAt p = h.regionAt p := by
  simp only [Hart.regionAt, trapReturnM_cfg]
@[simp] theorem trapReturnM_sharedAt (h : Hart x) (p : Nat) : (h.trapReturnM).sharedAt p = h.sharedAt p := by
  simp only [Hart.sharedAt, trapReturnM_cfg]

@[simp] theorem trapReturnS_cfg (h : Hart x) : (h.trapReturnS).cfg = h.cfg := rfl
@[simp] theorem trapReturnS_xs (h : Hart x) : (h.trapReturnS).xs = h.xs := rfl
@[simp] theorem trapReturnS_pc (h : Hart x) : (h.trapReturnS).pc = h.sepc := rfl
@[simp] theorem trapReturnS_priv (h : Hart x) : (h.trapReturnS).priv = if h.mstatus.spp then .s else .u := rfl
@[simp] theorem trapReturnS_mstatus (h : Hart x) : (h.trapReturnS).mstatus =
    { h.mstatus with sie := h.mstatus.spie, spie := true, spp := false } := rfl
@[simp] theorem trapReturnS_medeleg (h : Hart x) : (h.trapReturnS).medeleg = h.medeleg := rfl
@[simp] theorem trapReturnS_mideleg (h : Hart x) : (h.trapReturnS).mideleg = h.mideleg := rfl
@[simp] theorem trapReturnS_mie (h : Hart x) : (h.trapReturnS).mie = h.mie := rfl
@[simp] theorem trapReturnS_mipSoft (h : Hart x) : (h.trapReturnS).mipSoft = h.mipSoft := rfl
@[simp] theorem trapReturnS_mtvec (h : Hart x) : (h.trapReturnS).mtvec = h.mtvec := rfl
@[simp] theorem trapReturnS_mscratch (h : Hart x) : (h.trapReturnS).mscratch = h.mscratch := rfl
@[simp] theorem trapReturnS_mepc (h : Hart x) : (h.trapReturnS).mepc = h.mepc := rfl
@[simp] theorem trapReturnS_mcause (h : Hart x) : (h.trapReturnS).mcause = h.mcause := rfl
@[simp] theorem trapReturnS_mtval (h : Hart x) : (h.trapReturnS).mtval = h.mtval := rfl
@[simp] theorem trapReturnS_stvec (h : Hart x) : (h.trapReturnS).stvec = h.stvec := rfl
@[simp] theorem trapReturnS_sscratch (h : Hart x) : (h.trapReturnS).sscratch = h.sscratch := rfl
@[simp] theorem trapReturnS_sepc (h : Hart x) : (h.trapReturnS).sepc = h.sepc := rfl
@[simp] theorem trapReturnS_scause (h : Hart x) : (h.trapReturnS).scause = h.scause := rfl
@[simp] theorem trapReturnS_stval (h : Hart x) : (h.trapReturnS).stval = h.stval := rfl
@[simp] theorem trapReturnS_waiting (h : Hart x) : (h.trapReturnS).waiting = h.waiting := rfl
@[simp] theorem trapReturnS_mem (h : Hart x) : (h.trapReturnS).mem = h.mem := rfl
@[simp] theorem trapReturnS_history (h : Hart x) : (h.trapReturnS).history = h.history := rfl
@[simp] theorem trapReturnS_ioLog (h : Hart x) : (h.trapReturnS).ioLog = h.ioLog := rfl
@[simp] theorem trapReturnS_now (h : Hart x) : (h.trapReturnS).now = h.now := rfl
@[simp] theorem trapReturnS_env (h : Hart x) : (h.trapReturnS).env = h.env := rfl
@[simp] theorem trapReturnS_steps (h : Hart x) : (h.trapReturnS).steps = h.steps := rfl
@[simp] theorem trapReturnS_readX (h : Hart x) (j : Reg) : (h.trapReturnS).readX j = h.readX j := by
  simp only [Hart.readX, trapReturnS_xs]
@[simp] theorem trapReturnS_regionAt (h : Hart x) (p : Nat) : (h.trapReturnS).regionAt p = h.regionAt p := by
  simp only [Hart.regionAt, trapReturnS_cfg]
@[simp] theorem trapReturnS_sharedAt (h : Hart x) (p : Nat) : (h.trapReturnS).sharedAt p = h.sharedAt p := by
  simp only [Hart.sharedAt, trapReturnS_cfg]

/-! ### Waiting -/

@[simp] theorem startWaiting_cfg (h : Hart x) : (h.startWaiting).cfg = h.cfg := rfl
@[simp] theorem startWaiting_xs (h : Hart x) : (h.startWaiting).xs = h.xs := rfl
@[simp] theorem startWaiting_pc (h : Hart x) : (h.startWaiting).pc = h.pc + 4 := rfl
@[simp] theorem startWaiting_priv (h : Hart x) : (h.startWaiting).priv = h.priv := rfl
@[simp] theorem startWaiting_mstatus (h : Hart x) : (h.startWaiting).mstatus = h.mstatus := rfl
@[simp] theorem startWaiting_medeleg (h : Hart x) : (h.startWaiting).medeleg = h.medeleg := rfl
@[simp] theorem startWaiting_mideleg (h : Hart x) : (h.startWaiting).mideleg = h.mideleg := rfl
@[simp] theorem startWaiting_mie (h : Hart x) : (h.startWaiting).mie = h.mie := rfl
@[simp] theorem startWaiting_mipSoft (h : Hart x) : (h.startWaiting).mipSoft = h.mipSoft := rfl
@[simp] theorem startWaiting_mtvec (h : Hart x) : (h.startWaiting).mtvec = h.mtvec := rfl
@[simp] theorem startWaiting_mscratch (h : Hart x) : (h.startWaiting).mscratch = h.mscratch := rfl
@[simp] theorem startWaiting_mepc (h : Hart x) : (h.startWaiting).mepc = h.mepc := rfl
@[simp] theorem startWaiting_mcause (h : Hart x) : (h.startWaiting).mcause = h.mcause := rfl
@[simp] theorem startWaiting_mtval (h : Hart x) : (h.startWaiting).mtval = h.mtval := rfl
@[simp] theorem startWaiting_stvec (h : Hart x) : (h.startWaiting).stvec = h.stvec := rfl
@[simp] theorem startWaiting_sscratch (h : Hart x) : (h.startWaiting).sscratch = h.sscratch := rfl
@[simp] theorem startWaiting_sepc (h : Hart x) : (h.startWaiting).sepc = h.sepc := rfl
@[simp] theorem startWaiting_scause (h : Hart x) : (h.startWaiting).scause = h.scause := rfl
@[simp] theorem startWaiting_stval (h : Hart x) : (h.startWaiting).stval = h.stval := rfl
@[simp] theorem startWaiting_waiting (h : Hart x) : (h.startWaiting).waiting = true := rfl
@[simp] theorem startWaiting_mem (h : Hart x) : (h.startWaiting).mem = h.mem := rfl
@[simp] theorem startWaiting_history (h : Hart x) : (h.startWaiting).history = h.history := rfl
@[simp] theorem startWaiting_ioLog (h : Hart x) : (h.startWaiting).ioLog = h.ioLog := rfl
@[simp] theorem startWaiting_now (h : Hart x) : (h.startWaiting).now = h.now := rfl
@[simp] theorem startWaiting_env (h : Hart x) : (h.startWaiting).env = h.env := rfl
@[simp] theorem startWaiting_steps (h : Hart x) : (h.startWaiting).steps = h.steps := rfl
@[simp] theorem startWaiting_readX (h : Hart x) (j : Reg) : (h.startWaiting).readX j = h.readX j := by
  simp only [Hart.readX, startWaiting_xs]
@[simp] theorem startWaiting_regionAt (h : Hart x) (p : Nat) : (h.startWaiting).regionAt p = h.regionAt p := by
  simp only [Hart.regionAt, startWaiting_cfg]
@[simp] theorem startWaiting_sharedAt (h : Hart x) (p : Nat) : (h.startWaiting).sharedAt p = h.sharedAt p := by
  simp only [Hart.sharedAt, startWaiting_cfg]

@[simp] theorem awake_cfg (h : Hart x) : (h.awake).cfg = h.cfg := rfl
@[simp] theorem awake_xs (h : Hart x) : (h.awake).xs = h.xs := rfl
@[simp] theorem awake_pc (h : Hart x) : (h.awake).pc = h.pc := rfl
@[simp] theorem awake_priv (h : Hart x) : (h.awake).priv = h.priv := rfl
@[simp] theorem awake_mstatus (h : Hart x) : (h.awake).mstatus = h.mstatus := rfl
@[simp] theorem awake_medeleg (h : Hart x) : (h.awake).medeleg = h.medeleg := rfl
@[simp] theorem awake_mideleg (h : Hart x) : (h.awake).mideleg = h.mideleg := rfl
@[simp] theorem awake_mie (h : Hart x) : (h.awake).mie = h.mie := rfl
@[simp] theorem awake_mipSoft (h : Hart x) : (h.awake).mipSoft = h.mipSoft := rfl
@[simp] theorem awake_mtvec (h : Hart x) : (h.awake).mtvec = h.mtvec := rfl
@[simp] theorem awake_mscratch (h : Hart x) : (h.awake).mscratch = h.mscratch := rfl
@[simp] theorem awake_mepc (h : Hart x) : (h.awake).mepc = h.mepc := rfl
@[simp] theorem awake_mcause (h : Hart x) : (h.awake).mcause = h.mcause := rfl
@[simp] theorem awake_mtval (h : Hart x) : (h.awake).mtval = h.mtval := rfl
@[simp] theorem awake_stvec (h : Hart x) : (h.awake).stvec = h.stvec := rfl
@[simp] theorem awake_sscratch (h : Hart x) : (h.awake).sscratch = h.sscratch := rfl
@[simp] theorem awake_sepc (h : Hart x) : (h.awake).sepc = h.sepc := rfl
@[simp] theorem awake_scause (h : Hart x) : (h.awake).scause = h.scause := rfl
@[simp] theorem awake_stval (h : Hart x) : (h.awake).stval = h.stval := rfl
@[simp] theorem awake_waiting (h : Hart x) : (h.awake).waiting = false := rfl
@[simp] theorem awake_mem (h : Hart x) : (h.awake).mem = h.mem := rfl
@[simp] theorem awake_history (h : Hart x) : (h.awake).history = h.history := rfl
@[simp] theorem awake_ioLog (h : Hart x) : (h.awake).ioLog = h.ioLog := rfl
@[simp] theorem awake_now (h : Hart x) : (h.awake).now = h.now := rfl
@[simp] theorem awake_env (h : Hart x) : (h.awake).env = h.env := rfl
@[simp] theorem awake_steps (h : Hart x) : (h.awake).steps = h.steps := rfl
@[simp] theorem awake_readX (h : Hart x) (j : Reg) : (h.awake).readX j = h.readX j := by
  simp only [Hart.readX, awake_xs]
@[simp] theorem awake_regionAt (h : Hart x) (p : Nat) : (h.awake).regionAt p = h.regionAt p := by
  simp only [Hart.regionAt, awake_cfg]
@[simp] theorem awake_sharedAt (h : Hart x) (p : Nat) : (h.awake).sharedAt p = h.sharedAt p := by
  simp only [Hart.sharedAt, awake_cfg]

/-! ### CSR writes: what none of them touches -/

@[simp] theorem csrWrite_cfg (h : Hart x) (c : Csr) (v : XWord x) : (h.csrWrite c v).cfg = h.cfg := by
  cases c <;> first | rfl | (simp only [Hart.csrWrite]; split <;> rfl)
@[simp] theorem csrWrite_xs (h : Hart x) (c : Csr) (v : XWord x) : (h.csrWrite c v).xs = h.xs := by
  cases c <;> first | rfl | (simp only [Hart.csrWrite]; split <;> rfl)
@[simp] theorem csrWrite_pc (h : Hart x) (c : Csr) (v : XWord x) : (h.csrWrite c v).pc = h.pc := by
  cases c <;> first | rfl | (simp only [Hart.csrWrite]; split <;> rfl)
@[simp] theorem csrWrite_priv (h : Hart x) (c : Csr) (v : XWord x) : (h.csrWrite c v).priv = h.priv := by
  cases c <;> first | rfl | (simp only [Hart.csrWrite]; split <;> rfl)
@[simp] theorem csrWrite_waiting (h : Hart x) (c : Csr) (v : XWord x) : (h.csrWrite c v).waiting = h.waiting := by
  cases c <;> first | rfl | (simp only [Hart.csrWrite]; split <;> rfl)
@[simp] theorem csrWrite_mem (h : Hart x) (c : Csr) (v : XWord x) : (h.csrWrite c v).mem = h.mem := by
  cases c <;> first | rfl | (simp only [Hart.csrWrite]; split <;> rfl)
@[simp] theorem csrWrite_history (h : Hart x) (c : Csr) (v : XWord x) : (h.csrWrite c v).history = h.history := by
  cases c <;> first | rfl | (simp only [Hart.csrWrite]; split <;> rfl)
@[simp] theorem csrWrite_ioLog (h : Hart x) (c : Csr) (v : XWord x) : (h.csrWrite c v).ioLog = h.ioLog := by
  cases c <;> first | rfl | (simp only [Hart.csrWrite]; split <;> rfl)
@[simp] theorem csrWrite_now (h : Hart x) (c : Csr) (v : XWord x) : (h.csrWrite c v).now = h.now := by
  cases c <;> first | rfl | (simp only [Hart.csrWrite]; split <;> rfl)
@[simp] theorem csrWrite_env (h : Hart x) (c : Csr) (v : XWord x) : (h.csrWrite c v).env = h.env := by
  cases c <;> first | rfl | (simp only [Hart.csrWrite]; split <;> rfl)
@[simp] theorem csrWrite_steps (h : Hart x) (c : Csr) (v : XWord x) : (h.csrWrite c v).steps = h.steps := by
  cases c <;> first | rfl | (simp only [Hart.csrWrite]; split <;> rfl)
@[simp] theorem csrWrite_readX (h : Hart x) (c : Csr) (v : XWord x) (j : Reg) :
    (h.csrWrite c v).readX j = h.readX j := by
  simp only [Hart.readX, csrWrite_xs]
@[simp] theorem csrWrite_regionAt (h : Hart x) (c : Csr) (v : XWord x) (p : Nat) :
    (h.csrWrite c v).regionAt p = h.regionAt p := by
  simp only [Hart.regionAt, csrWrite_cfg]
@[simp] theorem csrWrite_sharedAt (h : Hart x) (c : Csr) (v : XWord x) (p : Nat) :
    (h.csrWrite c v).sharedAt p = h.sharedAt p := by
  simp only [Hart.sharedAt, csrWrite_cfg]

end Sys2Proof.Laws
end

