-- ==== Sys2Proof/Laws/Memory.lean ====
section
/-! SUPPORT. The memory and the other lists kept by address: a read after a write, what a write leaves alone, and the
canonical form, which every operation keeps (R29, R71 to R74). -/

namespace Sys2Proof.Laws

open Sys2Proof.Machine

variable {x : Xlen}

/-! ### Lists kept by address -/

theorem lookupAt_insertAt {α : Type} (l : List (Nat × α)) (a : Nat) (v : α) (b : Nat) :
    lookupAt (insertAt l a v) b = if a = b then some v else lookupAt l b := by
  induction l with
  | nil => rfl
  | cons p rest ih =>
    obtain ⟨k, w⟩ := p
    simp only [insertAt]
    split
    · rfl
    · split
      · subst k
        simp only [lookupAt]
        split <;> rfl
      · simp only [lookupAt, ih]
        split
        · split
          · omega
          · rfl
        · rfl

theorem mem_insertAt {α : Type} {l : List (Nat × α)} {a : Nat} {v : α} {p : Nat × α} (h : p ∈ insertAt l a v) :
    p = (a, v) ∨ p ∈ l := by
  induction l with
  | nil => simpa [insertAt] using h
  | cons q rest ih =>
    obtain ⟨k, w⟩ := q
    simp only [insertAt] at h
    split at h
    · simpa using h
    · split at h
      · rcases List.mem_cons.1 h with e | e
        · exact .inl e
        · exact .inr (List.mem_cons_of_mem _ e)
      · rcases List.mem_cons.1 h with e | e
        · exact .inr (e ▸ List.mem_cons_self ..)
        · exact (ih e).imp id (List.mem_cons_of_mem _)

theorem rising_insertAt {α : Type} {l : List (Nat × α)} (h : risingAddresses l) (a : Nat) (v : α) :
    risingAddresses (insertAt l a v) := by
  induction l with
  | nil => exact List.pairwise_singleton _ _
  | cons p rest ih =>
    obtain ⟨k, w⟩ := p
    have ⟨hk, hr⟩ := List.pairwise_cons.1 h
    simp only [insertAt]
    split
    · refine List.pairwise_cons.2 ⟨fun q hq => ?_, h⟩
      rcases List.mem_cons.1 hq with e | e
      · subst e; assumption
      · have := hk q e; simp only at *; omega
    · split
      · subst a
        exact List.pairwise_cons.2 ⟨hk, hr⟩
      · refine List.pairwise_cons.2 ⟨fun q hq => ?_, ih hr⟩
        rcases mem_insertAt hq with e | e
        · subst e; simp only; omega
        · exact hk q e

/-- In a list in canonical form the listed entries are the ones looked up. -/
theorem lookupAt_of_mem {α : Type} {l : List (Nat × α)} (h : risingAddresses l) {p : Nat × α} (hp : p ∈ l) :
    lookupAt l p.1 = some p.2 := by
  induction l with
  | nil => cases hp
  | cons q rest ih =>
    have ⟨hq, hr⟩ := List.pairwise_cons.1 h
    rcases List.mem_cons.1 hp with e | e
    · subst e; simp [lookupAt]
    · have := hq p e
      simp only [lookupAt]
      rw [if_neg (by omega)]
      exact ih hr e

theorem mem_of_lookupAt {α : Type} {l : List (Nat × α)} {a : Nat} {v : α} (h : lookupAt l a = some v) : (a, v) ∈ l :=
    by
  induction l with
  | nil => cases h
  | cons q rest ih =>
    obtain ⟨k, w⟩ := q
    simp only [lookupAt] at h
    split at h
    · subst k; cases h; exact List.mem_cons_self ..
    · exact List.mem_cons_of_mem _ (ih h)

theorem mem_of_mem_removeAt {α : Type} {l : List (Nat × α)} {a : Nat} {p : Nat × α} (h : p ∈ removeAt l a) : p ∈ l :=
    by
  induction l with
  | nil => exact h
  | cons q rest ih =>
    obtain ⟨k, w⟩ := q
    simp only [removeAt] at h
    split at h
    · exact List.mem_cons_of_mem _ h
    · rcases List.mem_cons.1 h with e | e
      · exact e ▸ List.mem_cons_self ..
      · exact List.mem_cons_of_mem _ (ih e)

theorem rising_removeAt {α : Type} {l : List (Nat × α)} (h : risingAddresses l) (a : Nat) :
    risingAddresses (removeAt l a) := by
  induction l with
  | nil => exact h
  | cons p rest ih =>
    obtain ⟨k, w⟩ := p
    have ⟨hk, hr⟩ := List.pairwise_cons.1 h
    simp only [removeAt]
    split
    · exact hr
    · exact List.pairwise_cons.2 ⟨fun q hq => hk q (mem_of_mem_removeAt hq), ih hr⟩

theorem lookupAt_removeAt_same {α : Type} {l : List (Nat × α)} (h : risingAddresses l) (a : Nat) :
    lookupAt (removeAt l a) a = none := by
  induction l with
  | nil => rfl
  | cons p rest ih =>
    obtain ⟨k, w⟩ := p
    have ⟨hk, hr⟩ := List.pairwise_cons.1 h
    simp only [removeAt]
    split
    · subst k
      cases e : lookupAt rest a with
      | none => rfl
      | some v => have := hk _ (mem_of_lookupAt e); simp only at this; omega
    · simp only [lookupAt]
      rw [if_neg (by assumption)]
      exact ih hr

theorem lookupAt_removeAt_other {α : Type} (l : List (Nat × α)) {a b : Nat} (hb : b ≠ a) :
    lookupAt (removeAt l a) b = lookupAt l b := by
  induction l with
  | nil => rfl
  | cons p rest ih =>
    obtain ⟨k, w⟩ := p
    simp only [removeAt]
    split
    · subst k; simp only [lookupAt]; rw [if_neg (by omega)]
    · simp only [lookupAt, ih]

/-! ### Bytes of memory -/

theorem read_eq_lookupAt (m : Memory) (a : Nat) : Memory.read m a = lookupAt m a := by
  unfold Memory.read Memory.unlisted
  split <;> simp_all

theorem read_write (m : Memory) (a : Nat) (b : Byte) (c : Nat) :
    Memory.read (Memory.write m a b) c = if a = c then some b else Memory.read m c := by
  simp only [read_eq_lookupAt, Memory.write, lookupAt_insertAt]

theorem read_write_same (m : Memory) (a : Nat) (b : Byte) : Memory.read (Memory.write m a b) a = some b := by
  simp [read_write]

theorem read_write_other (m : Memory) {a c : Nat} (h : c ≠ a) (b : Byte) :
    Memory.read (Memory.write m a b) c = Memory.read m c := by
  rw [read_write, if_neg (fun e => h e.symm)]

/-- Two memories in canonical form that read alike are equal. -/
theorem memory_ext {m n : Memory} (hm : Memory.wf m) (hn : Memory.wf n)
    (h : ∀ a, Memory.read m a = Memory.read n a) : m = n := by
  induction m generalizing n with
  | nil =>
    cases n with
    | nil => rfl
    | cons q _ => have := h q.1; simp [read_eq_lookupAt, lookupAt] at this
  | cons p rest ih =>
    have ⟨hp, hr⟩ := List.pairwise_cons.1 hm
    cases n with
    | nil => have := h p.1; simp [read_eq_lookupAt, lookupAt] at this
    | cons q rest' =>
      have ⟨hq, hr'⟩ := List.pairwise_cons.1 hn
      simp only [read_eq_lookupAt] at h
      have hpq : p.1 = q.1 := by
        have h1 := h p.1
        have h2 := h q.1
        simp only [lookupAt, if_true] at h1 h2
        by_contra hne
        rw [if_neg (fun e => hne e.symm)] at h1
        rw [if_neg hne] at h2
        have a1 := hq _ (mem_of_lookupAt h1.symm)
        have a2 := hp _ (mem_of_lookupAt h2)
        simp only at a1 a2
        omega
      have hv : p.2 = q.2 := by
        have h1 := h p.1
        simp only [lookupAt, if_true, hpq] at h1
        exact Option.some.inj h1
      have e : p = q := Prod.ext hpq hv
      subst e
      refine congrArg (p :: ·) (ih hr hr' fun a => ?_)
      simp only [read_eq_lookupAt]
      by_cases ha : p.1 = a
      · have none_of (l : Memory) (hl : ∀ c ∈ l, p.1 < c.1) : lookupAt l a = none := by
          cases e : lookupAt l a with
          | none => rfl
          | some v => have := hl _ (mem_of_lookupAt e); simp only at this; omega
        rw [none_of rest hp, none_of rest' hq]
      · have := h a
        simpa only [lookupAt, if_neg ha] using this

/-- Bytes that do not all have a value: one of them has none. -/
theorem exists_of_readBytes_none {m : Memory} {l : List Nat} (h : readBytes m l = none) :
    ∃ a ∈ l, Memory.read m a = none := by
  induction l with
  | nil => cases h
  | cons a rest ih =>
    cases ha : Memory.read m a with
    | none => exact ⟨a, .head _, ha⟩
    | some b =>
      cases hr : readBytes m rest with
      | none => obtain ⟨c, hc, e⟩ := ih hr; exact ⟨c, .tail _ hc, e⟩
      | some bs => simp [readBytes, ha, hr] at h

/-! ### The canonical form is kept -/

theorem wf_write {m : Memory} (h : Memory.wf m) (a : Nat) (b : Byte) : Memory.wf (Memory.write m a b) :=
  rising_insertAt h a b

theorem wf_storeByte {h : Hart x} (hm : Memory.wf h.mem) (a : Nat) (b : Byte) : Memory.wf (h.storeByte a b).mem :=
  wf_write hm a b

theorem wf_storeCells {h : Hart x} (hm : Memory.wf h.mem) (l : List Host.Cell) : Memory.wf (h.storeCells l).mem := by
  induction l generalizing h with
  | nil => exact hm
  | cons c rest ih => exact ih (wf_storeByte hm _ _)

theorem wf_agentByte {h : Hart x} (hm : Memory.wf h.mem) (a : Nat) (b : Byte) : Memory.wf (h.agentByte a b).mem := by
  unfold Hart.agentByte
  split
  · exact wf_write hm a b
  · exact hm

theorem wf_agentCells {h : Hart x} (hm : Memory.wf h.mem) (l : List Host.Cell) : Memory.wf (h.agentCells l).mem := by
  induction l generalizing h with
  | nil => exact hm
  | cons c rest ih => exact ih (wf_agentByte hm _ _)

theorem wf_loadByte {h : Hart x} (hm : Memory.wf h.mem) (a : Nat) (b : Byte) : Memory.wf (h.loadByte a b).mem :=
  wf_write hm a b

theorem wf_memRead {h t : Hart x} (hm : Memory.wf h.mem) {a : XWord x} {n : Nat} {v : BitVec (8 * n)}
    (e : h.memRead a n = .done (v, t)) : Memory.wf t.mem := by
  unfold Hart.memRead at e
  split at e
  · cases e
  · split at e
    · cases e
    · split at e
      · cases e; exact hm
      · split at e
        · cases e; exact hm
        · cases e

theorem wf_memWrite {h t : Hart x} (hm : Memory.wf h.mem) {a : XWord x} {n : Nat} {v : BitVec (8 * n)}
    (e : h.memWrite a n v = .done t) : Memory.wf t.mem := by
  unfold Hart.memWrite at e
  split at e
  · cases e
  · split at e
    · cases e
    · split at e
      · cases e; exact hm
      · cases e; exact wf_storeCells hm _

theorem wf_loadWordAtPc {h : Hart x} (hm : Memory.wf h.mem) (w : InstWord) : Memory.wf (h.loadWordAtPc w).mem :=
  wf_loadByte (wf_loadByte (wf_loadByte (wf_loadByte hm _ _) _ _) _ _) _ _

/-- The memory of the machine right after reset is in canonical form. -/
theorem wf_reset : Memory.wf State.reset.hart.mem := List.Pairwise.nil

/-! ### Regions and the bytes of an aligned access -/

/-- A region is uniform over an aligned block of 8 bytes (R74). -/
theorem regionAt_of_block (h : Hart x) {a b : Nat} (e : a / 8 = b / 8) : h.regionAt a = h.regionAt b := by
  have key (l : List RegionRange) : rangeAt l a = rangeAt l b := by
    induction l with
    | nil => rfl
    | cons r rest ih =>
      have hc : RegionRange.covers r a = RegionRange.covers r b := by simp only [RegionRange.covers, e]
      simp only [rangeAt, hc, ih]
  simp only [Hart.regionAt, key]

/-- A byte of an aligned access lies in the block of its first byte. -/
theorem block_of_aligned {a n k : Nat} (hn : n ∈ [1, 2, 4, 8]) (ha : a % n = 0) (hk : k < n) : (a + k) / 8 = a / 8 :=
    by
  simp only [List.mem_cons, List.not_mem_nil, or_false] at hn
  rcases hn with rfl | rfl | rfl | rfl <;> omega

/-- An aligned access does not wrap, so its addresses are consecutive. -/
theorem byteAddr_of_aligned {a : XWord x} {n k : Nat} (hn : n ∈ [1, 2, 4, 8]) (ha : a.toNat % n = 0) (hk : k < n) :
    byteAddr a k = a.toNat + k := by
  have hlt := a.isLt
  simp only [List.mem_cons, List.not_mem_nil, or_false] at hn
  unfold byteAddr
  rw [BitVec.toNat_add, BitVec.toNat_ofNat]
  cases x <;> simp only [Xlen.bits] at * <;> rcases hn with rfl | rfl | rfl | rfl <;> omega

@[simp] theorem byteAddr_zero (a : XWord x) : byteAddr a 0 = a.toNat := by
  simp [byteAddr]

theorem byteAddr_lt (a : XWord x) (k : Nat) : byteAddr a k < 2 ^ x.bits := BitVec.isLt _

/-- Every byte of an aligned access is in the region of its first byte. -/
theorem regionAt_byteAddr {h : Hart x} {a : XWord x} {n k : Nat} (hn : n ∈ [1, 2, 4, 8]) (ha : a.toNat % n = 0)
    (hk : k < n) : h.regionAt (byteAddr a k) = h.regionAt a.toNat := by
  rw [byteAddr_of_aligned hn ha hk]
  exact regionAt_of_block h (block_of_aligned hn ha hk)

/-- An aligned access touches a `Vacant` byte exactly when its first byte is `Vacant`. -/
theorem touchesVacant_of_aligned {h : Hart x} {a : XWord x} {n : Nat} (hn : n ∈ [1, 2, 4, 8]) (ha : a.toNat % n = 0) :
    h.touchesVacant a n = decide (h.regionAt a.toNat = .vacant) := by
  have hpos : 0 < n := by
    simp only [List.mem_cons, List.not_mem_nil, or_false] at hn
    omega
  rw [Bool.eq_iff_iff]
  simp only [Hart.touchesVacant, byteAddrs, List.any_eq_true, List.mem_map, List.mem_range, decide_eq_true_eq]
  constructor
  · rintro ⟨_, ⟨k, hk, rfl⟩, hv⟩
    rwa [regionAt_byteAddr hn ha hk] at hv
  · intro hv
    exact ⟨_, ⟨0, hpos, rfl⟩, by rwa [byteAddr_zero]⟩

end Sys2Proof.Laws
end

