-- ==== Sys2Proof/Laws/Exec.lean ====
section
/-! SUPPORT. Everything an instruction can do, said once: `exec_cases`, from one such lemma per shared operation. -/

namespace Sys2Proof.Laws

open Sys2Proof.Machine

variable {x : Xlen}

/-- The ways an instruction can come out on a hart. -/
inductive ExecCases (h : Hart x) (i : Instr) : Result → Prop where
  /-- It takes an exception from `h`. -/
  | raises (e : Exn x) : ExecCases h i (.next ⟨x, h.takeException e⟩)
  /-- It is a load of an aligned `Main` location with a byte that has no value. -/
  | stops (load : h.LoadsUnwritten i) : ExecCases h i (.fault .loadOfUnwrittenByte)
  /-- It writes at most `x[rd]` and continues at the next word. -/
  | computes (rd : Reg) (v : XWord x) : ExecCases h i (.next ⟨x, h.writeResult rd v⟩)
  /-- It makes one access to an `IO` region, writes at most `x[rd]` and continues at the next word. -/
  | accessesIo (e : IoEvent) (rd : Reg) (v : XWord x) : ExecCases h i (.next ⟨x, (h.logIo e).writeResult rd v⟩)
  /-- It stores to aligned `Main` bytes and continues at the next word. -/
  | stores (a : XWord x) (n : Nat) (v : BitVec (8 * n)) (size : n ∈ [1, 2, 4, 8]) (aligned : a.toNat % n = 0)
      (main : h.regionAt a.toNat = .main) :
      ExecCases h i (.next ⟨x, (h.storeCells (cellsOfValue a n v)).advance⟩)
  /-- It is FENCE.I. -/
  | syncs : ExecCases h i (.next ⟨x, h.syncFetch.advance⟩)
  /-- It writes a control and status register it may access, and at most `x[rd]`, and continues at the next word. -/
  | writesCsr (a : CsrAddr) (c : Csr) (new : XWord x) (rd : Reg) (v : XWord x) (access : h.csrAccess a true = some c) :
      ExecCases h i (.next ⟨x, (h.csrWrite c new).writeResult rd v⟩)
  /-- It transfers control to a multiple of 4. -/
  | jumps (rd : Reg) (v target : XWord x) (jump : mayJump i = true) (aligned : target.toNat % 4 = 0) :
      ExecCases h i (.next ⟨x, (h.writeX rd v).setPc target⟩)
  /-- It is MRET in M-mode. -/
  | returnsM (ret : i = .mret) (mode : h.priv = .m) : ExecCases h i (.next ⟨x, h.trapReturnM⟩)
  /-- It is an SRET that is legal. -/
  | returnsS (ret : i = .sret) (legal : h.sretAllowed = true) : ExecCases h i (.next ⟨x, h.trapReturnS⟩)
  /-- It is a WFI that is legal. -/
  | waits (wait : i = .wfi) (legal : h.wfiAllowed = true) : ExecCases h i (.next ⟨x, h.startWaiting⟩)

/-- A write to `x0` is no write. -/
theorem writeResult_zero (h : Hart x) (v : XWord x) : h.writeResult 0 v = h.advance := by
  simp [Hart.writeResult, Hart.writeX]

theorem ExecCases.advances (h : Hart x) (i : Instr) : ExecCases h i (.next ⟨x, h.advance⟩) := by
  have := ExecCases.computes (h := h) (i := i) 0 0
  rwa [writeResult_zero] at this

/-- An access of `n` bytes that is aligned and touches no `Vacant` byte is in `Main` where it is not in `IO`. -/
theorem main_of_not_io {h : Hart x} {a : XWord x} {n : Nat} (hn : n ∈ [1, 2, 4, 8]) (ha : a.toNat % n = 0)
    (hv : h.touchesVacant a n = false) (hio : h.regionAt a.toNat ≠ .io) : h.regionAt a.toNat = .main := by
  rw [touchesVacant_of_aligned hn ha, decide_eq_false_iff_not] at hv
  cases hr : h.regionAt a.toNat
  · rfl
  · exact absurd hr hio
  · exact absurd hr hv

/-- What a load can do. -/
theorem loadInto_cases (h : Hart x) (i : Instr) (rd rs1 : Reg) (offset : BitVec 12) {n : Nat}
    (hi : loadAccess i = some (rs1, offset, n)) (hn : n ∈ [1, 2, 4, 8]) (extend : BitVec (8 * n) → XWord x) :
    ExecCases h i (h.settle (h.loadInto rd rs1 offset n extend)) := by
  unfold Hart.loadInto Hart.memRead
  by_cases h1 : (h.effAddr rs1 offset).toNat % n ≠ 0
  · rw [if_pos h1]; exact .raises _
  · rw [if_neg h1]
    rw [not_not] at h1
    split
    · exact .raises _
    · rename_i hv
      split
      · exact .accessesIo _ rd _
      · rename_i hio
        split
        · exact .computes rd _
        · rename_i hb
          obtain ⟨b, hm, hr⟩ := exists_of_readBytes_none hb
          obtain ⟨k, hk, rfl⟩ := List.mem_map.1 hm
          rw [byteAddr_of_aligned hn h1 (List.mem_range.1 hk)] at hr
          exact .stops ⟨rs1, offset, n, k, hi, h1, main_of_not_io hn h1 (by simpa using hv) hio, List.mem_range.1 hk, hr⟩

/-- What a store can do. -/
theorem storeFrom_cases (h : Hart x) (i : Instr) (rs2 rs1 : Reg) (offset : BitVec 12) {n : Nat}
    (hn : n ∈ [1, 2, 4, 8]) : ExecCases h i (h.settle (h.storeFrom rs2 rs1 offset n)) := by
  unfold Hart.storeFrom Hart.memWrite
  split
  · exact .raises _
  · rename_i ha
    rw [not_not] at ha
    split
    · exact .raises _
    · rename_i hv
      split
      · rename_i hio
        have := ExecCases.accessesIo (h := h) (i := i)
          (.write (h.effAddr rs1 offset).toNat n (((h.readX rs2).setWidth (8 * n)).setWidth 64)) 0 0
        rwa [writeResult_zero] at this
      · rename_i hio
        exact .stores _ n _ hn ha (main_of_not_io hn ha (by simpa using hv) hio)

/-- What a CSR instruction can do. -/
theorem csrInstr_cases (h : Hart x) (i : Instr) (rd : Reg) (a : CsrAddr) (reads writes : Bool)
    (new : XWord x → XWord x) : ExecCases h i (h.settle (h.csrInstr i rd a reads writes new)) := by
  unfold Hart.csrInstr
  split
  · exact .raises _
  · rename_i c hc
    cases writes
    · cases reads
      · exact .advances h i
      · exact .computes rd _
    · cases reads
      · have := ExecCases.writesCsr (h := h) (i := i) a c (new (h.csrRead c)) 0 0 hc
        rwa [writeResult_zero] at this
      · exact .writesCsr a c (new (h.csrRead c)) rd _ hc

/-- What a jump can do. -/
theorem linkTo_cases (h : Hart x) (i : Instr) (hi : mayJump i = true) (rd : Reg) (target : XWord x) :
    ExecCases h i (h.settle (h.linkTo rd target)) := by
  unfold Hart.linkTo Hart.jumpTo
  split
  · rename_i ha; exact .jumps rd _ target hi ha
  · exact .raises _

/-- What a conditional branch can do. -/
theorem branchIf_cases (h : Hart x) (i : Instr) (hi : mayJump i = true) (taken : Bool) (offset : BitVec 13) :
    ExecCases h i (h.settle (h.branchIf taken offset)) := by
  unfold Hart.branchIf Hart.jumpTo
  split
  · split
    · rename_i ha
      have := ExecCases.jumps (h := h) 0 0 (h.pc + sextX x offset) hi ha
      simp only [Hart.writeX, if_true] at this
      exact this
    · exact .raises _
  · exact .advances h i

theorem compute_cases (h : Hart x) (i : Instr) (rd : Reg) (v : XWord x) :
    ExecCases h i (State.compute ⟨x, h⟩ rd v) := .computes rd v

/-- What a form that exists only when `XLEN = 64` can do. -/
theorem onRv64_cases (h : Hart x) (i j : Instr) {e : Effect x (Hart x)} (he : ExecCases h i (h.settle e)) :
    ExecCases h i (h.settle (h.onRv64 j e)) := by
  unfold Hart.onRv64
  split
  · exact he
  · exact .raises _

/-- What a shift by a constant can do. -/
theorem onShift_cases (h : Hart x) (i j : Instr) (shamt : BitVec 6) {e : Effect x (Hart x)}
    (he : ExecCases h i (h.settle e)) : ExecCases h i (h.settle (h.onShift shamt j e)) := by
  unfold Hart.onShift
  split
  · exact he
  · exact .raises _

/-- Everything an instruction can do. -/
theorem exec_cases (h : Hart x) (i : Instr) : ExecCases h i (exec i ⟨x, h⟩) := by
  cases i
  case lui => exact compute_cases ..
  case auipc => exact compute_cases ..
  case addi => exact compute_cases ..
  case slti => exact compute_cases ..
  case sltiu => exact compute_cases ..
  case xori => exact compute_cases ..
  case ori => exact compute_cases ..
  case andi => exact compute_cases ..
  case slli => exact onShift_cases _ _ _ _ (.computes ..)
  case srli => exact onShift_cases _ _ _ _ (.computes ..)
  case srai => exact onShift_cases _ _ _ _ (.computes ..)
  case add => exact compute_cases ..
  case sub => exact compute_cases ..
  case sll => exact compute_cases ..
  case slt => exact compute_cases ..
  case sltu => exact compute_cases ..
  case xor => exact compute_cases ..
  case srl => exact compute_cases ..
  case sra => exact compute_cases ..
  case or => exact compute_cases ..
  case and => exact compute_cases ..
  case fence => exact .advances ..
  case fenceI => exact .syncs
  case csrrw => exact csrInstr_cases ..
  case csrrs => exact csrInstr_cases ..
  case csrrc => exact csrInstr_cases ..
  case csrrwi => exact csrInstr_cases ..
  case csrrsi => exact csrInstr_cases ..
  case csrrci => exact csrInstr_cases ..
  case ecall => exact .raises _
  case ebreak => exact .raises _
  case uret => exact .raises _
  case sret =>
    simp only [exec, execSret]
    split
    · rename_i hs; exact .returnsS rfl hs
    · exact .raises _
  case mret =>
    simp only [exec, execMret]
    split
    · rename_i hm; exact .returnsM rfl hm
    · exact .raises _
  case wfi =>
    simp only [exec, execWfi]
    split
    · rename_i hw; exact .waits rfl hw
    · exact .raises _
  case sfenceVma =>
    simp only [exec, execSfenceVma]
    split
    · exact .advances ..
    · exact .raises _
  case lb => exact loadInto_cases _ _ _ _ _ rfl (by decide) _
  case lh => exact loadInto_cases _ _ _ _ _ rfl (by decide) _
  case lw => exact loadInto_cases _ _ _ _ _ rfl (by decide) _
  case lbu => exact loadInto_cases _ _ _ _ _ rfl (by decide) _
  case lhu => exact loadInto_cases _ _ _ _ _ rfl (by decide) _
  case sb => exact storeFrom_cases _ _ _ _ _ (by decide)
  case sh => exact storeFrom_cases _ _ _ _ _ (by decide)
  case sw => exact storeFrom_cases _ _ _ _ _ (by decide)
  case jal => exact linkTo_cases _ _ rfl ..
  case jalr => exact linkTo_cases _ _ rfl ..
  case beq => exact branchIf_cases _ _ rfl ..
  case bne => exact branchIf_cases _ _ rfl ..
  case blt => exact branchIf_cases _ _ rfl ..
  case bge => exact branchIf_cases _ _ rfl ..
  case bltu => exact branchIf_cases _ _ rfl ..
  case bgeu => exact branchIf_cases _ _ rfl ..
  case lwu => exact onRv64_cases _ _ _ (loadInto_cases _ _ _ _ _ rfl (by decide) _)
  case ld => exact onRv64_cases _ _ _ (loadInto_cases _ _ _ _ _ rfl (by decide) _)
  case sd => exact onRv64_cases _ _ _ (storeFrom_cases _ _ _ _ _ (by decide))
  case addiw => exact onRv64_cases _ _ _ (.computes ..)
  case slliw => exact onRv64_cases _ _ _ (.computes ..)
  case srliw => exact onRv64_cases _ _ _ (.computes ..)
  case sraiw => exact onRv64_cases _ _ _ (.computes ..)
  case addw => exact onRv64_cases _ _ _ (.computes ..)
  case subw => exact onRv64_cases _ _ _ (.computes ..)
  case sllw => exact onRv64_cases _ _ _ (.computes ..)
  case srlw => exact onRv64_cases _ _ _ (.computes ..)
  case sraw => exact onRv64_cases _ _ _ (.computes ..)

end Sys2Proof.Laws
end

