-- ==== Sys2Proof/Laws/Registers.lean ====
section
/-! SUPPORT. The integer registers: what a read gives after a write (R7, R20, R21). -/

namespace Sys2Proof.Laws

open Sys2Proof.Machine

variable {x : Xlen}

@[simp] theorem readX_zero (h : Hart x) : h.readX 0#5 = 0 := rfl

@[simp] theorem writeX_zero (h : Hart x) (v : XWord x) : h.writeX 0#5 v = h := rfl

theorem readX_writeX_same (h : Hart x) {i : Reg} (hi : i ≠ 0) (v : XWord x) : (h.writeX i v).readX i = v := by
  simp only [Hart.readX, Hart.writeX, if_neg hi, Vector.getElem_set_self]

theorem readX_writeX_other (h : Hart x) {i j : Reg} (hj : j ≠ i) (v : XWord x) :
    (h.writeX i v).readX j = h.readX j := by
  have hne : i.toNat ≠ j.toNat := fun e => hj (BitVec.eq_of_toNat_eq e.symm)
  unfold Hart.writeX
  split
  · rfl
  · simp only [Hart.readX, Vector.getElem_set_ne _ _ hne]

@[simp] theorem readX_writeResult (h : Hart x) (i j : Reg) (v : XWord x) :
    (h.writeResult i v).readX j = (h.writeX i v).readX j := by
  simp only [Hart.readX, writeResult_xs]

/-- What a register write leaves, in the terms statements use. -/
theorem sets_writeX (h : Hart x) (i : Reg) (v : XWord x) :
    (i ≠ 0 → (h.writeX i v).readX i = v) ∧ (h.writeX i v).readX 0 = 0 ∧
      ∀ j, j ≠ i → (h.writeX i v).readX j = h.readX j :=
  ⟨fun hi => readX_writeX_same h hi v, rfl, fun _ hj => readX_writeX_other h hj v⟩

/-- Harts with the same registers read the same. -/
theorem readX_of_xs {h t : Hart x} (e : t.xs = h.xs) (j : Reg) : t.readX j = h.readX j := by
  simp only [Hart.readX, e]

end Sys2Proof.Laws
end

