-- ==== Sys2Proof/Laws/Ops.lean ====
section
/-! SUPPORT. What the shared operations compute, each said once: word arithmetic, operand forms, trap entry, the access
primitives, access to the control and status registers. -/

namespace Sys2Proof.Laws

open Sys2Proof.Machine

variable {x : Xlen}

/-! ### Widths -/

theorem bits_gt : 31 < x.bits := by cases x <;> decide

/-- The two word size_pos, for `omega`. -/
theorem pow_bits : (2:Nat) ^ x.bits = 2^32 ∨ (2:Nat) ^ x.bits = 2^64 := by cases x <;> simp [Xlen.bits]

theorem imm_fits : 12 ≤ x.bits := by cases x <;> decide

/-! ### Arithmetic of words -/

/-- The next word's address (10_state.md R24). -/
theorem toNat_add_four (v : XWord x) : (v + 4).toNat = (v.toNat + 4) % 2 ^ x.bits := by
  rw [BitVec.toNat_add]; congr 1; cases x <;> rfl

theorem toNat_eq_toInt_emod (v : XWord x) : (v.toNat : Int) = v.toInt % 2 ^ x.bits := by
  rw [BitVec.toInt_eq_toNat_bmod]
  have := v.isLt
  have h2 : (2:Int)^x.bits = ((2^x.bits : Nat) : Int) := by push_cast; rfl
  rw [h2, Int.bmod_emod, Int.emod_eq_of_lt] <;> omega

theorem toNat_add_int (a b : XWord x) : ((a + b).toNat : Int) = (a.toNat + b.toInt) % 2 ^ x.bits := by
  rw [BitVec.toNat_add]; push_cast
  rw [toNat_eq_toInt_emod b]; simp [Int.add_emod]

theorem toNat_sub_int (a b : XWord x) : ((a - b).toNat : Int) = (a.toNat - b.toNat) % 2 ^ x.bits := by
  have := a.isLt; have := b.isLt
  rw [BitVec.toNat_sub]
  have h2 : (2:Int)^x.bits = ((2^x.bits : Nat) : Int) := by push_cast; rfl
  rw [h2]; push_cast [Nat.cast_sub (Nat.le_of_lt b.isLt)]
  rw [show ((2:Int)^x.bits - b.toNat + a.toNat) = (a.toNat - b.toNat) + 2^x.bits by ring]
  simp

theorem toNat_shl (a : XWord x) (n : Nat) : (a <<< n).toNat = a.toNat * 2 ^ n % 2 ^ x.bits := by
  rw [BitVec.toNat_shiftLeft, Nat.shiftLeft_eq]

theorem toNat_shr (a : XWord x) (n : Nat) : (a >>> n).toNat = a.toNat / 2 ^ n := by
  rw [BitVec.toNat_ushiftRight, Nat.shiftRight_eq_div_pow]

theorem toInt_sar {w : Nat} (a : BitVec w) (n : Nat) : (a.sshiftRight n).toInt = a.toInt / 2 ^ n := by
  rw [BitVec.toInt_sshiftRight, Int.shiftRight_eq_div_pow]; norm_cast

theorem toNat_clear_two {w : Nat} (v : BitVec w) : (v &&& ~~~3#w).toNat = v.toNat / 4 * 4 := by
  have h : v &&& ~~~3#w = (v >>> 2) <<< 2 := by
    apply BitVec.eq_of_getLsbD_eq
    intro i hi
    have h3 : (3#w).getLsbD i = decide (i < 2) := by
      have key : Nat.testBit 3 i = decide (i < 2) := by
        rcases i with _ | _ | i
        · rfl
        · rfl
        · simp [Nat.testBit_succ]
      rw [BitVec.getLsbD_ofNat, key]; simp [hi]
    simp only [BitVec.getLsbD_and, BitVec.getLsbD_not, BitVec.getLsbD_shiftLeft, BitVec.getLsbD_ushiftRight, h3, hi]
    by_cases h2 : i < 2
    · simp [h2]
    · simp [h2, show 2 + (i - 2) = i by omega]
  rw [h, BitVec.toNat_shiftLeft, BitVec.toNat_ushiftRight, Nat.shiftLeft_eq, Nat.shiftRight_eq_div_pow]
  have := v.isLt
  have : v.toNat / 2^2 * 2^2 ≤ v.toNat := Nat.div_mul_le_self _ _
  rw [Nat.mod_eq_of_lt (by omega)]

theorem toNat_and_not_three (v : XWord x) : (v &&& ~~~(3 : XWord x)).toNat = v.toNat / 4 * 4 :=
  toNat_clear_two v

theorem toNat_and_three (v : XWord x) : (v &&& 3).toNat = v.toNat % 4 := by
  have : (3 : XWord x).toNat = 3 := by cases x <;> rfl
  rw [BitVec.toNat_and, this]
  exact Nat.and_two_pow_sub_one_eq_mod v.toNat 2

theorem toNat_clear_one {w : Nat} (v : BitVec w) : (v &&& ~~~1#w).toNat = v.toNat / 2 * 2 := by
  have h : v &&& ~~~1#w = (v >>> 1) <<< 1 := by
    apply BitVec.eq_of_getLsbD_eq
    intro i hi
    have h1 : (1#w).getLsbD i = decide (i = 0) := by
      rw [BitVec.getLsbD_one]; simp; omega
    simp only [BitVec.getLsbD_and, BitVec.getLsbD_not, BitVec.getLsbD_shiftLeft, BitVec.getLsbD_ushiftRight, h1, hi]
    by_cases h2 : i = 0
    · simp [h2]
    · simp [h2, show 1 + (i - 1) = i by omega, show ¬ i < 1 by omega]
  rw [h, BitVec.toNat_shiftLeft, BitVec.toNat_ushiftRight, Nat.shiftLeft_eq, Nat.shiftRight_eq_div_pow]
  have := v.isLt
  rw [Nat.mod_eq_of_lt (by omega), pow_one]

/-! ### Operand forms (Operands.lean) and comparisons (Flags.lean) -/

theorem toInt_sextX {n : Nat} (hn : n ≤ x.bits) (v : BitVec n) : (sextX x v).toInt = v.toInt :=
  BitVec.toInt_signExtend_of_le hn

theorem sextX_bit (imm : BitVec 12) {k : Nat} (hk : k < x.bits) :
    (sextX x imm).getLsbD k = imm.getLsbD (min k 11) := by
  unfold sextX
  rw [BitVec.getLsbD_signExtend]
  by_cases h : k < 12
  · simp [h, hk, show min k 11 = k by omega]
  · simp [h, hk, show min k 11 = 11 by omega, BitVec.msb_eq_getLsbD_last]

theorem toInt_upperImm (imm : BitVec 20) : (upperImm x imm).toInt = imm.toInt * 4096 := by
  unfold upperImm
  rw [toInt_sextX (by cases x <;> decide)]
  revert imm;
  intro imm
  unfold placeField
  have h : (imm.setWidth 32 <<< 12).toNat = imm.toNat * 4096 := by
    rw [BitVec.toNat_shiftLeft, BitVec.toNat_setWidth, Nat.shiftLeft_eq]
    have := imm.isLt; omega
  rw [BitVec.toInt_eq_toNat_cond, BitVec.toInt_eq_toNat_cond, h]
  have := imm.isLt
  split <;> split <;> push_cast <;> omega

theorem toNat_flagWord (c : Bool) : (flagWord x c).toNat = if c = true then 1 else 0 := by
  cases c <;> cases x <;> rfl

theorem toInt_sextX_ofNat {n v : Nat} (hn : n ≤ x.bits) :
    (sextX x (BitVec.ofNat n v)).toInt = (v : Int).bmod (2^n) := by
  rw [toInt_sextX hn, BitVec.toInt_eq_toNat_bmod, BitVec.toNat_ofNat]; rw [Int.natCast_mod]; exact Int.emod_bmod _ _

theorem toNat_zextX_ofNat {n v : Nat} (hn : n ≤ x.bits) (hv : v < 2^n) : (zextX x (BitVec.ofNat n v)).toNat = v := by
  unfold zextX
  rw [BitVec.toNat_setWidth, BitVec.toNat_ofNat, Nat.mod_eq_of_lt hv, Nat.mod_eq_of_lt]
  exact lt_of_lt_of_le hv (Nat.pow_le_pow_right (by omega) hn)

theorem toNat_lowWord (v : XWord .rv64) : (lowWord v).toNat = v.toNat % 2^32 := by simp [lowWord]

theorem toInt_sextX_lowWord (v : XWord .rv64) : (sextX .rv64 (lowWord v)).toInt = (v.toNat : Int).bmod (2^32) := by
  rw [toInt_sextX (by decide)]
  unfold lowWord
  rw [BitVec.toInt_eq_toNat_bmod, BitVec.toNat_setWidth]
  push_cast
  exact Int.emod_bmod ..

theorem toInt_sextX_word (v : BitVec 32) : (sextX .rv64 v).toInt = (v.toNat : Int).bmod (2^32) := by
  rw [toInt_sextX (by decide), BitVec.toInt_eq_toNat_bmod]

/-! ### Traps (60_exceptions.md R311 to R314) -/

theorem exn_code_lt (e : Exn x) : Exn.code e < 16 := by cases e <;> simp [Exn.code]

theorem toNat_causeWord (i : Bool) {c : Nat} (hc : c < 16) : (causeWord x i c).toNat = causeNumber x i c := by
  unfold causeWord causeNumber
  rw [BitVec.toNat_ofNat]
  cases x <;> cases i <;> simp [Xlen.bits] <;> omega

theorem toNat_trapTarget (v : XWord x) (i : Bool) {c : Nat} (hc : c < 16) :
    (trapTarget v i c).toNat = handlerAddress v i c := by
  have h1 : (v &&& 3 = 1) ↔ v.toNat % 4 = 1 := by
    rw [← toNat_and_three, ← BitVec.toNat_inj]
    have : (1 : XWord x).toNat = 1 := by cases x <;> rfl
    rw [this]
  have h4 : (4 * c) % 2 ^ x.bits = 4 * c := Nat.mod_eq_of_lt (by cases x <;> simp [Xlen.bits] <;> omega)
  unfold trapTarget handlerAddress
  simp only [h1, Bool.and_eq_true, decide_eq_true_eq]
  split
  · rw [BitVec.toNat_add, BitVec.toNat_ofNat, toNat_and_not_three, h4]
  · exact toNat_and_not_three v

theorem handlerAddress_aligned (v : XWord x) (i : Bool) (c : Nat) : handlerAddress v i c % 4 = 0 := by
  unfold handlerAddress
  split
  · cases x <;> simp only [Xlen.bits] <;> omega
  · omega

theorem delegated_iff (h : Hart x) (i : Bool) (c : Nat) : h.delegated i c = true ↔ h.HandledInS i c := by
  unfold Hart.delegated Hart.HandledInS
  cases h.priv <;> cases i <;> simp

theorem isS_eq (p : Priv) : Priv.isS p = decide (p = .s) := by cases p <;> rfl

/-! ### The access primitives (20_memory.md R72, R73) -/

theorem size_pos {n : Nat} (h : n ∈ [1,2,4,8]) : 0 < n := by
  simp only [List.mem_cons, List.not_mem_nil, or_false] at h; omega

theorem memRead_misaligned (h : Hart x) {a : XWord x} {n : Nat} (ha : a.toNat % n ≠ 0) :
    h.memRead a n = .raise (.loadAddressMisaligned a) := by
  simp [Hart.memRead, ha]

theorem memRead_vacant (h : Hart x) {a : XWord x} {n : Nat} (hn : n ∈ [1,2,4,8]) (ha : a.toNat % n = 0)
    (hr : h.regionAt a.toNat = .vacant) : h.memRead a n = .raise (.loadAccessFault a) := by
  simp [Hart.memRead, ha, touchesVacant_of_aligned hn ha, hr]

theorem memRead_io (h : Hart x) {a : XWord x} {n : Nat} (hn : n ∈ [1,2,4,8]) (ha : a.toNat % n = 0)
    (hr : h.regionAt a.toNat = .io) : h.memRead a n = .done (h.now.draws.ioAnswer.setWidth (8 * n),
      h.logIo (.read a.toNat n ((h.now.draws.ioAnswer.setWidth (8 * n)).setWidth 64))) := by
  simp [Hart.memRead, ha, touchesVacant_of_aligned hn ha, hr]

theorem memRead_main (h : Hart x) {a : XWord x} {n : Nat} (hn : n ∈ [1,2,4,8]) (ha : a.toNat % n = 0)
    (hr : h.regionAt a.toNat = .main) : h.memRead a n =
      match readBytes h.mem (byteAddrs a n) with
      | some bytes => .done (BitVec.ofNat (8 * n) (valueOfBytes bytes), h)
      | none => .stop .loadOfUnwrittenByte := by
  simp only [Hart.memRead, ha, touchesVacant_of_aligned hn ha, hr]; rfl

theorem memWrite_misaligned (h : Hart x) {a : XWord x} {n : Nat} (ha : a.toNat % n ≠ 0) (v : BitVec (8*n)) :
    h.memWrite a n v = .raise (.storeAddressMisaligned a) := by
  simp [Hart.memWrite, ha]

theorem memWrite_vacant (h : Hart x) {a : XWord x} {n : Nat} (hn : n ∈ [1,2,4,8]) (ha : a.toNat % n = 0)
    (hr : h.regionAt a.toNat = .vacant) (v : BitVec (8*n)) : h.memWrite a n v = .raise (.storeAccessFault a) := by
  simp [Hart.memWrite, ha, touchesVacant_of_aligned hn ha, hr]

theorem memWrite_io (h : Hart x) {a : XWord x} {n : Nat} (hn : n ∈ [1,2,4,8]) (ha : a.toNat % n = 0)
    (hr : h.regionAt a.toNat = .io) (v : BitVec (8*n)) :
        h.memWrite a n v = .done (h.logIo (.write a.toNat n (v.setWidth 64))) := by
  simp [Hart.memWrite, ha, touchesVacant_of_aligned hn ha, hr]

theorem memWrite_main (h : Hart x) {a : XWord x} {n : Nat} (hn : n ∈ [1,2,4,8]) (ha : a.toNat % n = 0)
    (hr : h.regionAt a.toNat = .main) (v : BitVec (8*n)) :
        h.memWrite a n v = .done (h.storeCells (cellsOfValue a n v)) := by
  simp [Hart.memWrite, ha, touchesVacant_of_aligned hn ha, hr]

/-- Bytes that are those of a number have that number, cut to their count, as value. -/
theorem readBytes_of (m : Memory) (f : Nat → Nat) (v : Nat) (n : Nat) :
    ∀ s, (∀ k, k < n → Memory.read m (f (s + k)) = some (BitVec.ofNat 8 (v / 256^(s+k)))) →
    ∃ bs, readBytes m ((List.range' s n).map f) = some bs ∧ valueOfBytes bs = v / 256^s % 256^n := by
  induction n with
  | zero => intro s _; exact ⟨[], rfl, by simp [valueOfBytes]; omega⟩
  | succ n ih =>
    intro s hk
    obtain ⟨bs, h1, h2⟩ := ih (s+1) (fun k hk' => by
      have := hk (k+1) (by omega); rwa [show s + 1 + k = s + (k+1) by omega])
    have h0 := hk 0 (by omega)
    refine ⟨BitVec.ofNat 8 (v / 256^s) :: bs, ?_, ?_⟩
    · simp only [List.range'_succ, List.map_cons, readBytes]
      rw [show Memory.read m (f s) = _ from h0, h1]; rfl
    · simp only [valueOfBytes, h2, BitVec.toNat_ofNat]
      rw [pow_succ 256 s, ← Nat.div_div_eq_div_mul, pow_succ 256 n]
      generalize v / 256^s = w
      rw [Nat.mul_comm (256^n) 256, Nat.mod_mul]

theorem readBytes_at (h : Hart x) {a : XWord x} {n v : Nat} (hn : n ∈ [1,2,4,8]) (ha : a.toNat % n = 0)
    (hb : h.BytesAt a.toNat n v) :
    ∃ bs, readBytes h.mem (byteAddrs a n) = some bs ∧ valueOfBytes bs = v := by
  obtain ⟨hv, hb⟩ := hb
  obtain ⟨bs, h1, h2⟩ := readBytes_of h.mem (byteAddr a) v n 0 (fun k hk => by
    rw [Nat.zero_add, byteAddr_of_aligned hn ha hk]; exact hb k hk)
  refine ⟨bs, ?_, ?_⟩
  · rwa [← List.range_eq_range'] at h1
  · rw [h2]; simp; exact Nat.mod_eq_of_lt hv

/-- A read of aligned `Main` bytes that have a value. -/
theorem memRead_bytes (h : Hart x) {a : XWord x} {n v : Nat} (hn : n ∈ [1,2,4,8]) (ha : a.toNat % n = 0)
    (hr : h.regionAt a.toNat = .main) (hb : h.BytesAt a.toNat n v) :
        h.memRead a n = .done (BitVec.ofNat (8*n) v, h) := by
  obtain ⟨bs, h1, h2⟩ := readBytes_at h hn ha hb
  rw [memRead_main h hn ha hr, h1]; simp only [h2]

theorem readBytes_none {m : Memory} {a : Nat} (h : Memory.read m a = none) {l : List Nat} (ha : a ∈ l) :
    readBytes m l = none := by
  induction l with
  | nil => cases ha
  | cons b rest ih =>
    simp only [readBytes]
    rcases List.mem_cons.1 ha with e | e
    · subst e; rw [h]
    · rw [ih e]; cases Memory.read m b <;> rfl

/-! ### What a write changes (20_memory.md R73, R84, R86) -/

theorem mem_addHeld (l : List (Option Byte)) (b : Byte) (y : Option Byte) : y ∈ addHeld l b ↔ y ∈ l ∨ y = some b := by
  unfold addHeld
  split
  · constructor
    · exact Or.inl
    · rintro (h | rfl); exact h; assumption
  · simp

/-- The values a byte has held after a write: those it had held and the new one, at the address written. -/
theorem heldSince_writeByte (h : Hart x) (a : Nat) (b : Byte) (stored : Bool) (c : Nat) :
    (h.writeByte a b stored).heldSince c = if a = c then addHeld (h.heldSince a) b else h.heldSince c := by
  by_cases e : a = c
  · subst e; simp [Hart.heldSince, Hart.writeByte, lookupAt_insertAt]
  · simp [Hart.heldSince, Hart.writeByte, lookupAt_insertAt, read_write, e]

theorem storedSince_writeByte (h : Hart x) (a : Nat) (b : Byte) (stored : Bool) (c : Nat) :
    (h.writeByte a b stored).storedSince c = if a = c then stored else h.storedSince c := by
  by_cases e : a = c
  · subst e; simp [Hart.storedSince, Hart.writeByte, lookupAt_insertAt]
  · simp [Hart.storedSince, Hart.writeByte, lookupAt_insertAt, e]

/-- What a fetch may see after a store of the hart: all the byte has held, at the address stored to. -/
theorem fetchable_storeByte (h : Hart x) (a : Nat) (b : Byte) (c : Nat) :
    (h.storeByte a b).fetchable c = if a = c then addHeld (h.heldSince a) b else h.fetchable c := by
  unfold Hart.fetchable Hart.storeByte
  rw [heldSince_writeByte, storedSince_writeByte]
  by_cases e : a = c
  · simp [e]
  · simp [e, Hart.writeByte, read_write]

/-- Bytes stored at up to eight different addresses: what each reads as, what a fetch of it may see, and that every other
byte is as before. -/
theorem storeCells_read (h : Hart x) (f : Nat → Nat) (g : Nat → Byte) (hf : ∀ i j, f i = f j → i < 8 → j < 8 → i = j)
    (n : Nat) : ∀ s, s + n ≤ 8 →
    (∀ k, s ≤ k → k < s + n →
      Memory.read (h.storeCells ((List.range' s n).map fun i => (f i, g i))).mem (f k) = some (g k) ∧
      ∀ y, y ∈ (h.storeCells ((List.range' s n).map fun i => (f i, g i))).fetchable (f k) ↔
        y ∈ h.heldSince (f k) ∨ y = some (g k)) ∧
    (∀ b, (∀ k, s ≤ k → k < s + n → f k ≠ b) →
      Memory.read (h.storeCells ((List.range' s n).map fun i => (f i, g i))).mem b = Memory.read h.mem b ∧
      (h.storeCells ((List.range' s n).map fun i => (f i, g i))).fetchable b = h.fetchable b ∧
      (h.storeCells ((List.range' s n).map fun i => (f i, g i))).heldSince b = h.heldSince b) := by
  induction n generalizing h with
  | zero => intro s hs; exact ⟨fun k _ _ => by omega, fun b _ => ⟨rfl, rfl, rfl⟩⟩
  | succ n ih =>
    intro s hs
    obtain ⟨i1, i2⟩ := ih (h.storeByte (f s) (g s)) (s+1) (by omega)
    simp only [List.range'_succ, List.map_cons, Hart.storeCells]
    constructor
    · intro k h1 h2
      by_cases e : k = s
      · subst e
        obtain ⟨j1, j2, -⟩ := i2 (f k) (fun j hj1 hj2 e => by have := hf _ _ e (by omega) (by omega); omega)
        refine ⟨by rw [j1]; simp [read_write], fun y => by rw [j2, fetchable_storeByte]; simp [mem_addHeld]⟩
      · obtain ⟨j1, j2⟩ := i1 k (by omega) (by omega)
        refine ⟨j1, fun y => by
          rw [j2, Hart.storeByte, heldSince_writeByte, if_neg]; intro e'; exact e (hf _ _ e' (by omega) (by omega)).symm⟩
    · intro b hb
      obtain ⟨j1, j2, j3⟩ := i2 b (fun k hk1 hk2 => hb k (by omega) (by omega))
      have := hb s (by omega) (by omega)
      exact ⟨by rw [j1]; simp [read_write, this], by rw [j2, fetchable_storeByte, if_neg this],
        by rw [j3, Hart.storeByte, heldSince_writeByte, if_neg this]⟩

/-! ### Access to the control and status registers (43_csr.md R180) -/

theorem csrAt_mem {a : CsrAddr} {c : Csr} (h : csrAt a = some c) :
    (Csr.needsS c = false ∧ a ∈ csrAlways) ∨ (Csr.needsS c = true ∧ a ∈ csrWithS) := by
  unfold csrAt at h
  split at h <;> first | (cases h; decide) | cases h

theorem csrAlways_at {a : CsrAddr} (h : a ∈ csrAlways) : ∃ c, csrAt a = some c ∧ Csr.needsS c = false := by
  simp only [csrAlways, List.mem_cons, List.not_mem_nil, or_false] at h
  rcases h with rfl | rfl | rfl | rfl | rfl | rfl | rfl | rfl | rfl | rfl | rfl | rfl | rfl <;> exact ⟨_, rfl, rfl⟩

theorem csrWithS_at {a : CsrAddr} (h : a ∈ csrWithS) : ∃ c, csrAt a = some c ∧ Csr.needsS c = true := by
  simp only [csrWithS, List.mem_cons, List.not_mem_nil, or_false] at h
  rcases h with rfl | rfl | rfl | rfl | rfl | rfl | rfl | rfl | rfl | rfl | rfl <;> exact ⟨_, rfl, rfl⟩

theorem csrAt_eq_satp {a : CsrAddr} {c : Csr} (h : csrAt a = some c) : c = .satp ↔ a = 0x180 := by
  unfold csrAt at h
  split at h <;> first | (cases h; decide) | cases h

/-- The decoder of CSR addresses and the map of R31 agree. -/
theorem csrAt_iff (a : CsrAddr) (c : Csr) : csrAt a = some c ↔ csrAddress c = a := by
  constructor
  · intro h
    unfold csrAt at h
    split at h <;> first | (obtain rfl := Option.some.inj h; rfl) | cases h
  · rintro rfl; cases c <;> rfl

/-! ### What a write to a control and status register changes (43_csr.md R182) -/

/-- The registers whose reading a write may change: the register and its views. -/
def csrViews : Csr → List Csr
  | .mstatus | .sstatus => [.mstatus, .sstatus]
  | .mideleg => [.mideleg, .sie, .sip]
  | .mie | .sie => [.mie, .sie]
  | .mip | .sip => [.mip, .sip]
  | .medeleg => [.medeleg]
  | .mtvec => [.mtvec]
  | .stvec => [.stvec]
  | .mscratch => [.mscratch]
  | .sscratch => [.sscratch]
  | .mepc => [.mepc]
  | .sepc => [.sepc]
  | .mcause => [.mcause]
  | .scause => [.scause]
  | .mtval => [.mtval]
  | .stval => [.stval]
  | .misa | .satp | .mvendorid | .marchid | .mimpid | .mhartid => []

theorem csrWrite_writesOnly (h : Hart x) (c : Csr) (v : XWord x) : h.WritesOnly (h.csrWrite c v) (csrViews c) where
  others d hd := by
    cases c
    case sip =>
      simp only [Hart.csrWrite]
      split
      · cases d <;> first | exact absurd (by decide) hd | rfl
      · rfl
    all_goals cases d <;> first | exact absurd (by decide) hd | rfl
  cfg := by simp
  priv := by simp
  waiting := by simp

theorem toNat_csrMode (a : CsrAddr) : (a.extractLsb' 8 2).toNat = a.toNat / 256 % 4 := by
  rw [BitVec.extractLsb'_toNat, Nat.shiftRight_eq_div_pow]

theorem csr_readOnly_iff (a : CsrAddr) : a.extractLsb' 10 2 = 3#2 ↔ a.toNat / 1024 = 3 := by
  rw [← BitVec.toNat_inj, BitVec.extractLsb'_toNat, Nat.shiftRight_eq_div_pow]
  have := a.isLt
  simp; omega

/-- The check of R180 passes exactly where `CsrPermits` says so, and then gives the register at the address. -/
theorem csrAccess_permits (h : Hart x) (a : CsrAddr) {w : Bool} {W : Prop} (hw : w = true ↔ W) :
    (h.CsrPermits a W ↔ ∃ c, h.csrAccess a w = some c) ∧ ∀ c, h.csrAccess a w = some c → csrAt a = some c := by
  have hro := csr_readOnly_iff a
  have hpf := toNat_csrMode a
  unfold Hart.csrAccess
  cases hc : csrAt a with
  | none =>
    refine ⟨⟨fun hp => ?_, by simp⟩, by simp⟩
    rcases hp.implemented with hm | ⟨_, hm⟩
    · obtain ⟨c, e, _⟩ := csrAlways_at hm; rw [hc] at e; cases e
    · obtain ⟨c, e, _⟩ := csrWithS_at hm; rw [hc] at e; cases e
  | some c =>
    have hs := csrAt_eq_satp hc
    simp only [hpf]
    constructor
    · constructor
      · intro hp
        refine ⟨c, ?_⟩
        have h1 : (Csr.needsS c && !h.cfg.hasS) = false := by
          rcases hp.implemented with hm | ⟨hh, hm⟩
          · obtain ⟨c', e, e'⟩ := csrAlways_at hm; rw [hc] at e; cases e; simp [e']
          · simp [hh]
        have h2 := hp.mode
        have h3 := hp.readOnly
        have h4 := hp.satp
        rw [if_neg (by simp [h1]), if_neg (by omega), if_neg, if_neg]
        · simp only [Bool.and_eq_true, decide_eq_true_eq, hs, and_assoc]; exact h4
        · simp only [Bool.and_eq_true, decide_eq_true_eq, hro]
          exact fun ⟨e1, e2⟩ => h3 (hw.1 e1) e2
      · rintro ⟨c', hc'⟩
        split at hc'; cases hc'
        split at hc'; cases hc'
        split at hc'; cases hc'
        split at hc'; cases hc'
        rename_i g1 g2 g3 g4
        refine ⟨?_, by omega, fun hW e => g3 (by simp [hro, e, hw.2 hW]), ?_⟩
        · rcases csrAt_mem hc with ⟨e, m⟩ | ⟨e, m⟩
          · exact .inl m
          · right; refine ⟨?_, m⟩; simpa [e] using g1
        · rintro ⟨e1, e2, e3⟩; exact g4 (by simp [hs, e1, e2, e3])
    · intro c' hc'
      split at hc'; cases hc'
      split at hc'; cases hc'
      split at hc'; cases hc'
      split at hc'; cases hc'
      exact hc'

/-! ### Bits of the control and status registers (10_state.md R33 to R42) -/

theorem placeField_bool (a : Bool) (k : Nat) (hk : k < x.bits) (i : Nat) :
    (placeField x.bits k (BitVec.ofBool a)).getLsbD i = (decide (i = k) && a) := by
  unfold placeField
  by_cases hi : i < x.bits
  · simp only [BitVec.getLsbD_shiftLeft, hi, decide_true, Bool.true_and, BitVec.getLsbD_setWidth]
    by_cases e : i = k
    · subst e; simp; omega
    · by_cases e2 : i < k
      · simp [e2, e]
      · simp [e2, e, show ¬ i - k = 0 by omega]
  · simp only [BitVec.getLsbD_shiftLeft, hi, decide_false, Bool.false_and]
    simp; omega

theorem toNat_or_place {w n : Nat} (a : BitVec w) (k : Nat) (b : BitVec n) (ha : a.toNat < 2^k) (hk : k + n ≤ w) :
    (a ||| placeField w k b).toNat = a.toNat + b.toNat * 2^k := by
  unfold placeField
  have hb := b.isLt
  have h1 : b.toNat * 2^k < 2^w := by
    calc b.toNat * 2^k < 2^n * 2^k := Nat.mul_lt_mul_of_pos_right hb (by positivity)
      _ = 2^(k+n) := by rw [← pow_add, Nat.add_comm]
      _ ≤ 2^w := Nat.pow_le_pow_right (by omega) hk
  have h2 : b.toNat < 2^w := lt_of_lt_of_le hb (Nat.pow_le_pow_right (by omega) (by omega))
  rw [BitVec.toNat_or, BitVec.toNat_shiftLeft, BitVec.toNat_setWidth, Nat.mod_eq_of_lt h2, Nat.shiftLeft_eq,
    Nat.mod_eq_of_lt h1, Nat.or_comm, Nat.mul_comm, ← Nat.two_pow_add_eq_or_of_lt ha, Nat.add_comm]

theorem toNat_ofBool_shift (b : Bool) (k : Nat) : (BitVec.ofBool b).toNat * 2^k = if b = true then 2^k else 0 := by
  cases b <;> simp

theorem mask_bits (P : Nat → Bool) (m : Nat) (hm : m < 2^12) (hP : ∀ k, k < 12 → m.testBit k = P k)
    (hP2 : ∀ k, 12 ≤ k → P k = false) {k : Nat} (hk : k < x.bits) :
    (BitVec.ofNat x.bits m).getLsbD k = P k := by
  rw [BitVec.getLsbD_ofNat]
  by_cases h : k < 12
  · simp [hk, hP k h]
  · rw [hP2 k (by omega), Nat.testBit_lt_two_pow]; simp
    exact lt_of_lt_of_le hm (Nat.pow_le_pow_right (by omega) (by omega))

theorem medelegMask_bit {k : Nat} (hk : k < x.bits) : (medelegMask x).getLsbD k = decide (k ≤ 9) :=
  mask_bits (fun k => decide (k ≤ 9)) 0x3FF (by norm_num) (by decide) (by intro k hk; simp; omega) hk

theorem supervisorMask_bit {k : Nat} (hk : k < x.bits) : (0x222 : XWord x).getLsbD k = decide (k ∈ [1,5,9]) :=
  mask_bits (fun k => decide (k ∈ [1,5,9])) 0x222 (by norm_num) (by decide) (by intro k hk; simp; omega) hk

theorem mieMask_bit (cfg : Config x) {k : Nat} (hk : k < x.bits) :
    (mieMask cfg).getLsbD k = (decide (k ∈ [3, 7, 11]) || cfg.hasS && decide (k ∈ [1, 5, 9])) := by
  unfold mieMask
  cases cfg.hasS
  · have := mask_bits (x := x) (fun k => decide (k ∈ [3, 7, 11])) 0x888 (by norm_num) (by decide)
      (by intro k hk; simp; omega) hk
    simpa using this
  · have := mask_bits (x := x) (fun k => decide (k ∈ [3, 7, 11]) || decide (k ∈ [1, 5, 9])) 0xAAA (by norm_num)
      (by decide) (by intro k hk; simp; omega) hk
    simpa using this

theorem mipMask_bit (cfg : Config x) {k : Nat} (hk : k < x.bits) :
    (mipMask cfg).getLsbD k = (cfg.hasS && decide (k ∈ [1, 5, 9])) := by
  unfold mipMask
  cases cfg.hasS
  · simp
  · simpa using supervisorMask_bit hk

theorem mipWord_bit (h : Hart x) (k : Nat) : h.mipWord.getLsbD k =
    (h.mipSoft.getLsbD k || decide (k = 11) && h.now.lines.meip || decide (k = 7) && h.now.lines.mtip || decide (k = 3) && h.now.lines.msip) := by
  have hb : 31 < x.bits := bits_gt
  unfold Hart.mipWord
  simp only [BitVec.getLsbD_or, placeField_bool (x := x) _ 11 (by omega),
    placeField_bool (x := x) _ 7 (by omega), placeField_bool (x := x) _ 3 (by omega)]

theorem sstatusMask_bit {k : Nat} (hk : k < x.bits) : (sstatusMask x).getLsbD k =
    (decide (k ∈ [0, 1, 4, 5, 8, 13, 14, 15, 16, 18, 19, x.bits - 1]) || decide (x = .rv64 ∧ k ∈ [32, 33])) := by
  cases x
  · revert k; decide
  · revert k; decide

theorem three_bit {k : Nat} (hk : k < x.bits) : (3 : XWord x).getLsbD k = decide (k < 2) := by
  rcases k with _ | _ | k
  · cases x <;> rfl
  · cases x <;> rfl
  · have : (3 : XWord x) = BitVec.ofNat x.bits 3 := rfl
    rw [this, BitVec.getLsbD_ofNat]; simp [hk, Nat.testBit_succ]

theorem mstatusWord_bit (m : Mstatus) (k : Nat) : (mstatusWord x m).getLsbD k =
    (decide (k = 1) && m.sie || decide (k = 3) && m.mie || decide (k = 5) && m.spie || decide (k = 7) && m.mpie ||
      decide (k = 8) && m.spp || (placeField x.bits 11 (BitVec.ofNat 2 (Priv.num m.mpp))).getLsbD k ||
      decide (k = 17) && m.mprv || decide (k = 19) && m.mxr || decide (k = 20) && m.tvm || decide (k = 21) && m.tw ||
      decide (k = 22) && m.tsr || (xlWord x).getLsbD k) := by
  have hb : 31 < x.bits := bits_gt
  unfold mstatusWord
  simp only [BitVec.getLsbD_or]
  rw [placeField_bool _ 1 (by omega), placeField_bool _ 3 (by omega), placeField_bool _ 5 (by omega),
      placeField_bool _ 7 (by omega), placeField_bool _ 8 (by omega), placeField_bool _ 17 (by omega),
      placeField_bool _ 19 (by omega), placeField_bool _ 20 (by omega), placeField_bool _ 21 (by omega),
      placeField_bool _ 22 (by omega)]

end Sys2Proof.Laws
end

