-- ==== Sys2Proof/Laws/PerInstr.lean ====
section
/-! SUPPORT. One lemma per instruction: its word matches its row of the opcode table (30_encoding.md R112). -/

namespace Sys2Proof.Laws

/-! ### The words of a format under a mask -/

/-- A mask acts on a placed field by its own part there. -/
theorem place_and {n w : Nat} (lo : Nat) (v : BitVec n) (m : BitVec w) :
    placeField w lo v &&& m = placeField w lo (v &&& m.extractLsb' lo n) := by
  apply BitVec.eq_of_getLsbD_eq
  intro i hi
  simp only [BitVec.getLsbD_and, placeField_bit, BitVec.getLsbD_extractLsb', hi, decide_true, Bool.true_and]
  by_cases h1 : lo ≤ i
  · by_cases h2 : i - lo < n
    · simp [h1, h2]
    · simp [BitVec.getLsbD_of_ge v (i - lo) (by omega)]
  · simp [h1]

theorem or_and {w : Nat} (a b m : BitVec w) : (a ||| b) &&& m = (a &&& m) ||| (b &&& m) := by
  apply BitVec.eq_of_getLsbD_eq
  intro i hi
  simp only [BitVec.getLsbD_and, BitVec.getLsbD_or, Bool.and_or_distrib_right]

/-- A mask that is all ones there keeps a field. -/
theorem place_keep {n w : Nat} (lo : Nat) (v : BitVec n) (m : BitVec w) (h : m.extractLsb' lo n = BitVec.allOnes n) :
    placeField w lo v &&& m = placeField w lo v := by
  rw [place_and, h, BitVec.and_allOnes]

/-- A mask that is all zeros there drops a field. -/
theorem place_drop {n w : Nat} (lo : Nat) (v : BitVec n) (m : BitVec w) (h : m.extractLsb' lo n = 0#n) :
    placeField w lo v &&& m = placeField w lo (0#n) := by
  rw [place_and, h, BitVec.and_zero]

theorem encR_mask (f7 : BitVec 7) (rs2 rs1 : Reg) (f3 : BitVec 3) (rd : Reg) (op : BitVec 7) :
    encR f7 rs2 rs1 f3 rd op &&& 0xFE00707F#32 = encR f7 0 0 f3 0 op := by
  simp (disch := decide) only [encR, or_and, place_keep, place_drop]
  rfl

theorem encR_maskRd (f7 : BitVec 7) (rs2 rs1 : Reg) (f3 : BitVec 3) (rd : Reg) (op : BitVec 7) :
    encR f7 rs2 rs1 f3 rd op &&& 0xFE007FFF#32 = encR f7 0 0 f3 rd op := by
  simp (disch := decide) only [encR, or_and, place_keep, place_drop]
  rfl

theorem encI_mask (imm : BitVec 12) (rs1 : Reg) (f3 : BitVec 3) (rd : Reg) (op : BitVec 7) :
    encI imm rs1 f3 rd op &&& 0x0000707F#32 = encI 0 0 f3 0 op := by
  simp (disch := decide) only [encI, or_and, place_keep, place_drop]
  rfl

theorem encShift_mask (f6 shamt : BitVec 6) (rs1 : Reg) (f3 : BitVec 3) (rd : Reg) (op : BitVec 7) :
    encShift f6 shamt rs1 f3 rd op &&& 0xFC00707F#32 = encShift f6 0 0 f3 0 op := by
  simp (disch := decide) only [encShift, or_and, place_keep, place_drop]
  rfl

theorem encS_mask (imm : BitVec 12) (rs2 rs1 : Reg) (f3 : BitVec 3) (op : BitVec 7) :
    encS imm rs2 rs1 f3 op &&& 0x0000707F#32 = encS 0 0 0 f3 op := by
  simp (disch := decide) only [encS, or_and, place_keep, place_drop]
  rfl

theorem encB_mask (offset : BitVec 13) (rs2 rs1 : Reg) (f3 : BitVec 3) (op : BitVec 7) :
    encB offset rs2 rs1 f3 op &&& 0x0000707F#32 = encB 0 0 0 f3 op := by
  simp (disch := decide) only [encB, or_and, place_keep, place_drop]
  rfl

theorem encU_mask (imm : BitVec 20) (rd : Reg) (op : BitVec 7) :
    encU imm rd op &&& 0x0000007F#32 = encU 0 0 op := by
  simp (disch := decide) only [encU, or_and, place_keep, place_drop]
  rfl

theorem encJ_mask (offset : BitVec 21) (rd : Reg) (op : BitVec 7) :
    encJ offset rd op &&& 0x0000007F#32 = encJ 0 0 op := by
  simp (disch := decide) only [encJ, or_and, place_keep, place_drop]
  rfl

theorem encFence_mask (fm pred succ : BitVec 4) (rs1 : Reg) (f3 : BitVec 3) (rd : Reg) (op : BitVec 7) :
    encFence fm pred succ rs1 f3 rd op &&& 0x0000707F#32 = encFence 0 0 0 0 f3 0 op := by
  simp (disch := decide) only [encFence, or_and, place_keep, place_drop]
  rfl

/-- Under the mask of a 32-bit hart, a shift amount below 32 leaves no bit. -/
theorem encShift_mask32 (f6 shamt : BitVec 6) (rs1 : Reg) (f3 : BitVec 3) (rd : Reg) (op : BitVec 7)
    (h : shamtFits .rv32 shamt = true) :
    encShift f6 shamt rs1 f3 rd op &&& 0xFE00707F#32 = encShift f6 0 0 f3 0 op := by
  have low : shamt &&& 32#6 = 0#6 := by
    have key : ∀ v : BitVec 6, shamtFits .rv32 v = true → v &&& 32#6 = 0#6 := by decide
    exact key shamt h
  have cut : placeField 32 20 shamt &&& 0xFE00707F#32 = placeField 32 20 (0#6) := by
    rw [place_and, show (0xFE00707F#32).extractLsb' 20 6 = 32#6 from rfl, low]
  simp (disch := decide) only [encShift, or_and, cut, place_keep, place_drop]
  rfl

/-- The word of every instruction that a hart of the width has matches the instruction's row, and the row is in the
table for the width. -/
def EncodingRow.Statement (i : Instr) : Prop :=
  ∀ x : Xlen, WellFormed x i = true → rowOf x i ∈ tableRows x ∧ (rowOf x i).Matches (encode i)

theorem EncodingRow.lui (rd : Reg) (imm : BitVec 20) : EncodingRow.Statement (.lui rd imm) := by
  intro x _
  exact ⟨by cases x <;> exact of_decide_eq_true rfl, encU_mask _ _ _⟩

theorem EncodingRow.auipc (rd : Reg) (imm : BitVec 20) : EncodingRow.Statement (.auipc rd imm) := by
  intro x _
  exact ⟨by cases x <;> exact of_decide_eq_true rfl, encU_mask _ _ _⟩

theorem EncodingRow.addi (rd rs1 : Reg) (imm : BitVec 12) : EncodingRow.Statement (.addi rd rs1 imm) := by
  intro x _
  exact ⟨by cases x <;> exact of_decide_eq_true rfl, encI_mask _ _ _ _ _⟩

theorem EncodingRow.slti (rd rs1 : Reg) (imm : BitVec 12) : EncodingRow.Statement (.slti rd rs1 imm) := by
  intro x _
  exact ⟨by cases x <;> exact of_decide_eq_true rfl, encI_mask _ _ _ _ _⟩

theorem EncodingRow.sltiu (rd rs1 : Reg) (imm : BitVec 12) : EncodingRow.Statement (.sltiu rd rs1 imm) := by
  intro x _
  exact ⟨by cases x <;> exact of_decide_eq_true rfl, encI_mask _ _ _ _ _⟩

theorem EncodingRow.xori (rd rs1 : Reg) (imm : BitVec 12) : EncodingRow.Statement (.xori rd rs1 imm) := by
  intro x _
  exact ⟨by cases x <;> exact of_decide_eq_true rfl, encI_mask _ _ _ _ _⟩

theorem EncodingRow.ori (rd rs1 : Reg) (imm : BitVec 12) : EncodingRow.Statement (.ori rd rs1 imm) := by
  intro x _
  exact ⟨by cases x <;> exact of_decide_eq_true rfl, encI_mask _ _ _ _ _⟩

theorem EncodingRow.andi (rd rs1 : Reg) (imm : BitVec 12) : EncodingRow.Statement (.andi rd rs1 imm) := by
  intro x _
  exact ⟨by cases x <;> exact of_decide_eq_true rfl, encI_mask _ _ _ _ _⟩

theorem EncodingRow.slli (rd rs1 : Reg) (shamt : BitVec 6) : EncodingRow.Statement (.slli rd rs1 shamt) := by
  intro x h
  cases x
  · exact ⟨of_decide_eq_true rfl, encShift_mask32 _ shamt rs1 _ rd _ h⟩
  · exact ⟨of_decide_eq_true rfl, encShift_mask _ shamt rs1 _ rd _⟩

theorem EncodingRow.srli (rd rs1 : Reg) (shamt : BitVec 6) : EncodingRow.Statement (.srli rd rs1 shamt) := by
  intro x h
  cases x
  · exact ⟨of_decide_eq_true rfl, encShift_mask32 _ shamt rs1 _ rd _ h⟩
  · exact ⟨of_decide_eq_true rfl, encShift_mask _ shamt rs1 _ rd _⟩

theorem EncodingRow.srai (rd rs1 : Reg) (shamt : BitVec 6) : EncodingRow.Statement (.srai rd rs1 shamt) := by
  intro x h
  cases x
  · exact ⟨of_decide_eq_true rfl, encShift_mask32 _ shamt rs1 _ rd _ h⟩
  · exact ⟨of_decide_eq_true rfl, encShift_mask _ shamt rs1 _ rd _⟩

theorem EncodingRow.add (rd rs1 rs2 : Reg) : EncodingRow.Statement (.add rd rs1 rs2) := by
  intro x _
  exact ⟨by cases x <;> exact of_decide_eq_true rfl, encR_mask _ _ _ _ _ _⟩

theorem EncodingRow.sub (rd rs1 rs2 : Reg) : EncodingRow.Statement (.sub rd rs1 rs2) := by
  intro x _
  exact ⟨by cases x <;> exact of_decide_eq_true rfl, encR_mask _ _ _ _ _ _⟩

theorem EncodingRow.sll (rd rs1 rs2 : Reg) : EncodingRow.Statement (.sll rd rs1 rs2) := by
  intro x _
  exact ⟨by cases x <;> exact of_decide_eq_true rfl, encR_mask _ _ _ _ _ _⟩

theorem EncodingRow.slt (rd rs1 rs2 : Reg) : EncodingRow.Statement (.slt rd rs1 rs2) := by
  intro x _
  exact ⟨by cases x <;> exact of_decide_eq_true rfl, encR_mask _ _ _ _ _ _⟩

theorem EncodingRow.sltu (rd rs1 rs2 : Reg) : EncodingRow.Statement (.sltu rd rs1 rs2) := by
  intro x _
  exact ⟨by cases x <;> exact of_decide_eq_true rfl, encR_mask _ _ _ _ _ _⟩

theorem EncodingRow.xor (rd rs1 rs2 : Reg) : EncodingRow.Statement (.xor rd rs1 rs2) := by
  intro x _
  exact ⟨by cases x <;> exact of_decide_eq_true rfl, encR_mask _ _ _ _ _ _⟩

theorem EncodingRow.srl (rd rs1 rs2 : Reg) : EncodingRow.Statement (.srl rd rs1 rs2) := by
  intro x _
  exact ⟨by cases x <;> exact of_decide_eq_true rfl, encR_mask _ _ _ _ _ _⟩

theorem EncodingRow.sra (rd rs1 rs2 : Reg) : EncodingRow.Statement (.sra rd rs1 rs2) := by
  intro x _
  exact ⟨by cases x <;> exact of_decide_eq_true rfl, encR_mask _ _ _ _ _ _⟩

theorem EncodingRow.or (rd rs1 rs2 : Reg) : EncodingRow.Statement (.or rd rs1 rs2) := by
  intro x _
  exact ⟨by cases x <;> exact of_decide_eq_true rfl, encR_mask _ _ _ _ _ _⟩

theorem EncodingRow.and (rd rs1 rs2 : Reg) : EncodingRow.Statement (.and rd rs1 rs2) := by
  intro x _
  exact ⟨by cases x <;> exact of_decide_eq_true rfl, encR_mask _ _ _ _ _ _⟩

theorem EncodingRow.fence (fm pred succ : BitVec 4) (rs1 rd : Reg) :
    EncodingRow.Statement (.fence fm pred succ rs1 rd) := by
  intro x _
  exact ⟨by cases x <;> exact of_decide_eq_true rfl, encFence_mask _ _ _ _ _ _ _⟩

theorem EncodingRow.fenceI (imm : BitVec 12) (rs1 rd : Reg) : EncodingRow.Statement (.fenceI imm rs1 rd) := by
  intro x _
  exact ⟨by cases x <;> exact of_decide_eq_true rfl, encI_mask _ _ _ _ _⟩

theorem EncodingRow.csrrw (rd : Reg) (csr : CsrAddr) (rs1 : Reg) : EncodingRow.Statement (.csrrw rd csr rs1) := by
  intro x _
  exact ⟨by cases x <;> exact of_decide_eq_true rfl, encI_mask _ _ _ _ _⟩

theorem EncodingRow.csrrs (rd : Reg) (csr : CsrAddr) (rs1 : Reg) : EncodingRow.Statement (.csrrs rd csr rs1) := by
  intro x _
  exact ⟨by cases x <;> exact of_decide_eq_true rfl, encI_mask _ _ _ _ _⟩

theorem EncodingRow.csrrc (rd : Reg) (csr : CsrAddr) (rs1 : Reg) : EncodingRow.Statement (.csrrc rd csr rs1) := by
  intro x _
  exact ⟨by cases x <;> exact of_decide_eq_true rfl, encI_mask _ _ _ _ _⟩

theorem EncodingRow.csrrwi (rd : Reg) (csr : CsrAddr) (uimm : BitVec 5) :
    EncodingRow.Statement (.csrrwi rd csr uimm) := by
  intro x _
  exact ⟨by cases x <;> exact of_decide_eq_true rfl, encI_mask _ _ _ _ _⟩

theorem EncodingRow.csrrsi (rd : Reg) (csr : CsrAddr) (uimm : BitVec 5) :
    EncodingRow.Statement (.csrrsi rd csr uimm) := by
  intro x _
  exact ⟨by cases x <;> exact of_decide_eq_true rfl, encI_mask _ _ _ _ _⟩

theorem EncodingRow.csrrci (rd : Reg) (csr : CsrAddr) (uimm : BitVec 5) :
    EncodingRow.Statement (.csrrci rd csr uimm) := by
  intro x _
  exact ⟨by cases x <;> exact of_decide_eq_true rfl, encI_mask _ _ _ _ _⟩

theorem EncodingRow.ecall : EncodingRow.Statement .ecall := by
  intro x _
  cases x <;> exact ⟨by decide, by decide⟩

theorem EncodingRow.ebreak : EncodingRow.Statement .ebreak := by
  intro x _
  cases x <;> exact ⟨by decide, by decide⟩

theorem EncodingRow.uret : EncodingRow.Statement .uret := by
  intro x _
  cases x <;> exact ⟨by decide, by decide⟩

theorem EncodingRow.sret : EncodingRow.Statement .sret := by
  intro x _
  cases x <;> exact ⟨by decide, by decide⟩

theorem EncodingRow.mret : EncodingRow.Statement .mret := by
  intro x _
  cases x <;> exact ⟨by decide, by decide⟩

theorem EncodingRow.wfi : EncodingRow.Statement .wfi := by
  intro x _
  cases x <;> exact ⟨by decide, by decide⟩

theorem EncodingRow.sfenceVma (rs1 rs2 : Reg) : EncodingRow.Statement (.sfenceVma rs1 rs2) := by
  intro x _
  exact ⟨by cases x <;> exact of_decide_eq_true rfl, encR_maskRd _ _ _ _ _ _⟩

theorem EncodingRow.lb (rd rs1 : Reg) (offset : BitVec 12) : EncodingRow.Statement (.lb rd rs1 offset) := by
  intro x _
  exact ⟨by cases x <;> exact of_decide_eq_true rfl, encI_mask _ _ _ _ _⟩

theorem EncodingRow.lh (rd rs1 : Reg) (offset : BitVec 12) : EncodingRow.Statement (.lh rd rs1 offset) := by
  intro x _
  exact ⟨by cases x <;> exact of_decide_eq_true rfl, encI_mask _ _ _ _ _⟩

theorem EncodingRow.lw (rd rs1 : Reg) (offset : BitVec 12) : EncodingRow.Statement (.lw rd rs1 offset) := by
  intro x _
  exact ⟨by cases x <;> exact of_decide_eq_true rfl, encI_mask _ _ _ _ _⟩

theorem EncodingRow.lbu (rd rs1 : Reg) (offset : BitVec 12) : EncodingRow.Statement (.lbu rd rs1 offset) := by
  intro x _
  exact ⟨by cases x <;> exact of_decide_eq_true rfl, encI_mask _ _ _ _ _⟩

theorem EncodingRow.lhu (rd rs1 : Reg) (offset : BitVec 12) : EncodingRow.Statement (.lhu rd rs1 offset) := by
  intro x _
  exact ⟨by cases x <;> exact of_decide_eq_true rfl, encI_mask _ _ _ _ _⟩

theorem EncodingRow.sb (rs2 rs1 : Reg) (offset : BitVec 12) : EncodingRow.Statement (.sb rs2 rs1 offset) := by
  intro x _
  exact ⟨by cases x <;> exact of_decide_eq_true rfl, encS_mask _ _ _ _ _⟩

theorem EncodingRow.sh (rs2 rs1 : Reg) (offset : BitVec 12) : EncodingRow.Statement (.sh rs2 rs1 offset) := by
  intro x _
  exact ⟨by cases x <;> exact of_decide_eq_true rfl, encS_mask _ _ _ _ _⟩

theorem EncodingRow.sw (rs2 rs1 : Reg) (offset : BitVec 12) : EncodingRow.Statement (.sw rs2 rs1 offset) := by
  intro x _
  exact ⟨by cases x <;> exact of_decide_eq_true rfl, encS_mask _ _ _ _ _⟩

theorem EncodingRow.jal (rd : Reg) (offset : BitVec 21) : EncodingRow.Statement (.jal rd offset) := by
  intro x _
  exact ⟨by cases x <;> exact of_decide_eq_true rfl, encJ_mask _ _ _⟩

theorem EncodingRow.jalr (rd rs1 : Reg) (offset : BitVec 12) : EncodingRow.Statement (.jalr rd rs1 offset) := by
  intro x _
  exact ⟨by cases x <;> exact of_decide_eq_true rfl, encI_mask _ _ _ _ _⟩

theorem EncodingRow.beq (rs1 rs2 : Reg) (offset : BitVec 13) : EncodingRow.Statement (.beq rs1 rs2 offset) := by
  intro x _
  exact ⟨by cases x <;> exact of_decide_eq_true rfl, encB_mask _ _ _ _ _⟩

theorem EncodingRow.bne (rs1 rs2 : Reg) (offset : BitVec 13) : EncodingRow.Statement (.bne rs1 rs2 offset) := by
  intro x _
  exact ⟨by cases x <;> exact of_decide_eq_true rfl, encB_mask _ _ _ _ _⟩

theorem EncodingRow.blt (rs1 rs2 : Reg) (offset : BitVec 13) : EncodingRow.Statement (.blt rs1 rs2 offset) := by
  intro x _
  exact ⟨by cases x <;> exact of_decide_eq_true rfl, encB_mask _ _ _ _ _⟩

theorem EncodingRow.bge (rs1 rs2 : Reg) (offset : BitVec 13) : EncodingRow.Statement (.bge rs1 rs2 offset) := by
  intro x _
  exact ⟨by cases x <;> exact of_decide_eq_true rfl, encB_mask _ _ _ _ _⟩

theorem EncodingRow.bltu (rs1 rs2 : Reg) (offset : BitVec 13) : EncodingRow.Statement (.bltu rs1 rs2 offset) := by
  intro x _
  exact ⟨by cases x <;> exact of_decide_eq_true rfl, encB_mask _ _ _ _ _⟩

theorem EncodingRow.bgeu (rs1 rs2 : Reg) (offset : BitVec 13) : EncodingRow.Statement (.bgeu rs1 rs2 offset) := by
  intro x _
  exact ⟨by cases x <;> exact of_decide_eq_true rfl, encB_mask _ _ _ _ _⟩

theorem EncodingRow.lwu (rd rs1 : Reg) (offset : BitVec 12) : EncodingRow.Statement (.lwu rd rs1 offset) := by
  intro x h
  cases x
  · cases h
  · exact ⟨of_decide_eq_true rfl, encI_mask _ _ _ _ _⟩

theorem EncodingRow.ld (rd rs1 : Reg) (offset : BitVec 12) : EncodingRow.Statement (.ld rd rs1 offset) := by
  intro x h
  cases x
  · cases h
  · exact ⟨of_decide_eq_true rfl, encI_mask _ _ _ _ _⟩

theorem EncodingRow.sd (rs2 rs1 : Reg) (offset : BitVec 12) : EncodingRow.Statement (.sd rs2 rs1 offset) := by
  intro x h
  cases x
  · cases h
  · exact ⟨of_decide_eq_true rfl, encS_mask _ _ _ _ _⟩

theorem EncodingRow.addiw (rd rs1 : Reg) (imm : BitVec 12) : EncodingRow.Statement (.addiw rd rs1 imm) := by
  intro x h
  cases x
  · cases h
  · exact ⟨of_decide_eq_true rfl, encI_mask _ _ _ _ _⟩

theorem EncodingRow.slliw (rd rs1 : Reg) (shamt : BitVec 5) : EncodingRow.Statement (.slliw rd rs1 shamt) := by
  intro x h
  cases x
  · cases h
  · exact ⟨of_decide_eq_true rfl, encR_mask _ _ _ _ _ _⟩

theorem EncodingRow.srliw (rd rs1 : Reg) (shamt : BitVec 5) : EncodingRow.Statement (.srliw rd rs1 shamt) := by
  intro x h
  cases x
  · cases h
  · exact ⟨of_decide_eq_true rfl, encR_mask _ _ _ _ _ _⟩

theorem EncodingRow.sraiw (rd rs1 : Reg) (shamt : BitVec 5) : EncodingRow.Statement (.sraiw rd rs1 shamt) := by
  intro x h
  cases x
  · cases h
  · exact ⟨of_decide_eq_true rfl, encR_mask _ _ _ _ _ _⟩

theorem EncodingRow.addw (rd rs1 rs2 : Reg) : EncodingRow.Statement (.addw rd rs1 rs2) := by
  intro x h
  cases x
  · cases h
  · exact ⟨of_decide_eq_true rfl, encR_mask _ _ _ _ _ _⟩

theorem EncodingRow.subw (rd rs1 rs2 : Reg) : EncodingRow.Statement (.subw rd rs1 rs2) := by
  intro x h
  cases x
  · cases h
  · exact ⟨of_decide_eq_true rfl, encR_mask _ _ _ _ _ _⟩

theorem EncodingRow.sllw (rd rs1 rs2 : Reg) : EncodingRow.Statement (.sllw rd rs1 rs2) := by
  intro x h
  cases x
  · cases h
  · exact ⟨of_decide_eq_true rfl, encR_mask _ _ _ _ _ _⟩

theorem EncodingRow.srlw (rd rs1 rs2 : Reg) : EncodingRow.Statement (.srlw rd rs1 rs2) := by
  intro x h
  cases x
  · cases h
  · exact ⟨of_decide_eq_true rfl, encR_mask _ _ _ _ _ _⟩

theorem EncodingRow.sraw (rd rs1 rs2 : Reg) : EncodingRow.Statement (.sraw rd rs1 rs2) := by
  intro x h
  cases x
  · cases h
  · exact ⟨of_decide_eq_true rfl, encR_mask _ _ _ _ _ _⟩

end Sys2Proof.Laws
end

