-- ==== Sys2Proof/Tests/Slice0.lean ====
section
/-! SUPPORT. Tests of one step or one operation each, and for every statement with hypotheses a witness that meets them.
Expected values are those of spec/95_test_vectors.md part 2 (the section is named above each group), not the model's. -/

namespace Sys2Proof.Tests

open Sys2Proof.Machine

/-! ### The small states the tests start from -/

/-- The state of 95_test_vectors.md part 2: `pc` 0x1000, M-mode, `mtvec` 0x2000, `stvec` 0x3000, with these registers. -/
def testHart (x : Xlen) (regs : List (Reg × Nat)) : Hart x :=
  let h := (State.launch x (Config.default x) [] []).hart
  regs.foldl (fun h p => h.writeX p.1 (BitVec.ofNat x.bits p.2)) { h with pc := 0x1000, mtvec := 0x2000, stvec := 0x3000 }

/-- With 16 bytes from address 0x1100 up, which is in `x6` (95_test_vectors.md 2.8). -/
def loadHart (x : Xlen) : Hart x :=
  { testHart x [(6, 0x1100), (7, 0xCAFEBABE)] with
    mem := [(0x1100, 0x80), (0x1101, 0x91), (0x1102, 0xA2), (0x1103, 0xB3), (0x1104, 0x04), (0x1105, 0x15),
      (0x1106, 0x26), (0x1107, 0xF7), (0x1108, 0x88), (0x1109, 0x99), (0x110A, 0xAA), (0x110B, 0xBB), (0x110C, 0xCC),
      (0x110D, 0xDD), (0x110E, 0xEE), (0x110F, 0xFF)] }

/-- With a device at 0x10000 to 0x10007, which is in `x6`, that answers 0x0123456789ABCDEF. -/
def ioHart (x : Xlen) : Hart x :=
  { testHart x [(6, 0x10000), (7, 0xCAFEBABE)] with
    cfg := { Config.default x with regions := [⟨0, 0x2000, .main, false⟩, ⟨0x2000, 1, .io, false⟩] }
    now := { StepInput.quiet with draws := ⟨0x0123456789ABCDEF, .zero, .zero, false, []⟩ } }

/-- With the instruction `addi x0, x0, 0` at `pc` and this input for the next step. -/
def nopHart (x : Xlen) (input : StepInput) : Hart x :=
  { testHart x [] with mem := [(0x1000, 0x13), (0x1001, 0), (0x1002, 0), (0x1003, 0)], env := [input] }

/-- An observation of the hart after an instruction, where it gives a next state. -/
def after {x : Xlen} (h : Hart x) (i : Instr) (see : State → Nat) : Option Nat :=
  match exec i ⟨x, h⟩ with
  | .next s => some (see s)
  | .fault _ => none
  | .refused _ => none

/-- The same, after a step. -/
def afterStep {x : Xlen} (h : Hart x) (see : State → Nat) : Option Nat :=
  match step ⟨x, h⟩ with
  | .next s => some (see s)
  | .fault _ => none
  | .refused _ => none

def reg (r : Reg) (s : State) : Nat := (s.hart.readX r).toNat
def pc (s : State) : Nat := s.hart.pc.toNat
def mode (s : State) : Nat := Priv.num s.hart.priv
def csr (c : Csr) (s : State) : Nat := (s.hart.csrRead c).toNat
def byte (a : Nat) (s : State) : Nat :=
  match Memory.read s.hart.mem a with
  | some b => b.toNat
  | none => 256
def waits (s : State) : Nat := if s.hart.waiting then 1 else 0

/-! ### WellFormed refuses the ill-formed -/

theorem test_shamt_32_ill_formed_on_rv32 : WellFormed .rv32 (.slli 5 6 32) = false := by decide
theorem test_shamt_32_ill_formed_on_rv32_srli : WellFormed .rv32 (.srli 5 6 32) = false := by decide
theorem test_shamt_63_ill_formed_on_rv32_srai : WellFormed .rv32 (.srai 5 6 63) = false := by decide
theorem test_shamt_63_well_formed_on_rv64 : WellFormed .rv64 (.srai 5 6 63) = true := by decide
theorem test_odd_jump_offset_ill_formed : WellFormed .rv32 (.jal 1 3) = false := by decide
theorem test_odd_branch_offset_ill_formed : WellFormed .rv64 (.bgeu 6 7 0x1FFF) = false := by decide
theorem test_ld_ill_formed_on_rv32 : WellFormed .rv32 (.ld 5 6 0) = false := by decide
theorem test_sraw_ill_formed_on_rv32 : WellFormed .rv32 (.sraw 5 6 7) = false := by decide

/-! ### Every constructor's decoding, from the words of 95_test_vectors.md 2.1 to 2.8 -/

theorem test_decode_lui : decode .rv32 0x123452B7 = .ok (.lui 5 0x12345) := by decide
theorem test_decode_auipc : decode .rv32 0xFFFFF297 = .ok (.auipc 5 0xFFFFF) := by decide
theorem test_decode_addi : decode .rv32 0xFFF30293 = .ok (.addi 5 6 0xFFF) := by decide
theorem test_decode_slti : decode .rv32 0xFFF32293 = .ok (.slti 5 6 0xFFF) := by decide
theorem test_decode_sltiu : decode .rv32 0x00133293 = .ok (.sltiu 5 6 1) := by decide
theorem test_decode_xori : decode .rv32 0x55534293 = .ok (.xori 5 6 0x555) := by decide
theorem test_decode_ori : decode .rv32 0x0F036293 = .ok (.ori 5 6 0x0F0) := by decide
theorem test_decode_andi : decode .rv32 0xFF037293 = .ok (.andi 5 6 0xFF0) := by decide
theorem test_decode_slli : decode .rv32 0x00431293 = .ok (.slli 5 6 4) := by decide
theorem test_decode_slli_64 : decode .rv64 0x02031293 = .ok (.slli 5 6 32) := by decide
theorem test_decode_srli : decode .rv32 0x01F35293 = .ok (.srli 5 6 31) := by decide
theorem test_decode_srai : decode .rv32 0x40435293 = .ok (.srai 5 6 4) := by decide
theorem test_decode_srai_64 : decode .rv64 0x43F35293 = .ok (.srai 5 6 63) := by decide
theorem test_decode_add : decode .rv32 0x007302B3 = .ok (.add 5 6 7) := by decide
theorem test_decode_sub : decode .rv32 0x407302B3 = .ok (.sub 5 6 7) := by decide
theorem test_decode_sll : decode .rv32 0x007312B3 = .ok (.sll 5 6 7) := by decide
theorem test_decode_slt : decode .rv32 0x007322B3 = .ok (.slt 5 6 7) := by decide
theorem test_decode_sltu : decode .rv32 0x007032B3 = .ok (.sltu 5 0 7) := by decide
theorem test_decode_xor : decode .rv32 0x007342B3 = .ok (.xor 5 6 7) := by decide
theorem test_decode_srl : decode .rv32 0x007352B3 = .ok (.srl 5 6 7) := by decide
theorem test_decode_sra : decode .rv32 0x407352B3 = .ok (.sra 5 6 7) := by decide
theorem test_decode_or : decode .rv32 0x007362B3 = .ok (.or 5 6 7) := by decide
theorem test_decode_and : decode .rv32 0x007372B3 = .ok (.and 5 6 7) := by decide
theorem test_decode_fence : decode .rv32 0x0120000F = .ok (.fence 0 1 2 0 0) := by decide
theorem test_decode_fence_reserved_fields : decode .rv32 0x8330000F = .ok (.fence 8 3 3 0 0) := by decide
theorem test_decode_fenceI : decode .rv32 0x0000100F = .ok (.fenceI 0 0 0) := by decide
theorem test_decode_csrrw : decode .rv32 0x340312F3 = .ok (.csrrw 5 0x340 6) := by decide
theorem test_decode_csrrs : decode .rv32 0xF14022F3 = .ok (.csrrs 5 0xF14 0) := by decide
theorem test_decode_csrrc : decode .rv32 0x300332F3 = .ok (.csrrc 5 0x300 6) := by decide
theorem test_decode_csrrwi : decode .rv32 0x3408D2F3 = .ok (.csrrwi 5 0x340 17) := by decide
theorem test_decode_csrrsi : decode .rv32 0x30046073 = .ok (.csrrsi 0 0x300 8) := by decide
theorem test_decode_csrrci : decode .rv32 0x340FF2F3 = .ok (.csrrci 5 0x340 31) := by decide
theorem test_decode_ecall : decode .rv32 0x00000073 = .ok .ecall := by decide
theorem test_decode_ebreak : decode .rv32 0x00100073 = .ok .ebreak := by decide
theorem test_decode_uret : decode .rv32 0x00200073 = .ok .uret := by decide
theorem test_decode_sret : decode .rv32 0x10200073 = .ok .sret := by decide
theorem test_decode_mret : decode .rv32 0x30200073 = .ok .mret := by decide
theorem test_decode_wfi : decode .rv32 0x10500073 = .ok .wfi := by decide
theorem test_decode_sfenceVma : decode .rv32 0x12B50073 = .ok (.sfenceVma 10 11) := by decide
theorem test_decode_lb : decode .rv32 0xFFF30283 = .ok (.lb 5 6 0xFFF) := by decide
theorem test_decode_lh : decode .rv32 0x00431283 = .ok (.lh 5 6 4) := by decide
theorem test_decode_lw : decode .rv32 0xFFC32283 = .ok (.lw 5 6 0xFFC) := by decide
theorem test_decode_lbu : decode .rv32 0x00334283 = .ok (.lbu 5 6 3) := by decide
theorem test_decode_lhu : decode .rv32 0x00235283 = .ok (.lhu 5 6 2) := by decide
theorem test_decode_sb : decode .rv32 0x7E730FA3 = .ok (.sb 7 6 2047) := by decide
theorem test_decode_sh : decode .rv32 0x00731123 = .ok (.sh 7 6 2) := by decide
theorem test_decode_sw : decode .rv32 0xFE732E23 = .ok (.sw 7 6 0xFFC) := by decide
theorem test_decode_jal : decode .rv32 0xFFDFF06F = .ok (.jal 0 0x1FFFFC) := by decide
theorem test_decode_jal_far : decode .rv32 0x7FDFF0EF = .ok (.jal 1 1048572) := by decide
theorem test_decode_jalr : decode .rv32 0xFFD300E7 = .ok (.jalr 1 6 0xFFD) := by decide
theorem test_decode_beq : decode .rv32 0x7E000EE3 = .ok (.beq 0 0 4092) := by decide
theorem test_decode_bne : decode .rv32 0xFE731CE3 = .ok (.bne 6 7 0x1FF8) := by decide
theorem test_decode_blt : decode .rv32 0x00734863 = .ok (.blt 6 7 16) := by decide
theorem test_decode_bge : decode .rv32 0x00735863 = .ok (.bge 6 7 16) := by decide
theorem test_decode_bltu : decode .rv32 0x00736863 = .ok (.bltu 6 7 16) := by decide
theorem test_decode_bgeu : decode .rv32 0xFE7378E3 = .ok (.bgeu 6 7 0x1FF0) := by decide
theorem test_decode_lwu : decode .rv64 0x00436283 = .ok (.lwu 5 6 4) := by decide
theorem test_decode_ld : decode .rv64 0x00833283 = .ok (.ld 5 6 8) := by decide
theorem test_decode_sd : decode .rv64 0x00733423 = .ok (.sd 7 6 8) := by decide
theorem test_decode_addiw : decode .rv64 0xFFF3029B = .ok (.addiw 5 6 0xFFF) := by decide
theorem test_decode_slliw : decode .rv64 0x01F3129B = .ok (.slliw 5 6 31) := by decide
theorem test_decode_srliw : decode .rv64 0x0043529B = .ok (.srliw 5 6 4) := by decide
theorem test_decode_sraiw : decode .rv64 0x4043529B = .ok (.sraiw 5 6 4) := by decide
theorem test_decode_addw : decode .rv64 0x007302BB = .ok (.addw 5 6 7) := by decide
theorem test_decode_subw : decode .rv64 0x407002BB = .ok (.subw 5 0 7) := by decide
theorem test_decode_sllw : decode .rv64 0x007312BB = .ok (.sllw 5 6 7) := by decide
theorem test_decode_srlw : decode .rv64 0x007352BB = .ok (.srlw 5 6 7) := by decide
theorem test_decode_sraw : decode .rv64 0x407352BB = .ok (.sraw 5 6 7) := by decide

/-! ### Words that are no instruction (95_test_vectors.md 2.1 to 2.8) -/

theorem test_no_instruction_slli_shamt32_on_rv32 : decode .rv32 0x02031293 = .error .reservedShift := by decide
theorem test_no_instruction_srli_funct7_0110000 : decode .rv32 0x60435293 = .error .unusedFunction := by decide
theorem test_no_instruction_mul_shape : decode .rv32 0x027302B3 = .error .unusedFunction := by decide
theorem test_no_instruction_sub_shape_funct3_001 : decode .rv32 0x407312B3 = .error .unusedFunction := by decide
theorem test_no_instruction_misc_mem_funct3_010 : decode .rv32 0x0000200F = .error .unusedFunction := by decide
theorem test_no_instruction_system_funct3_100 : decode .rv32 0x34004073 = .error .unusedFunction := by decide
theorem test_no_instruction_sfence_vma_with_rd : decode .rv32 0x120002F3 = .error .reservedSystem := by decide
theorem test_no_instruction_system_0x003 : decode .rv32 0x00300073 = .error .reservedSystem := by decide
theorem test_no_instruction_ecall_with_rd : decode .rv32 0x000000F3 = .error .reservedSystem := by decide
theorem test_no_instruction_ld_on_rv32 : decode .rv32 0x00033283 = .error .needsXlen64 := by decide
theorem test_no_instruction_load_funct3_111 : decode .rv32 0x00037283 = .error .unusedFunction := by decide
theorem test_no_instruction_jalr_funct3_001 : decode .rv32 0x000310E7 = .error .unusedFunction := by decide
theorem test_no_instruction_branch_funct3_010 : decode .rv32 0x00732463 = .error .unusedFunction := by decide
theorem test_no_instruction_slliw_bit25 : decode .rv64 0x0203129B = .error .unusedFunction := by decide
theorem test_no_instruction_sltw_shape : decode .rv64 0x007322BB = .error .unusedFunction := by decide
theorem test_no_instruction_addiw_on_rv32 : decode .rv32 0x0013029B = .error .needsXlen64 := by decide
theorem test_no_instruction_all_zeros : decode .rv32 0x00000000 = .error .notThirtyTwoBit := by decide
theorem test_no_instruction_opcode_0001011 : decode .rv32 0x0000000B = .error .unknownOpcode := by decide

theorem test_decode_bytes_little_endian :
    decodeBytes .rv32 [0xB3, 0x02, 0x73, 0x40, 0xFF] = .ok (.sub 5 6 7, [0xFF]) := by decide
theorem test_decode_three_bytes : decodeBytes .rv32 [0xB3, 0x02, 0x73] = .error .tooShort := by decide
theorem test_table_word_of_an_rv64_row : decodeTableWord 32 0x407352BB = some (.sraw 5 6 7) := by decide

/-! ### The computational instructions (95_test_vectors.md 2.1, 2.2, 2.8) -/

theorem test_lui_sign_extends : after (testHart .rv64 []) (.lui 5 0x80000) (reg 5) = some 0xFFFFFFFF80000000 := by decide
theorem test_auipc_wraps_to_zero : after (testHart .rv32 []) (.auipc 5 0xFFFFF) (reg 5) = some 0 := by decide
theorem test_addi_wraps : after (testHart .rv32 [(6, 0x80000000)]) (.addi 5 6 0x800) (reg 5) = some 0x7FFFF800 := by decide
theorem test_addi_same_register : after (testHart .rv32 [(5, 0xFFFFFFFF)]) (.addi 5 5 1) (reg 5) = some 0 := by decide
theorem test_slti_equal : after (testHart .rv32 [(6, 0xFFFFFFFF)]) (.slti 5 6 0xFFF) (reg 5) = some 0 := by decide
theorem test_slti_negative : after (testHart .rv32 [(6, 0x80000000)]) (.slti 5 6 0) (reg 5) = some 1 := by decide
theorem test_sltiu_immediate_unsigned : after (testHart .rv32 [(6, 0xFFFFFFFE)]) (.sltiu 5 6 0xFFF) (reg 5) = some 1 := by decide
theorem test_sltiu_equal : after (testHart .rv32 [(6, 0xFFFFFFFF)]) (.sltiu 5 6 0xFFF) (reg 5) = some 0 := by decide
theorem test_xori_not : after (testHart .rv32 [(6, 0x0F0F1234)]) (.xori 5 6 0xFFF) (reg 5) = some 0xF0F0EDCB := by decide
theorem test_ori_sign_extends : after (testHart .rv32 [(6, 1)]) (.ori 5 6 0x800) (reg 5) = some 0xFFFFF801 := by decide
theorem test_andi_sign_extends : after (testHart .rv32 [(6, 0x12345678)]) (.andi 5 6 0xFF0) (reg 5) = some 0x12345670 := by decide
theorem test_slli_drops_high_bits : after (testHart .rv32 [(6, 0xF2345678)]) (.slli 5 6 4) (reg 5) = some 0x23456780 := by decide
theorem test_slli_by_32 : after (testHart .rv64 [(6, 1)]) (.slli 5 6 32) (reg 5) = some 0x100000000 := by decide
theorem test_srli_fills_zeros : after (testHart .rv32 [(6, 0xF2345678)]) (.srli 5 6 4) (reg 5) = some 0x0F234567 := by decide
theorem test_srai_fills_signs : after (testHart .rv32 [(6, 0xF2345678)]) (.srai 5 6 4) (reg 5) = some 0xFF234567 := by decide
theorem test_srai_by_63 : after (testHart .rv64 [(6, 0x8000000000000000)]) (.srai 5 6 63) (reg 5) = some 0xFFFFFFFFFFFFFFFF := by decide
theorem test_add_overflow_ignored : after (testHart .rv32 [(6, 0x7FFFFFFF), (7, 1)]) (.add 5 6 7) (reg 5) = some 0x80000000 := by decide
theorem test_sub_borrows : after (testHart .rv32 [(6, 0), (7, 1)]) (.sub 5 6 7) (reg 5) = some 0xFFFFFFFF := by decide
theorem test_sub_order : after (testHart .rv32 [(6, 0x80000000), (7, 1)]) (.sub 5 6 7) (reg 5) = some 0x7FFFFFFF := by decide
theorem test_sll_uses_five_bits : after (testHart .rv32 [(6, 1), (7, 0xFFFFFFE1)]) (.sll 5 6 7) (reg 5) = some 2 := by decide
theorem test_sll_uses_six_bits : after (testHart .rv64 [(6, 1), (7, 0x20)]) (.sll 5 6 7) (reg 5) = some 0x100000000 := by decide
theorem test_slt_signed : after (testHart .rv32 [(6, 0xFFFFFFFF), (7, 1)]) (.slt 5 6 7) (reg 5) = some 1 := by decide
theorem test_slt_equal : after (testHart .rv32 [(6, 0x80000000), (7, 0x80000000)]) (.slt 5 6 7) (reg 5) = some 0 := by decide
theorem test_sltu_unsigned : after (testHart .rv32 [(6, 0xFFFFFFFF), (7, 1)]) (.sltu 5 6 7) (reg 5) = some 0 := by decide
theorem test_sltu_below : after (testHart .rv32 [(6, 1), (7, 0xFFFFFFFF)]) (.sltu 5 6 7) (reg 5) = some 1 := by decide
theorem test_xor : after (testHart .rv32 [(6, 0xFF00FF00), (7, 0x0FF00FF0)]) (.xor 5 6 7) (reg 5) = some 0xF0F0F0F0 := by decide
theorem test_srl_uses_five_bits : after (testHart .rv32 [(6, 0x80000000), (7, 0x24)]) (.srl 5 6 7) (reg 5) = some 0x08000000 := by decide
theorem test_sra_uses_five_bits : after (testHart .rv32 [(6, 0x80000000), (7, 0x24)]) (.sra 5 6 7) (reg 5) = some 0xF8000000 := by decide
theorem test_sra_positive : after (testHart .rv32 [(6, 0x40000000), (7, 4)]) (.sra 5 6 7) (reg 5) = some 0x04000000 := by decide
theorem test_or : after (testHart .rv32 [(6, 0xFF00FF00), (7, 0x0FF00FF0)]) (.or 5 6 7) (reg 5) = some 0xFFF0FFF0 := by decide
theorem test_and : after (testHart .rv32 [(6, 0xFF00FF00), (7, 0x0FF00FF0)]) (.and 5 6 7) (reg 5) = some 0x0F000F00 := by decide
theorem test_addiw_wraps_at_32_bits : after (testHart .rv64 [(6, 0x7FFFFFFF)]) (.addiw 5 6 1) (reg 5) = some 0xFFFFFFFF80000000 := by decide
theorem test_addiw_drops_high_word : after (testHart .rv64 [(6, 0x100000000)]) (.addiw 5 6 0xFFF) (reg 5) = some 0xFFFFFFFFFFFFFFFF := by decide
theorem test_slliw_sign_extends : after (testHart .rv64 [(6, 1)]) (.slliw 5 6 31) (reg 5) = some 0xFFFFFFFF80000000 := by decide
theorem test_srliw_ignores_high_word : after (testHart .rv64 [(6, 0xFFFFFFFF80000000)]) (.srliw 5 6 4) (reg 5) = some 0x08000000 := by decide
theorem test_srliw_sign_extends : after (testHart .rv64 [(6, 0x80000000)]) (.srliw 5 6 0) (reg 5) = some 0xFFFFFFFF80000000 := by decide
theorem test_sraiw_fills_bit_31 : after (testHart .rv64 [(6, 0x80000000)]) (.sraiw 5 6 4) (reg 5) = some 0xFFFFFFFFF8000000 := by decide
theorem test_sraiw_ignores_high_word : after (testHart .rv64 [(6, 0x17FFFFFFF)]) (.sraiw 5 6 31) (reg 5) = some 0 := by decide
theorem test_addw : after (testHart .rv64 [(6, 0xFFFFFFFF00000001), (7, 0x100000001)]) (.addw 5 6 7) (reg 5) = some 2 := by decide
theorem test_subw_order : after (testHart .rv64 [(6, 0x80000000), (7, 1)]) (.subw 5 6 7) (reg 5) = some 0x7FFFFFFF := by decide
theorem test_subw_negative : after (testHart .rv64 [(7, 1)]) (.subw 5 0 7) (reg 5) = some 0xFFFFFFFFFFFFFFFF := by decide
theorem test_sllw_uses_five_bits : after (testHart .rv64 [(6, 1), (7, 0x20)]) (.sllw 5 6 7) (reg 5) = some 1 := by decide
theorem test_sllw_sign_extends : after (testHart .rv64 [(6, 1), (7, 0x3F)]) (.sllw 5 6 7) (reg 5) = some 0xFFFFFFFF80000000 := by decide
theorem test_srlw : after (testHart .rv64 [(6, 0xFFFFFFFF80000000), (7, 4)]) (.srlw 5 6 7) (reg 5) = some 0x08000000 := by decide
theorem test_sraw_negative : after (testHart .rv64 [(6, 0x80000000), (7, 4)]) (.sraw 5 6 7) (reg 5) = some 0xFFFFFFFFF8000000 := by decide
theorem test_sraw_positive : after (testHart .rv64 [(6, 0x40000000), (7, 0x24)]) (.sraw 5 6 7) (reg 5) = some 0x04000000 := by decide

theorem test_write_to_x0_discarded : after (testHart .rv32 [(6, 1), (7, 2)]) (.add 0 6 7) (reg 0) = some 0 := by decide
theorem test_pc_moves_by_4 : after (testHart .rv32 []) (.lui 0 0xFFFFF) pc = some 0x1004 := by decide
theorem test_reserved_shift_traps : after (testHart .rv32 [(6, 1)]) (.srli 5 6 32) (csr .mcause) = some 2 := by decide
theorem test_addw_on_rv32_traps : after (testHart .rv32 [(6, 1), (7, 2)]) (.addw 5 6 7) pc = some 0x2000 := by decide

/-! ### Fences (95_test_vectors.md 2.3) -/

theorem test_fence : after (testHart .rv32 [(5, 0x11111111)]) (.fence 0 3 3 6 5) (reg 5) = some 0x11111111 := by decide
theorem test_fenceI : after (testHart .rv32 []) (.fenceI 0 0 0) pc = some 0x1004 := by decide

/-! ### Loads and stores (95_test_vectors.md 2.6, 2.8) -/

theorem test_lb_sign_extends : after (loadHart .rv32) (.lb 5 6 0) (reg 5) = some 0xFFFFFF80 := by decide
theorem test_lb_positive : after (loadHart .rv32) (.lb 5 6 4) (reg 5) = some 4 := by decide
theorem test_lbu : after (loadHart .rv32) (.lbu 5 6 3) (reg 5) = some 0xB3 := by decide
theorem test_lh_sign_extends : after (loadHart .rv32) (.lh 5 6 2) (reg 5) = some 0xFFFFB3A2 := by decide
theorem test_lhu : after (loadHart .rv32) (.lhu 5 6 2) (reg 5) = some 0xB3A2 := by decide
theorem test_lw_little_endian : after (loadHart .rv32) (.lw 5 6 0) (reg 5) = some 0xB3A29180 := by decide
theorem test_lw_sign_extends : after (loadHart .rv64) (.lw 5 6 0) (reg 5) = some 0xFFFFFFFFB3A29180 := by decide
theorem test_lwu : after (loadHart .rv64) (.lwu 5 6 4) (reg 5) = some 0xF7261504 := by decide
theorem test_ld : after (loadHart .rv64) (.ld 5 6 8) (reg 5) = some 0xFFEEDDCCBBAA9988 := by decide
theorem test_ld_low : after (loadHart .rv64) (.ld 5 6 0) (reg 5) = some 0xF7261504B3A29180 := by decide
theorem test_sb : after (loadHart .rv32) (.sb 7 6 3) (byte 0x1103) = some 0xBE := by decide
theorem test_sh : after (loadHart .rv32) (.sh 7 6 2) (byte 0x1103) = some 0xBA := by decide
theorem test_sw_low_byte : after (loadHart .rv32) (.sw 7 6 4) (byte 0x1104) = some 0xBE := by decide
theorem test_sw_high_byte : after (loadHart .rv32) (.sw 7 6 4) (byte 0x1107) = some 0xCA := by decide
theorem test_sd_low_byte : after (loadHart .rv64) (.sd 7 6 8) (byte 0x1108) = some 0xBE := by decide
theorem test_sd_high_byte : after (loadHart .rv64) (.sd 7 6 8) (byte 0x110F) = some 0x00 := by decide
theorem test_misaligned_load_traps : after (loadHart .rv32) (.lh 5 6 1) (csr .mtval) = some 0x1101 := by decide
theorem test_misaligned_store_traps : after (loadHart .rv32) (.sh 7 6 1) (csr .mcause) = some 6 := by decide
theorem test_vacant_load_traps : after (testHart .rv32 [(6, 0x10000)]) (.lbu 5 6 0) (csr .mcause) = some 5 := by decide
theorem test_vacant_store_traps :
    after (testHart .rv32 [(6, 0x80000000)]) (.sb 7 6 0) (csr .mtval) = some 0x80000000 := by decide
theorem test_effective_address_wraps : after (testHart .rv32 []) (.lhu 5 6 0xFFE) (csr .mtval) = some 0xFFFFFFFE := by decide

/-! ### Jumps and branches (95_test_vectors.md 2.7) -/

theorem test_jal_link : after (testHart .rv32 []) (.jal 1 8) (reg 1) = some 0x1004 := by decide
theorem test_jalr_same_register : after (testHart .rv32 [(6, 0x2000)]) (.jalr 6 6 4) pc = some 0x2004 := by decide
theorem test_jalr_clears_bit_0 : after (testHart .rv32 [(6, 0x2007)]) (.jalr 1 6 0xFFD) pc = some 0x2004 := by decide
theorem test_misaligned_jal_link_not_written :
    after (testHart .rv32 [(1, 0x55555555)]) (.jal 1 2) (reg 1) = some 0x55555555 := by decide
theorem test_beq_taken : after (testHart .rv32 [(6, 5), (7, 5)]) (.beq 6 7 8) pc = some 0x1008 := by decide
theorem test_beq_misaligned_not_taken : after (testHart .rv32 [(6, 5), (7, 6)]) (.beq 6 7 6) pc = some 0x1004 := by decide
theorem test_bne_taken : after (testHart .rv32 [(6, 5), (7, 6)]) (.bne 6 7 0x1FF8) pc = some 0xFF8 := by decide
theorem test_blt_signed : after (testHart .rv32 [(6, 0xFFFFFFFF), (7, 1)]) (.blt 6 7 16) pc = some 0x1010 := by decide
theorem test_blt_equal : after (testHart .rv32 [(6, 1), (7, 1)]) (.blt 6 7 16) pc = some 0x1004 := by decide
theorem test_bge_signed : after (testHart .rv32 [(6, 0xFFFFFFFF), (7, 1)]) (.bge 6 7 16) pc = some 0x1004 := by decide
theorem test_bge_equal : after (testHart .rv32 [(6, 1), (7, 1)]) (.bge 6 7 16) pc = some 0x1010 := by decide
theorem test_bltu_unsigned : after (testHart .rv32 [(6, 0xFFFFFFFF), (7, 1)]) (.bltu 6 7 16) pc = some 0x1004 := by decide
theorem test_bltu_taken : after (testHart .rv32 [(6, 1), (7, 0xFFFFFFFF)]) (.bltu 6 7 16) pc = some 0x1010 := by decide
theorem test_bgeu_taken : after (testHart .rv32 [(6, 0xFFFFFFFF), (7, 1)]) (.bgeu 6 7 0x1FF0) pc = some 0xFF0 := by decide

/-! ### Control and status registers (95_test_vectors.md 2.4) -/

theorem test_csrrw_old_value :
    after { testHart .rv32 [(5, 0x22222222)] with mscratch := 0x11111111 } (.csrrw 5 0x340 5) (reg 5) =
      some 0x11111111 := by decide
theorem test_csrrw_mstatus_all_ones :
    after (testHart .rv32 [(6, 0xFFFFFFFF)]) (.csrrw 0 0x300 6) (csr .mstatus) = some 0x007A19AA := by decide
theorem test_csrrs_read_only_without_write : after (testHart .rv32 []) (.csrrs 5 0x301 0) (reg 5) = some 0x40140100 := by
  decide
theorem test_csrrs_read_only_with_write : after (testHart .rv32 []) (.csrrs 5 0xF14 6) (csr .mcause) = some 2 := by decide
theorem test_csrrc_keeps_on_x0 :
    after { testHart .rv32 [] with mie := 0x888 } (.csrrc 5 0x304 0) (csr .mie) = some 0x888 := by decide
theorem test_csrrc_clears :
    after { testHart .rv32 [(6, 0x80)] with mie := 0x888 } (.csrrc 5 0x304 6) (csr .mie) = some 0x808 := by decide
theorem test_csrrwi_zero_writes :
    after { testHart .rv32 [] with mscratch := 0xFFFFFFFF } (.csrrwi 0 0x340 0) (csr .mscratch) = some 0 := by decide
theorem test_csrrsi_sets : after (testHart .rv32 []) (.csrrsi 0 0x300 8) (csr .mstatus) = some 0x8 := by decide
theorem test_csrrci_clears :
    after { testHart .rv32 [] with mscratch := 0xFFFFFFFF } (.csrrci 5 0x340 31) (csr .mscratch) = some 0xFFFFFFE0 := by
  decide
theorem test_mtvec_reserved_mode : csr .mtvec ⟨.rv32, (testHart .rv32 []).csrWrite .mtvec 0x4003⟩ = 0x4000 := by decide
theorem test_sstatus_write :
    csr .mstatus ⟨.rv32, { testHart .rv32 [] with mstatus.mpp := .m }.csrWrite .sstatus 0xFFFFFFFF⟩ = 0x00081922 := by decide
theorem test_mip_shows_the_lines :
    csr .mip ⟨.rv32, { testHart .rv32 [] with
      mipSoft := 0x20, now := { StepInput.quiet with lines := ⟨false, true, false⟩ } }⟩ = 0xA0 := by decide
/-- The addresses of 10_state.md R31. -/
theorem test_csr_addresses :
    [0x100, 0x104, 0x105, 0x140, 0x141, 0x142, 0x143, 0x144, 0x180, 0x300, 0x301, 0x302].map csrAt =
      [some .sstatus, some .sie, some .stvec, some .sscratch, some .sepc, some .scause, some .stval, some .sip,
        some .satp, some .mstatus, some .misa, some .medeleg] ∧
    [0x303, 0x304, 0x305, 0x340, 0x341, 0x342, 0x343, 0x344, 0xF11, 0xF12, 0xF13, 0xF14].map csrAt =
      [some .mideleg, some .mie, some .mtvec, some .mscratch, some .mepc, some .mcause, some .mtval, some .mip,
        some .mvendorid, some .marchid, some .mimpid, some .mhartid] := by decide

/-! ### Traps, returns, WFI, SFENCE.VMA (95_test_vectors.md 2.5) -/

theorem test_ecall_from_m : after (testHart .rv32 []) .ecall (csr .mcause) = some 11 := by decide
theorem test_ecall_delegated :
    after { testHart .rv32 [] with priv := .u, medeleg := 0x100 } .ecall pc = some 0x3000 := by decide
theorem test_ebreak : after (testHart .rv32 []) .ebreak (csr .mcause) = some 3 := by decide
theorem test_uret : after { testHart .rv32 [] with priv := .u } .uret (csr .mcause) = some 2 := by decide
theorem test_mret_mode :
    after { testHart .rv32 [] with mstatus.mpie := true, mepc := 0x4000 } .mret mode = some 0 := by decide
theorem test_mret_mstatus :
    after { testHart .rv32 [] with mstatus.mpie := true, mepc := 0x4000 } .mret (csr .mstatus) = some 0x88 := by decide
theorem test_sret_mstatus :
    after { testHart .rv32 [] with priv := .s, mstatus.spp := true, mstatus.spie := true } .sret (csr .mstatus) =
      some 0x22 := by decide
theorem test_sret_tsr_traps :
    after { testHart .rv32 [] with priv := .s, mstatus.tsr := true } .sret (csr .mcause) = some 2 := by decide
theorem test_wfi_waits : after (testHart .rv32 []) .wfi waits = some 1 := by decide
theorem test_wfi_in_u_mode_traps : after { testHart .rv32 [] with priv := .u } .wfi waits = some 0 := by decide
theorem test_sfenceVma : after { testHart .rv32 [] with priv := .s } (.sfenceVma 10 11) pc = some 0x1004 := by decide
theorem test_sfenceVma_tvm_traps :
    after { testHart .rv32 [] with priv := .s, mstatus.tvm := true } (.sfenceVma 0 0) (csr .mcause) = some 2 := by decide

/-! ### Steps and interrupts (95_test_vectors.md 2.9) -/

/-- The input of a step with these lines. -/
def lines (meip mtip msip : Bool) : StepInput := { StepInput.quiet with lines := ⟨meip, mtip, msip⟩ }

theorem test_step_runs_the_word : afterStep (nopHart .rv32 StepInput.quiet) pc = some 0x1004 := by decide
theorem test_msi_before_mti :
    afterStep { nopHart .rv32 (lines false true true) with mstatus.mie := true, mie := 0x88 } (csr .mcause) =
      some 0x80000003 := by decide
theorem test_vectored_interrupt :
    afterStep { nopHart .rv32 (lines false true false) with mstatus.mie := true, mie := 0x80, mtvec := 0x2001 } pc =
      some 0x201C := by decide
theorem test_s_destined_not_taken_in_m :
    afterStep { nopHart .rv32 StepInput.quiet with mstatus.mie := true, mideleg := 2, mie := 2, mipSoft := 2 } pc =
      some 0x1004 := by decide
theorem test_m_destined_first :
    afterStep { nopHart .rv32 (lines false true false) with
      priv := .s, mstatus.sie := true, mideleg := 0x222, mie := 0x2A2, mipSoft := 2 } (csr .mcause) =
      some 0x80000007 := by decide
theorem test_waiting_hart_stays : afterStep { nopHart .rv32 StepInput.quiet with waiting := true } pc = some 0x1000 := by
  decide
theorem test_fetch_of_unwritten_byte_stops :
    step ⟨.rv32, { testHart .rv32 [] with env := [StepInput.quiet] }⟩ = .fault .fetchOfUnwrittenByte := by rfl
theorem test_stale_fetch_may_be_old :
    ((nopHart .rv32 StepInput.quiet).storeByte 0x1000 0x6F).fetchByte 0 0x1000 = some 0x13 := by decide
/-- A hart on which another agent may write the bytes 0x1000 to 0x1007. -/
def sharedHart : Hart .rv32 :=
  { nopHart .rv32 StepInput.quiet with
    cfg := { Config.default .rv32 with regions := [⟨0x200, 1, .main, true⟩, ⟨0, 0x2000, .main, false⟩] } }

/-- R84, R50 c: a value another agent overwrites before the hart's first store is one a later fetch may still see. -/
theorem test_agent_value_is_held :
    ((sharedHart.agentWrites [(0x1000, 0x17)]).storeByte 0x1000 0x6F).fetchable 0x1000 =
      [some 0x13, some 0x17, some 0x6F] := by decide
/-- R79: without a store of the hart a fetch sees what another agent wrote. -/
theorem test_agent_value_is_fetched :
    (sharedHart.agentWrites [(0x1000, 0x17), (0x1008, 0x17)]).fetchable 0x1000 = [some 0x17] := by decide
/-- The word placed for the host is fetched and run right after reset, whatever the free input of that step is. -/
theorem test_withFetchWord_runs_after_reset :
    afterStep (State.reset.withFetchWord 32 0x123452B7).hart (reg 5) = some 0x12345000 := by rfl
/-! ### Witnesses: states and operands that meet the hypotheses of the statements

One theorem for each statement with hypotheses, named after it, with a boundary value for each of its clauses. -/

theorem test_witness_DecodeInvertsEncode :
    WellFormed .rv32 (.slli 5 6 31) = true ∧ WellFormed .rv64 (.slli 5 6 63) = true ∧
      WellFormed .rv32 (.jal 1 0x1FFFFE) = true ∧ WellFormed .rv64 (.sraw 5 6 7) = true := by decide

theorem test_witness_EncodeInvertsDecode : decode .rv32 0x407302B3 = .ok (.sub 5 6 7) := by decide

theorem test_witness_WordIsInstructionIffItMatchesARow :
    decode .rv64 0x0003529B = .ok (.srliw 5 6 0) ∧
      (⟨0xFE00707F, 0x0000501B⟩ : TableRow) ∈ tableRows .rv64 ∧
      (⟨0xFE00707F, 0x0000501B⟩ : TableRow).Matches 0x0003529B := by decide

theorem test_witness_NoTwoRowsMatchOneWord :
    (⟨0x0000707F, 0x00000013⟩ : TableRow) ∈ tableRows .rv32 ∧ (⟨0x0000707F, 0x00000013⟩ : TableRow).Matches 0x00000013 := by
  decide

/-- The hart of `nopHart` once its step has taken the input. -/
def nopBegun : Hart .rv32 := (nopHart .rv32 StepInput.quiet).beginStep.awake

theorem test_witness_StepRunsDecodedInstruction :
    (nopHart .rv32 StepInput.quiet).beginStep.staysWaiting = false ∧ nopBegun.chosenInterrupt = none ∧
      (∀ a ∈ byteAddrs nopBegun.pc 4, nopBegun.regionAt a = .main ∧ nopBegun.storedSince a = false) ∧
      readBytes nopBegun.mem (byteAddrs nopBegun.pc 4) = some [0x13, 0, 0, 0] ∧
      decodeBytes .rv32 [0x13, 0, 0, 0] = .ok (.addi 0 0 0, []) ∧
      (nopHart .rv32 StepInput.quiet).nextInput.agentBeforeFetch = [] ∧
      (nopHart .rv32 StepInput.quiet).nextInput.agentAfterFetch = [] := by decide

/-- A hart with the word 0, which is no instruction, at `pc`. -/
def zeroWord : Hart .rv32 :=
  { nopHart .rv32 StepInput.quiet with mem := [(0x1000, 0), (0x1001, 0), (0x1002, 0), (0x1003, 0)] }

theorem test_witness_StepTrapsOnAWordThatIsNoInstruction :
    zeroWord.beginStep.staysWaiting = false ∧ zeroWord.beginStep.awake.chosenInterrupt = none ∧
      zeroWord.beginStep.awake.fetch = .done 0 ∧ ∀ r ∈ tableRows .rv32, ¬ r.Matches 0 := by decide

/-- A hart whose `pc` is the first address after `Main`. -/
def outside : Hart .rv32 := { nopHart .rv32 StepInput.quiet with pc := 0x10000 }

theorem test_witness_FetchOutsideMainTraps :
    outside.beginStep.staysWaiting = false ∧ outside.beginStep.awake.chosenInterrupt = none ∧
      0x10000 ∈ byteAddrs outside.beginStep.awake.pc 4 ∧ outside.beginStep.awake.regionAt 0x10000 = .vacant ∧
      (ioHart .rv32).regionAt 0x10000 = .io := by decide

theorem test_witness_FetchedByteIsOneOfTheValuesHeld :
    (nopHart .rv32 StepInput.quiet).fetchable 0x1000 ≠ [] ∧
      ((nopHart .rv32 StepInput.quiet).storeByte 0x1000 0x6F).fetchable 0x1000 = [some 0x13, some 0x6F] := by decide

/-- A hart that can take the machine timer interrupt, which goes to M-mode, and no other. -/
def timerM : Hart .rv32 := { nopHart .rv32 (lines false true false) with mstatus.mie := true, mie := 0x80 }

/-- A hart in S-mode that can take the supervisor software interrupt, which goes to S-mode, and no other. -/
def softwareS : Hart .rv32 :=
  { nopHart .rv32 StepInput.quiet with priv := .s, mstatus.sie := true, mideleg := 2, mie := 2, mipSoft := 2 }

theorem timerM_takeable (i : Interrupt) : timerM.beginStep.awake.Takeable i ↔ i = .mti := by
  cases i <;> unfold Hart.Takeable Hart.isPending Hart.goesToS <;> decide

theorem softwareS_takeable (i : Interrupt) : softwareS.beginStep.awake.Takeable i ↔ i = .ssi := by
  cases i <;> unfold Hart.Takeable Hart.isPending Hart.goesToS <;> decide

theorem test_witness_HighestInterruptIsTakenBeforeTheFetch :
    timerM.beginStep.staysWaiting = false ∧
      timerM.beginStep.awake.mipSoft &&& ~~~mipMask timerM.beginStep.awake.cfg = 0 ∧
      timerM.beginStep.awake.Takeable .mti ∧
      ∀ j, timerM.beginStep.awake.Takeable j → j ≠ .mti → timerM.beginStep.awake.takenBefore .mti j :=
  ⟨by decide, by decide, (timerM_takeable _).2 rfl, fun j hj hn => absurd ((timerM_takeable j).1 hj) hn⟩

theorem test_witness_HighestInterruptIsTakenBeforeTheFetch_in_S :
    softwareS.beginStep.staysWaiting = false ∧
      softwareS.beginStep.awake.mipSoft &&& ~~~mipMask softwareS.beginStep.awake.cfg = 0 ∧
      softwareS.beginStep.awake.Takeable .ssi ∧
      ∀ j, softwareS.beginStep.awake.Takeable j → j ≠ .ssi → softwareS.beginStep.awake.takenBefore .ssi j :=
  ⟨by decide, by decide, (softwareS_takeable _).2 rfl, fun j hj hn => absurd ((softwareS_takeable j).1 hj) hn⟩

theorem test_witness_InterruptIsChosenExactlyWhenOneCanBeTaken :
    timerM.beginStep.mipSoft &&& ~~~mipMask timerM.beginStep.cfg = 0 ∧ timerM.beginStep.chosenInterrupt = some .mti ∧
      nopBegun.mipSoft &&& ~~~mipMask nopBegun.cfg = 0 ∧ nopBegun.chosenInterrupt = none := by decide

/-- A waiting hart with nothing pending. -/
def waitingHart : Hart .rv32 := { nopHart .rv32 StepInput.quiet with waiting := true }

theorem test_witness_WaitingHartStaysUntilAWakeUp :
    waitingHart.waiting = true ∧ waitingHart.beginStep.mipSoft &&& ~~~mipMask waitingHart.beginStep.cfg = 0 ∧
      waitingHart.beginStep.staysWaiting = true := by decide

/-- A state that meets the invariant, with memory and a byte the hart has stored to. -/
def invState : State := ⟨.rv32, (nopHart .rv32 StepInput.quiet).storeByte 0x1000 0x13⟩

theorem invState_inv : invState.Inv where
  config := ⟨fun _ => rfl, rfl, by intro e he; cases he⟩
  pcAligned := by decide
  mepcAligned := by decide
  sepcAligned := by decide
  mtvecMode := by decide
  stvecMode := by decide
  medelegBits := by decide
  midelegBits := by decide
  mieBits := by decide
  mipBits := by decide
  privExists := trivial
  mstatusOk := ⟨rfl, by decide, by decide, by decide⟩
  memRising := by decide
  memMain := by decide
  historyRising := by decide
  historyMain := by decide

theorem test_witness_FetchedByteIsOneOfTheValuesHeld_newest :
    invState.Inv ∧ invState.hart.fetchable 0x1000 = [some 0x13] := ⟨invState_inv, by decide⟩

theorem test_witness_EveryStepKeepsTheInvariant : invState.Inv ∧ ∃ t, step invState = .next t :=
  ⟨invState_inv, _, rfl⟩

theorem test_witness_LaunchMeetsTheInvariant :
    ConfigOk (Config.default .rv64) ∧ Memory.wf [(0, 0x13), (0xFFFF, 0)] ∧
      ∀ c ∈ ([(0, 0x13), (0xFFFF, 0)] : Memory), c.1 < 2 ^ Xlen.rv64.bits ∧
        (State.launch .rv64 (Config.default .rv64) [(0, 0x13), (0xFFFF, 0)] []).hart.regionAt c.1 = .main :=
  ⟨⟨fun _ => rfl, rfl, by intro e he; cases he⟩, by decide, by decide⟩

theorem test_witness_PrivilegeChangesOnlyByTrapOrTrapReturn :
    ∃ s, exec .mret ⟨.rv32, { testHart .rv32 [] with mepc := 0x4000 }⟩ = .next s := ⟨_, rfl⟩

/-- A hart in U-mode, with S-mode present. -/
def userHart : Hart .rv32 := { testHart .rv32 [(6, 1)] with priv := .u }

/-- A hart in U-mode, without S-mode. -/
def userOnly : Hart .rv32 := { userHart with cfg := { Config.default .rv32 with hasS := false } }

theorem test_witness_UserModeChangesNoSystemStateButByTrap :
    userHart.priv = .u ∧ (∃ s, exec (.addi 5 6 1) ⟨.rv32, userHart⟩ = .next s) ∧
      (∃ s, exec (.csrrw 0 0x300 6) ⟨.rv32, userHart⟩ = .next s) ∧ userOnly.priv = .u ∧
      ∃ s, exec .wfi ⟨.rv32, userOnly⟩ = .next s := ⟨rfl, ⟨_, rfl⟩, ⟨_, rfl⟩, rfl, ⟨_, rfl⟩⟩

theorem test_witness_SupervisorModeLeavesMachineStateButByTrap :
    softwareS.priv = .s ∧ (∃ s, exec (.csrrw 0 0x144 6) ⟨.rv32, softwareS⟩ = .next s) ∧
      ∃ s, exec (.csrrw 0 0x300 6) ⟨.rv32, softwareS⟩ = .next s := ⟨rfl, ⟨_, rfl⟩, ⟨_, rfl⟩⟩

theorem test_witness_OnlyALoadOfAnUnwrittenByteStopsAnInstruction :
    exec (.lb 5 6 0) ⟨.rv32, testHart .rv32 []⟩ = .fault .loadOfUnwrittenByte := rfl

theorem test_witness_OtherInstructionsContinueAtTheNextWord :
    mayJump (.wfi) = false ∧ (∃ s, exec .wfi ⟨.rv32, testHart .rv32 []⟩ = .next s) ∧
      ∃ s, exec .wfi ⟨.rv32, userHart⟩ = .next s := ⟨rfl, ⟨_, rfl⟩, ⟨_, rfl⟩⟩

theorem test_witness_OtherAgentsWriteOnlySharedMemory :
    (testHart .rv32 []).sharedAt 0x1000 = false ∧ sharedHart.sharedAt 0xFFF = false ∧
      (∀ a ∈ [0x1000, 0x1007], sharedHart.sharedAt a = true ∧ a < 2 ^ Xlen.rv32.bits) := by decide

theorem test_witness_RegisterZeroReadsZeroAndDiscardsWrites : (31 : Reg) ≠ 0 ∧ (0 : Reg) ≠ 31 := by decide

theorem test_witness_ShiftByConstantResults :
    (31#6).toNat < Xlen.rv32.bits ∧ (63#6).toNat < Xlen.rv64.bits ∧ (0#6).toNat < Xlen.rv32.bits := by decide

theorem test_witness_ShiftByRegisterResults : 4 = ((testHart .rv32 [(7, 0x24)]).readX 7).toNat % Xlen.rv32.bits := by decide

theorem test_witness_ReservedShiftsTrap : 32 ≤ (32#6).toNat ∧ 32 ≤ (63#6).toNat := by decide

theorem test_witness_WordShiftResults : 31 = ((testHart .rv64 [(7, 0x3F)]).readX 7).toNat % 32 := by decide

theorem test_witness_Rv64OnlyInstructionsTrapOnRv32 :
    (WellFormed .rv64 (.lwu 5 6 0) = true ∧ rowOf .rv32 (.lwu 5 6 0) ∈ rv64Rows) ∧
      (WellFormed .rv64 (.sraw 5 6 7) = true ∧ rowOf .rv32 (.sraw 5 6 7) ∈ rv64Rows) := by decide

theorem test_witness_HintsChangeNothingButPc :
    (WellFormed .rv32 (.slli 0 6 31) = true ∧ computesInto (.slli 0 6 31) = some 0) ∧
      (WellFormed .rv64 (.sraw 0 6 7) = true ∧ computesInto (.sraw 0 6 7) = some 0) ∧
      WellFormed .rv32 (.fence 8 3 0 0 0) = true ∧ WellFormed .rv64 (.fence 0 0 3 5 6) = true := by decide

theorem test_witness_LoadsFromMainSetTheRegister :
    (loadHart .rv64).regionAt 0x1108 = .main ∧ 0x1108 = ((loadHart .rv64).effAddr 6 8).toNat ∧
      (loadHart .rv64).BytesAt 0x1108 1 0x88 ∧ (loadHart .rv64).BytesAt 0x1108 2 0x9988 ∧
      (loadHart .rv64).BytesAt 0x1108 4 0xBBAA9988 ∧ (loadHart .rv64).BytesAt 0x1108 8 0xFFEEDDCCBBAA9988 := by
  unfold Hart.BytesAt; decide

theorem test_witness_StoresToMainWriteTheirBytesOnly :
    (∀ a ∈ [0, 0xFFFF, 0xFFFE, 0xFFFC, 0xFFF8], (testHart .rv64 []).regionAt a = .main) ∧ 0xFFFE % 2 = 0 ∧
      0xFFFC % 4 = 0 ∧ 0xFFF8 % 8 = 0 ∧
      0xFFF8 = ((testHart .rv64 [(6, 0xF800)]).effAddr 6 0x7F8).toNat := by decide

theorem test_witness_IoAccessesReachTheDevice :
    (∀ a ∈ [0x10000, 0x10007, 0x10006, 0x10004], (ioHart .rv64).regionAt a = .io) ∧
      0x10000 = ((ioHart .rv64).effAddr 6 0).toNat ∧ 0x10006 = ((ioHart .rv64).effAddr 6 6).toNat ∧
      0x10000 % 8 = 0 ∧ 0x10006 % 2 = 0 ∧ 0x10004 % 4 = 0 := by decide

theorem test_witness_MisalignedAccessesTrap :
    ((loadHart .rv64).effAddr 6 1).toNat % 2 ≠ 0 ∧ ((loadHart .rv64).effAddr 6 2).toNat % 4 ≠ 0 ∧
      ((loadHart .rv64).effAddr 6 4).toNat % 8 ≠ 0 := by decide

theorem test_witness_VacantAccessesTrap :
    (∀ a ∈ [0x10000, 0x10001, 0x10002, 0x10004, 0xFFFFFFFFFFFFFFF8], (testHart .rv64 []).regionAt a = .vacant) ∧
      (0x10000 : XWord .rv64) = (testHart .rv64 [(6, 0x10000)]).effAddr 6 0 := by decide

theorem test_witness_LoadOfAnUnwrittenByteStops :
    (loadHart .rv64).regionAt 0x1110 = .main ∧ 0x1110 = ((loadHart .rv64).effAddr 6 0x10).toNat ∧
      (∀ k ∈ [0, 1, 3, 7], Memory.read (loadHart .rv64).mem (0x1110 + k) = none) ∧ 0x1110 % 8 = 0 := by decide

theorem test_witness_NarrowReadSeesTheBytesOfAWiderWrite :
    6 + 2 ≤ 8 ∧ 6 % 2 = 0 ∧ (testHart .rv64 []).regionAt (0xFFF8 : XWord .rv64).toNat = .main ∧
      ∃ t, (testHart .rv64 []).memWrite 0xFFF8 8 0x0123456789ABCDEF = .done t :=
  ⟨by decide, by decide, by decide, _, rfl⟩

theorem test_witness_JumpsLinkAndTransfer :
    ((0xFFC : Nat) : Int) = ((testHart .rv32 []).pc.toNat + (0x1FFFFC : BitVec 21).toInt) % 2 ^ Xlen.rv32.bits ∧
      ((0x2004 : Nat) : Int) =
        (((testHart .rv32 [(6, 0x2007)]).readX 6).toNat + (0xFFE : BitVec 12).toInt) % 2 ^ Xlen.rv32.bits / 2 * 2 := by
  decide

theorem test_witness_BranchesFollowTheirConditions :
    let h := testHart .rv32 [(6, 0xFFFFFFFF), (7, 1)]
    (((0x1008 : XWord .rv32).toNat : Int) = (h.pc.toNat + (8 : BitVec 13).toInt) % 2 ^ Xlen.rv32.bits ∧
        (0x1008 : XWord .rv32).toNat % 4 = 0) ∧
      (((0xFFE : XWord .rv32).toNat : Int) = (h.pc.toNat + (0x1FFE : BitVec 13).toInt) % 2 ^ Xlen.rv32.bits ∧
        (0xFFE : XWord .rv32).toNat % 4 ≠ 0) ∧
      h.readX 6 ≠ h.readX 7 ∧ (h.readX 6).toInt < (h.readX 7).toInt ∧ ¬ (h.readX 6).toNat < (h.readX 7).toNat ∧
      h.readX 6 = h.readX 6 := by decide

theorem test_witness_JumpsToMisalignedTargetsTrap :
    (0x1002 : XWord .rv32).getLsbD 1 = true ∧
      ((0x1002 : XWord .rv32).toNat : Int) =
        ((testHart .rv32 []).pc.toNat + (2 : BitVec 21).toInt) % 2 ^ Xlen.rv32.bits ∧
      ((0x1002 : XWord .rv32).toNat : Int) =
        (((testHart .rv32 [(6, 0x1000)]).readX 6).toNat + (3 : BitVec 12).toInt) % 2 ^ Xlen.rv32.bits / 2 * 2 := by decide

theorem test_witness_CsrInstructionsReadAndWrite :
    (testHart .rv32 []).CsrPermits 0x300 True ∧ (testHart .rv32 []).CsrPermits 0xF14 ((0 : Reg) ≠ 0) ∧
      softwareS.CsrPermits 0x180 True :=
  ⟨⟨by decide, by decide, by decide, by decide⟩, ⟨by decide, by decide, by decide, by decide⟩,
    ⟨by decide, by decide, by decide, by decide⟩⟩

theorem test_witness_ForbiddenCsrAccessesTrap :
    ¬ (testHart .rv32 []).CsrPermits 0xC00 True ∧ ¬ softwareS.CsrPermits 0x300 ((6 : Reg) ≠ 0) ∧
      ¬ (testHart .rv32 []).CsrPermits 0xF14 ((1 : BitVec 5) ≠ 0) :=
  ⟨fun p => absurd p.implemented (by decide), fun p => absurd p.mode (by decide),
    fun p => absurd (p.readOnly (by decide)) (by decide)⟩

theorem test_witness_WholeRegistersHoldWhatIsWritten :
    Csr.stval ∈ [Csr.mscratch, .sscratch, .mcause, .scause, .mtval, .stval] := by decide

theorem test_witness_ConstantRegistersIgnoreWrites :
    Csr.mhartid ∈ [Csr.misa, .satp, .mvendorid, .marchid, .mimpid, .mhartid] := by decide

theorem test_witness_TrapVectorAndSavedPcWrites :
    (0x4001 : XWord .rv32).toNat % 4 < 2 ∧ 2 ≤ (0x4002 : XWord .rv32).toNat % 4 ∧ 2 ≤ 31 ∧ 1 < 2 ∧
      Csr.sepc ∈ [Csr.mtvec, .stvec, .mepc, .sepc] := by decide

theorem test_witness_DelegationEnableAndPendingWrites : 31 < Xlen.rv32.bits ∧ 63 < Xlen.rv64.bits := by decide

theorem test_witness_MstatusFieldsReadAndWrite :
    writeMstatus (Config.default .rv32) (testHart .rv32 []).mstatus 0x1000 =
      ((testHart .rv32 []).csrWrite .mstatus 0x1000).mstatus := by decide

theorem test_witness_SstatusIsAViewOfMstatus : 31 < Xlen.rv32.bits ∧ 33 < Xlen.rv64.bits ∧ 19 < Xlen.rv32.bits := by decide

theorem test_witness_SieAndSipAreViewsThroughMideleg :
    softwareS.mideleg.getLsbD 1 = true ∧ (testHart .rv32 []).mideleg.getLsbD 1 = false ∧
      softwareS.mideleg &&& 0x222 = 2 := by decide

theorem test_witness_TrapEntrySavesAndTransfers :
    Exn.code (x := .rv32) .environmentCallFromM < 16 ∧ Interrupt.code .mei < 16 ∧ 0 < 16 := by decide

theorem test_witness_TrapReturnsRestore :
    (testHart .rv32 []).priv = .m ∧ (testHart .rv32 []).cfg.hasS = true ∧ softwareS.cfg.hasS = true ∧
      softwareS.priv = .s ∧ softwareS.mstatus.tsr = false := by decide

theorem test_witness_PrivilegedInstructionsTrapWhereIllegal :
    userHart.priv = .u ∧ userHart.cfg.hasS = true ∧ softwareS.priv ≠ .m ∧
      { softwareS with mstatus.tw := true, mstatus.tsr := true, mstatus.tvm := true }.mstatus.tvm = true := by decide

theorem test_witness_WaitAndTranslationFenceComplete :
    (testHart .rv32 []).priv = .m ∧ (testHart .rv32 []).cfg.hasS = true ∧ softwareS.priv = .s ∧
      softwareS.mstatus.tw = false ∧ softwareS.mstatus.tvm = false := by decide

theorem test_witness_ResetLeavesTheValuesTheSpecGives :
    (State.launch .rv64 (Config.default .rv64) [(0, 0x13)] []).hart.pc = 0 := by decide

end Sys2Proof.Tests
end

namespace Sys2Proof.Proofs.Scope

open Sys2Proof.Laws

/-! ### Notation of the spec (00_scope.md) -/

/-- Settles O22: R7's two cases, `x0` and every other register, are the read-after-write laws of the registers. -/
theorem registerZeroReadsZeroAndDiscardsWrites : Obligations.RegisterZeroReadsZeroAndDiscardsWrites :=
  fun _ h v =>
    ⟨readX_zero h, writeX_zero h v, fun _ hi =>
      ⟨readX_writeX_same h hi v, fun _ hj => readX_writeX_other h hj v⟩⟩

end Sys2Proof.Proofs.Scope

namespace Sys2Proof.Proofs.CsrWrites

open Sys2Proof.Machine Sys2Proof.Laws

variable {x : Xlen}

/-! ### Registers held whole, and constant registers (10_state.md R36, R37, R45 to R49) -/

/-- Settles O48: each of the six is a field of its own, so only it reads differently. -/
theorem wholeRegistersHoldWhatIsWritten : Obligations.WholeRegistersHoldWhatIsWritten := by
  intro x h v c hc
  simp only [List.mem_cons, List.not_mem_nil, or_false] at hc
  rcases hc with rfl | rfl | rfl | rfl | rfl | rfl <;> exact ⟨rfl, csrWrite_writesOnly h _ v⟩

/-- `misa` as a number. Its word depends on the width and on which modes exist only, so its eight values are evaluated. -/
theorem toNat_misaWord (cfg : Config x) : (misaWord cfg).toNat =
    (if x = .rv64 then 2 else 1) * 2 ^ (x.bits - 2) + 2 ^ 8 + (if cfg.hasS = true then 2 ^ 18 else 0) +
      (if cfg.hasU = true then 2 ^ 20 else 0) := by
  unfold misaWord
  generalize cfg.hasS = s
  generalize cfg.hasU = u
  cases x <;> revert s u <;> decide

/-- Settles O49: a write to one of the six is the identity, and what each reads as is its parameter. -/
theorem constantRegistersIgnoreWrites : Obligations.ConstantRegistersIgnoreWrites := by
  intro x h v
  refine ⟨fun c hc => ?_, rfl, rfl, rfl, rfl, rfl, toNat_misaWord h.cfg⟩
  simp only [List.mem_cons, List.not_mem_nil, or_false] at hc
  rcases hc with rfl | rfl | rfl | rfl | rfl | rfl <;> rfl

/-! ### Trap vectors and saved pcs (R43, R44, R46) -/

/-- Bit 1, which tells the reserved MODE values of a trap vector, as a number. -/
theorem bit_one_eq {w : Nat} (v : BitVec w) : v.getLsbD 1 = decide (2 ≤ v.toNat % 4) := by
  rw [BitVec.getLsbD, Nat.testBit_eq_decide_div_mod_eq, decide_eq_decide]
  omega

/-- Clearing the two low bits, bit by bit. -/
theorem and_not_three_bit (v : XWord x) (k : Nat) : (v &&& ~~~3).getLsbD k = (v.getLsbD k && decide (2 ≤ k)) := by
  by_cases hk : k < x.bits
  · simp only [BitVec.getLsbD_and, BitVec.getLsbD_not, three_bit hk, hk, decide_true, Bool.true_and, ← decide_not,
      Nat.not_lt]
  · rw [BitVec.getLsbD_of_ge _ k (Nat.le_of_not_lt hk), BitVec.getLsbD_of_ge _ k (Nat.le_of_not_lt hk), Bool.false_and]

/-- Keeping the two low bits, bit by bit. -/
theorem and_three_bit (v : XWord x) (k : Nat) : (v &&& 3).getLsbD k = (v.getLsbD k && decide (k < 2)) := by
  by_cases hk : k < x.bits
  · rw [BitVec.getLsbD_and, three_bit hk]
  · rw [BitVec.getLsbD_of_ge _ k (Nat.le_of_not_lt hk), BitVec.getLsbD_of_ge _ k (Nat.le_of_not_lt hk), Bool.false_and]

theorem legalTvec_bit (old v : XWord x) (k : Nat) :
    (legalTvec old v).getLsbD k = if 2 ≤ v.toNat % 4 ∧ k < 2 then old.getLsbD k else v.getLsbD k := by
  unfold legalTvec
  rw [bit_one_eq]
  by_cases hm : 2 ≤ v.toNat % 4
  · rw [if_pos (decide_eq_true hm), BitVec.getLsbD_or, and_not_three_bit, and_three_bit]
    rcases Nat.lt_or_ge k 2 with h2 | h2
    · simp [hm, h2, Nat.not_le.2 h2]
    · simp [hm, h2, Nat.not_lt.2 h2]
  · simp [hm]

/-- A write to a trap vector, bit by bit. -/
theorem csrWrite_tvec_bit (h : Hart x) (v : XWord x) {c : Csr} (hc : c = .mtvec ∨ c = .stvec) (k : Nat) :
    ((h.csrWrite c v).csrRead c).getLsbD k =
      if 2 ≤ v.toNat % 4 ∧ k < 2 then (h.csrRead c).getLsbD k else v.getLsbD k := by
  rcases hc with rfl | rfl <;> exact legalTvec_bit ..

/-- Settles O50: the vectors by `csrWrite_tvec_bit`, the saved pcs by the two low bits being cleared. -/
theorem trapVectorAndSavedPcWrites : Obligations.TrapVectorAndSavedPcWrites := by
  intro x h v k
  refine ⟨fun c hc => ?_, fun c hc => ?_, fun c hc => ?_⟩
  · rw [csrWrite_tvec_bit h v hc]
    exact ⟨fun hk => if_neg (by omega), fun _ hm => if_neg (by omega), fun hk hm => if_pos ⟨hm, hk⟩⟩
  · rcases hc with rfl | rfl <;> exact and_not_three_bit v k
  · simp only [List.mem_cons, List.not_mem_nil, or_false] at hc
    rcases hc with rfl | rfl | rfl | rfl <;> exact csrWrite_writesOnly h _ v

/-! ### Delegation, enable and pending registers (R38 to R42) -/

/-- Settles O51: each register keeps the written value under its mask, and `mip` shows the lines besides. -/
theorem delegationEnableAndPendingWrites : Obligations.DelegationEnableAndPendingWrites := by
  intro x h v
  refine ⟨csrWrite_writesOnly h _ v, csrWrite_writesOnly h _ v, csrWrite_writesOnly h _ v, csrWrite_writesOnly h _ v,
    fun k hk => ⟨?_, ?_, ?_, ?_⟩⟩
  · simp only [Hart.csrWrite, Hart.csrRead, BitVec.getLsbD_and, medelegMask_bit hk]
  · simp only [Hart.csrWrite, Hart.csrRead, BitVec.getLsbD_and, supervisorMask, supervisorMask_bit hk]
  · simp only [Hart.csrWrite, Hart.csrRead, BitVec.getLsbD_and, mieMask_bit h.cfg hk]
  · simp only [Hart.csrWrite, Hart.csrRead, mipWord_bit, BitVec.getLsbD_and, mipMask_bit h.cfg hk, Bool.and_assoc]

theorem two_bit {k : Nat} (hk : k < x.bits) : (2 : XWord x).getLsbD k = decide (k = 1) :=
  mask_bits (fun k => decide (k = 1)) 2 (by norm_num) (by decide) (by intro k hk; simp; omega) hk

/-- A write to `sip` where SSIP is delegated reaches bit 1 of `mip` and no other. -/
theorem csrWrite_sip_mip_bit (h : Hart x) (v : XWord x) (hd : h.mideleg.getLsbD 1 = true) {k : Nat} (hk : k < x.bits) :
    ((h.csrWrite .sip v).csrRead .mip).getLsbD k = if k = 1 then v.getLsbD 1 else (h.csrRead .mip).getLsbD k := by
  simp only [Hart.csrWrite, hd, if_true, Hart.csrRead, mipWord_bit, BitVec.getLsbD_or, BitVec.getLsbD_and,
    BitVec.getLsbD_not, two_bit hk, hk]
  by_cases h1 : k = 1 <;> simp [h1]

/-- Settles O54: `sie` by definition of the write, `sip` by `csrWrite_sip_mip_bit`. -/
theorem sieAndSipAreViewsThroughMideleg : Obligations.SieAndSipAreViewsThroughMideleg := by
  rintro x h v _ rfl
  exact ⟨BitVec.and_assoc .., rfl, BitVec.and_assoc .., fun hd => by simp [Hart.csrWrite, hd],
    fun hd _ hk => csrWrite_sip_mip_bit h v hd hk, csrWrite_writesOnly h .sip v⟩

/-! ### The fields of `mstatus` (R33, R35) -/

/-- A word below `2 ^ j` with one more field of `c` bits above: the field adds its value, and the word is below the next
place. This is the step of reading a word of rising fields as a sum. -/
theorem toNat_or_place_lt {w c n j : Nat} {a : BitVec w} (ha : a.toNat = n ∧ n < 2 ^ j) (k : Nat) (hj : j ≤ k)
    (hk : k + c ≤ w) (b : BitVec c) :
    (a ||| placeField w k b).toNat = n + b.toNat * 2 ^ k ∧ n + b.toNat * 2 ^ k < 2 ^ (k + c) := by
  obtain ⟨rfl, hlt⟩ := ha
  have hlow : a.toNat < 2 ^ k := hlt.trans_le (Nat.pow_le_pow_right (by omega) hj)
  refine ⟨toNat_or_place a k b hlow hk, ?_⟩
  calc a.toNat + b.toNat * 2 ^ k < 2 ^ k + b.toNat * 2 ^ k := by omega
    _ = (b.toNat + 1) * 2 ^ k := by ring
    _ ≤ 2 ^ c * 2 ^ k := Nat.mul_le_mul_right _ b.isLt
    _ = 2 ^ (k + c) := by rw [← pow_add, Nat.add_comm]

/-- The same for a field of one bit. -/
theorem toNat_or_bool_lt {w n j : Nat} {a : BitVec w} (ha : a.toNat = n ∧ n < 2 ^ j) (k : Nat) (hj : j ≤ k)
    (hk : k + 1 ≤ w) (b : Bool) :
    (a ||| placeField w k (BitVec.ofBool b)).toNat = n + (if b = true then 2 ^ k else 0) ∧
      n + (if b = true then 2 ^ k else 0) < 2 ^ (k + 1) := by
  rw [← toNat_ofBool_shift]
  exact toNat_or_place_lt ha k hj hk _

/-- UXL and SXL lie above the other fields. -/
theorem toNat_or_xlWord {n : Nat} {a : XWord x} (ha : a.toNat = n ∧ n < 2 ^ 23) :
    (a ||| xlWord x).toNat = n + if x = .rv64 then 2 * 2 ^ 32 + 2 * 2 ^ 34 else 0 := by
  cases x
  · simpa [xlWord] using ha.1
  · have hu := toNat_or_place_lt ha 32 (by decide) (by decide) 2#2
    have hs := toNat_or_place_lt hu 34 (by decide) (by decide) 2#2
    rw [xlWord, ← BitVec.or_assoc, hs.1]
    simp only [if_true, BitVec.toNat_ofNat]
    omega

theorem toNat_privNum (p : Priv) : (BitVec.ofNat 2 (Priv.num p)).toNat = Priv.num p := by cases p <;> rfl

/-- `mstatus` as a number: the sum of its fields at their places, taken from the lowest up. -/
theorem toNat_mstatusWord (m : Mstatus) : (mstatusWord x m).toNat =
    (if m.sie = true then 2 ^ 1 else 0) + (if m.mie = true then 2 ^ 3 else 0) +
    (if m.spie = true then 2 ^ 5 else 0) + (if m.mpie = true then 2 ^ 7 else 0) +
    (if m.spp = true then 2 ^ 8 else 0) + Priv.num m.mpp * 2 ^ 11 +
    (if m.mprv = true then 2 ^ 17 else 0) + (if m.mxr = true then 2 ^ 19 else 0) +
    (if m.tvm = true then 2 ^ 20 else 0) + (if m.tw = true then 2 ^ 21 else 0) +
    (if m.tsr = true then 2 ^ 22 else 0) + (if x = .rv64 then 2 * 2 ^ 32 + 2 * 2 ^ 34 else 0) := by
  have hw : 31 < x.bits := bits_gt
  have zero : (0#x.bits).toNat = 0 ∧ 0 < 2 ^ 0 := ⟨by simp, by decide⟩
  have sie := toNat_or_bool_lt zero 1 (by decide) (by omega) m.sie
  rw [BitVec.zero_or, Nat.zero_add] at sie
  have mie := toNat_or_bool_lt sie 3 (by decide) (by omega) m.mie
  have spie := toNat_or_bool_lt mie 5 (by decide) (by omega) m.spie
  have mpie := toNat_or_bool_lt spie 7 (by decide) (by omega) m.mpie
  have spp := toNat_or_bool_lt mpie 8 (by decide) (by omega) m.spp
  have mpp := toNat_or_place_lt spp 11 (by decide) (by omega) (BitVec.ofNat 2 (Priv.num m.mpp))
  rw [toNat_privNum] at mpp
  have mprv := toNat_or_bool_lt mpp 17 (by decide) (by omega) m.mprv
  have mxr := toNat_or_bool_lt mprv 19 (by decide) (by omega) m.mxr
  have tvm := toNat_or_bool_lt mxr 20 (by decide) (by omega) m.tvm
  have tw := toNat_or_bool_lt tvm 21 (by decide) (by omega) m.tw
  exact toNat_or_xlWord (toNat_or_bool_lt tw 22 (by decide) (by omega) m.tsr)

/-- MPP after a write, with the two bits taken as a number (R32, R33). -/
theorem legalMpp_eq (cfg : Config x) (v : BitVec 2) (old : Priv) : legalMpp cfg v old =
    if v.toNat = 0 ∧ cfg.hasU = true then .u
    else if v.toNat = 1 ∧ cfg.hasS = true then .s
    else if v.toNat = 3 then .m else old := by
  have hv : v = 0#2 ∨ v = 1#2 ∨ v = 2#2 ∨ v = 3#2 := by revert v; decide
  rcases hv with rfl | rfl | rfl | rfl <;> simp [legalMpp]

theorem toNat_mppField (v : XWord x) : (v.extractLsb' 11 2).toNat = v.toNat / 2 ^ 11 % 4 := by
  rw [BitVec.extractLsb'_toNat, Nat.shiftRight_eq_div_pow]

/-- Settles O52: the read is `toNat_mstatusWord`; each field a write takes is one of `writeMstatus`, MPP by
`legalMpp_eq`. -/
theorem mstatusFieldsReadAndWrite : Obligations.MstatusFieldsReadAndWrite := by
  rintro x h v _ rfl
  refine ⟨toNat_mstatusWord h.mstatus, rfl, rfl, rfl, rfl, rfl, rfl, rfl, rfl, rfl, rfl, ?_,
    csrWrite_writesOnly h .mstatus v⟩
  rw [← toNat_mppField]
  exact legalMpp_eq ..

/-- MPP has no bit at the places of SIE, SPIE, SPP and MXR; nor have UXL and SXL (`xlWord_bit_low`). -/
theorem mpp_bit_low (p : Priv) {k : Nat} (hk : k ∈ [1, 5, 8, 19]) :
    (placeField x.bits 11 (BitVec.ofNat 2 (Priv.num p))).getLsbD k = false := by
  rw [placeField_bit]
  simp only [List.mem_cons, List.not_mem_nil, or_false] at hk
  rcases hk with rfl | rfl | rfl | rfl <;> simp

theorem xlWord_bit_low {k : Nat} (hk : k < 32) : (xlWord x).getLsbD k = false := by
  cases x
  · simp [xlWord]
  · simp only [xlWord, BitVec.getLsbD_or, placeField_bit]
    simp [show ¬ 32 ≤ k by omega, show ¬ 34 ≤ k by omega]

/-- A write to `sstatus`, as `mstatus` shows it bit by bit. -/
theorem mstatusWord_writeSstatus_bit (m : Mstatus) (v : XWord x) (k : Nat) :
    (mstatusWord x (writeSstatus m v)).getLsbD k =
      if k ∈ [1, 5, 8, 19] then v.getLsbD k else (mstatusWord x m).getLsbD k := by
  rw [mstatusWord_bit, mstatusWord_bit]
  split
  · rename_i hk
    rw [mpp_bit_low _ hk]
    simp only [List.mem_cons, List.not_mem_nil, or_false] at hk
    rcases hk with rfl | rfl | rfl | rfl <;> simp [writeSstatus, xlWord_bit_low]
  · rename_i hk
    simp only [List.mem_cons, List.not_mem_nil, or_false, not_or] at hk
    obtain ⟨hsie, hspie, hspp, hmxr⟩ := hk
    simp [writeSstatus, hsie, hspie, hspp, hmxr]

/-- Settles O53: the read is the mask's bits, the write `mstatusWord_writeSstatus_bit`. -/
theorem sstatusIsAViewOfMstatus : Obligations.SstatusIsAViewOfMstatus := by
  intro x h v k hk
  refine ⟨?_, mstatusWord_writeSstatus_bit h.mstatus v k, csrWrite_writesOnly h .sstatus v⟩
  simp only [Hart.csrRead, BitVec.getLsbD_and, sstatusMask_bit hk]

/-! ### The six CSR instructions (43_csr.md R180 to R189) -/

/-- The end of a CSR instruction whose write leaves registers, `pc`, memory and environment alone. -/
theorem swaps_writeResult {h written : Hart x} (regs : h.SameRegs written) (pc : written.pc = h.pc)
    (memory : h.SameMemory written) (environment : h.SameEnvironment written) (c : Csr) (rd : Reg) :
    h.Swaps (written.writeResult rd (h.csrRead c)) c written rd where
  sets := by
    obtain ⟨hrd, h0, hother⟩ := sets_writeX written rd (h.csrRead c)
    simp only [Hart.Sets, readX_writeResult]
    exact ⟨hrd, h0, fun j hj => (hother j hj).trans (regs j)⟩
  pc := by rw [writeResult_pc, pc, toNat_add_four]
  system := by constructor <;> simp
  memory := by
    obtain ⟨hbytes, hhistory, hio⟩ := memory
    exact ⟨by simpa using hbytes, by simpa using hhistory, by simpa using hio⟩
  environment := by
    obtain ⟨hnow, henv, hsteps⟩ := environment
    exact ⟨by simpa using hnow, by simpa using henv, by simpa using hsteps⟩

theorem swaps_written (h : Hart x) (c : Csr) (v : XWord x) (rd : Reg) :
    h.Swaps ((h.csrWrite c v).writeResult rd (h.csrRead c)) c (h.csrWrite c v) rd :=
  swaps_writeResult (fun j => by simp) (by simp) ⟨fun a => by simp, by simp, by simp⟩ ⟨by simp, by simp, by simp⟩ c rd

theorem swaps_unwritten (h : Hart x) (c : Csr) (rd : Reg) : h.Swaps (h.writeResult rd (h.csrRead c)) c h rd :=
  swaps_writeResult (fun _ => rfl) rfl ⟨fun _ => rfl, rfl, rfl⟩ ⟨rfl, rfl, rfl⟩ c rd

/-- A permitted CSR instruction ends with the old value in `rd`; one that does not read has `rd = x0`, so that writing
`rd` is no write. -/
theorem settle_csrInstr (h : Hart x) (i : Instr) {rd : Reg} {a : CsrAddr} {reads writes : Bool}
    (new : XWord x → XWord x) {c : Csr} (access : h.csrAccess a writes = some c) (hr : reads = false → rd = 0) :
    h.settle (h.csrInstr i rd a reads writes new) =
      .next ⟨x, (if writes then h.csrWrite c (new (h.csrRead c)) else h).writeResult rd (h.csrRead c)⟩ := by
  simp only [Hart.csrInstr, access]
  cases reads
  · rw [hr rfl, writeResult_zero]; rfl
  · rfl

/-- An instruction that runs the common rule follows `CsrRule`. -/
theorem csrRule_of_csrInstr {h : Hart x} {i : Instr} {rd : Reg} {a : CsrAddr} {reads writes : Bool} {W : Prop}
    {new : XWord x → XWord x} (run : exec i ⟨x, h⟩ = h.settle (h.csrInstr i rd a reads writes new))
    (hr : reads = false → rd = 0) (hw : writes = true ↔ W) : h.CsrRule i a rd W new := by
  intro permits
  obtain ⟨iff_access, at_address⟩ := csrAccess_permits h a hw
  obtain ⟨c, access⟩ := iff_access.1 permits
  have ends := run.trans (settle_csrInstr h i new access hr)
  refine ⟨c, (csrAt_iff a c).1 (at_address c access), fun hW => ?_, fun hW => ?_⟩
  · rw [if_pos (hw.2 hW)] at ends
    exact ⟨_, ends, swaps_written h c _ rd⟩
  · rw [if_neg fun e => hW (hw.1 e)] at ends
    exact ⟨_, ends, swaps_unwritten h c rd⟩

/-- Settles O46: the six instructions are the common rule with their own reads, writes and new value. -/
theorem csrInstructionsReadAndWrite : Obligations.CsrInstructionsReadAndWrite := by
  intro x h rd rs1 csr uimm
  have reads : decide (rd ≠ 0) = false → rd = 0 := by simp
  have always : true = false → rd = 0 := nofun
  have uimm_eq : BitVec.ofNat x.bits uimm.toNat = zextX x uimm := BitVec.ofNat_toNat ..
  rw [uimm_eq]
  exact ⟨csrRule_of_csrInstr rfl reads (by simp), csrRule_of_csrInstr rfl always decide_eq_true_iff,
    csrRule_of_csrInstr rfl always decide_eq_true_iff, csrRule_of_csrInstr rfl reads (by simp),
    csrRule_of_csrInstr rfl always decide_eq_true_iff, csrRule_of_csrInstr rfl always decide_eq_true_iff⟩

end Sys2Proof.Proofs.CsrWrites

namespace Sys2Proof.Proofs.Execution

open Sys2Proof.Machine Sys2Proof.Laws

variable {x : Xlen}

/-! ### Trap entry does what R311 to R314 say -/

theorem enterTrapM_trapsToM (h : Hart x) (interrupt : Bool) {code : Nat} (hc : code < 16) (tval epc : XWord x) :
    h.TrapsToM (h.enterTrapM interrupt code tval epc) interrupt code tval epc where
  mepc := rfl
  mcause := toNat_causeWord interrupt hc
  mtval := rfl
  mstatus := rfl
  priv := rfl
  waiting := rfl
  pc := toNat_trapTarget h.mtvec interrupt hc
  regs := fun _ => rfl
  memory := ⟨fun _ => rfl, rfl, rfl⟩
  environment := ⟨rfl, rfl, rfl⟩
  cfg := rfl
  delegation := ⟨rfl, rfl⟩
  interrupts := ⟨rfl, rfl⟩
  vectors := ⟨rfl, rfl⟩
  scratch := ⟨rfl, rfl⟩
  supervisor := ⟨rfl, rfl, rfl⟩

theorem enterTrapS_trapsToS (h : Hart x) (interrupt : Bool) {code : Nat} (hc : code < 16) (tval epc : XWord x) :
    h.TrapsToS (h.enterTrapS interrupt code tval epc) interrupt code tval epc where
  sepc := rfl
  scause := toNat_causeWord interrupt hc
  stval := rfl
  mstatus := by rw [enterTrapS_mstatus, isS_eq]
  priv := rfl
  waiting := rfl
  pc := toNat_trapTarget h.stvec interrupt hc
  regs := fun _ => rfl
  memory := ⟨fun _ => rfl, rfl, rfl⟩
  environment := ⟨rfl, rfl, rfl⟩
  cfg := rfl
  delegation := ⟨rfl, rfl⟩
  interrupts := ⟨rfl, rfl⟩
  vectors := ⟨rfl, rfl⟩
  scratch := ⟨rfl, rfl⟩
  machine := ⟨rfl, rfl, rfl⟩

/-- Taking a trap is the trap of the statements, in the mode R311 gives. -/
theorem enterTrap_traps (h : Hart x) (interrupt : Bool) {code : Nat} (hc : code < 16) (tval epc : XWord x) :
    h.Traps (h.enterTrap interrupt code tval epc) interrupt code tval epc := by
  constructor
  · intro handled
    rw [Hart.enterTrap, if_pos ((delegated_iff h interrupt code).2 handled)]
    exact enterTrapS_trapsToS h interrupt hc tval epc
  · intro unhandled
    rw [Hart.enterTrap, if_neg fun d => unhandled ((delegated_iff h interrupt code).1 d)]
    exact enterTrapM_trapsToM h interrupt hc tval epc

/-- An exception is a trap of the instruction at `pc`. -/
theorem takeException_traps (h : Hart x) (e : Exn x) :
    h.Traps (h.takeException e) false (Exn.code e) (h.trapValue e) h.pc :=
  enterTrap_traps h false (exn_code_lt e) _ _

/-! ### What an instruction does to the mode and to `pc` (10_state.md R24, R26) -/

/-- A legal SRET is not executed in U-mode (R203). -/
theorem priv_ne_u_of_sretAllowed {h : Hart x} (legal : h.sretAllowed = true) : h.priv ≠ .u := by
  rintro hu
  simp [Hart.sretAllowed, hu] at legal

/-- Settles O16, by the ways an instruction can come out: only a trap and the two trap returns touch the mode. -/
theorem privilegeChangesOnlyByTrapOrTrapReturn : Obligations.PrivilegeChangesOnlyByTrapOrTrapReturn := by
  intro x h i s run
  have cases_of_run := exec_cases h i
  rw [run] at cases_of_run
  cases cases_of_run with
  | raises e => exact ⟨_, rfl, .inr (.inl ⟨_, _, takeException_traps h e⟩)⟩
  | computes rd v => exact ⟨_, rfl, .inl (by simp)⟩
  | accessesIo e rd v => exact ⟨_, rfl, .inl (by simp)⟩
  | stores a n v => exact ⟨_, rfl, .inl (by simp)⟩
  | syncs => exact ⟨_, rfl, .inl rfl⟩
  | writesCsr a c new rd v => exact ⟨_, rfl, .inl (by simp)⟩
  | jumps rd v target => exact ⟨_, rfl, .inl (by simp)⟩
  | returnsM ret mode => exact ⟨_, rfl, .inr (.inr (.inl ⟨ret, mode, rfl⟩))⟩
  | returnsS ret legal => exact ⟨_, rfl, .inr (.inr (.inr ⟨ret, priv_ne_u_of_sretAllowed legal, rfl⟩))⟩
  | waits => exact ⟨_, rfl, .inl rfl⟩

/-- A hart whose `pc` is the next word's, as a number (R24, R25). -/
theorem toNat_pc_next {h t : Hart x} (pc : t.pc = h.pc + 4) : t.pc.toNat = (h.pc.toNat + 4) % 2 ^ x.bits := by
  rw [pc, toNat_add_four]

/-- Settles O20, by the ways an instruction can come out: one that does not jump continues at the next word or traps. -/
theorem otherInstructionsContinueAtTheNextWord : Obligations.OtherInstructionsContinueAtTheNextWord := by
  intro x h i s stays run
  have cases_of_run := exec_cases h i
  rw [run] at cases_of_run
  cases cases_of_run with
  | raises e => exact ⟨_, rfl, .inr ⟨_, _, takeException_traps h e⟩⟩
  | computes rd v => exact ⟨_, rfl, .inl (toNat_pc_next (by simp))⟩
  | accessesIo e rd v => exact ⟨_, rfl, .inl (toNat_pc_next (by simp))⟩
  | stores a n v => exact ⟨_, rfl, .inl (toNat_pc_next (by simp))⟩
  | syncs => exact ⟨_, rfl, .inl (toNat_pc_next rfl)⟩
  | writesCsr a c new rd v => exact ⟨_, rfl, .inl (toNat_pc_next (by simp))⟩
  | jumps rd v target jump => rw [stays] at jump; cases jump
  | returnsM ret => rw [ret] at stays; cases stays
  | returnsS ret => rw [ret] at stays; cases stays
  | waits => exact ⟨_, rfl, .inl (toNat_pc_next rfl)⟩

/-! ### Everything a step can do (60_exceptions.md R304) -/

/-- The hart an instruction runs on: other agents' writes between the fetch and its own access have landed (R86). -/
def executing (b : Hart x) : Hart x := b.awake.agentWrites b.now.agentAfterFetch

/-- The ways a step can come out, `b` being the hart that has taken the input of the step. -/
inductive StepCases (b : Hart x) : Result → Prop where
  /-- The hart stays stalled. -/
  | stalls (stays : b.staysWaiting = true) : StepCases b (.next ⟨x, b⟩)
  /-- An interrupt is taken. -/
  | interrupts (i : Interrupt) (chosen : b.awake.chosenInterrupt = some i) :
      StepCases b (.next ⟨x, b.awake.takeInterrupt i⟩)
  /-- The fetch takes an exception. -/
  | fetchRaises (e : Exn x) (fetch : b.awake.fetch = .raise e) : StepCases b (.next ⟨x, b.awake.takeException e⟩)
  /-- The fetch stops the model. -/
  | fetchStops (f : Fault) (fetch : b.awake.fetch = .stop f) : StepCases b (.fault f)
  /-- The word fetched is an instruction, which is executed. -/
  | executes (w : InstWord) (i : Instr) (r : Result) (fetch : b.awake.fetch = .done w) (decoded : decode x w = .ok i)
      (run : exec i ⟨x, executing b⟩ = r) : StepCases b r
  /-- The word fetched is no instruction. -/
  | illegal (w : InstWord) (e : DecodeError) (fetch : b.awake.fetch = .done w) (undecoded : decode x w = .error e) :
      StepCases b (.next ⟨x, (executing b).takeException (.illegalInstruction w)⟩)

theorem stepWord_cases (b : Hart x) {w : InstWord} (fetch : b.awake.fetch = .done w) :
    StepCases b (stepWord ⟨x, b.awake⟩ w) := by
  unfold stepWord
  split
  · rename_i i decoded; exact .executes w i _ fetch decoded rfl
  · rename_i e undecoded; exact .illegal w e fetch undecoded

theorem stepAwake_cases (b : Hart x) : StepCases b (stepAwake ⟨x, b.awake⟩) := by
  unfold stepAwake
  split
  · rename_i i chosen; exact .interrupts i chosen
  · split
    · rename_i w fetch; exact stepWord_cases b fetch
    · rename_i e fetch; exact .fetchRaises e fetch
    · rename_i f fetch; exact .fetchStops f fetch

theorem step_cases (h : Hart x) : StepCases h.beginStep (step ⟨x, h⟩) := by
  by_cases stays : h.beginStep.staysWaiting = true
  · rw [show step ⟨x, h⟩ = .next ⟨x, h.beginStep⟩ from if_pos stays]
    exact .stalls stays
  · rw [show step ⟨x, h⟩ = stepAwake ⟨x, h.beginStep.awake⟩ from if_neg stays]
    exact stepAwake_cases h.beginStep

/-! ### Stops (10_state.md R29, 70_reset_and_hazards.md R400) -/

theorem exec_ne_refused (i : Instr) (s : State) (r : Refusal) : exec i s ≠ .refused r := by
  intro run
  have cases_of_run := exec_cases s.hart i
  rw [run] at cases_of_run
  cases cases_of_run

/-- A stop of an instruction is that of a load of a byte that has no value. -/
theorem exec_fault {h : Hart x} {i : Instr} {f : Fault} (run : exec i ⟨x, h⟩ = .fault f) :
    f = .loadOfUnwrittenByte ∧ h.LoadsUnwritten i := by
  have cases_of_run := exec_cases h i
  rw [run] at cases_of_run
  cases cases_of_run with
  | stops load => exact ⟨rfl, load⟩

theorem step_ne_refused (s : State) (r : Refusal) : step s ≠ .refused r := by
  intro run
  have cases_of_run := step_cases s.hart
  rw [run] at cases_of_run
  cases cases_of_run with
  | executes w i r fetch decoded run => exact exec_ne_refused _ _ _ run

/-- Settles O19: an instruction by `exec_cases`, a step by `step_cases`. -/
theorem onlyALoadOfAnUnwrittenByteStopsAnInstruction : Obligations.OnlyALoadOfAnUnwrittenByteStopsAnInstruction :=
  ⟨exec_ne_refused, step_ne_refused, fun _ _ _ _ => exec_fault⟩

/-- An aligned read of `Main` with a byte that has no value stops the model. -/
theorem memRead_unwritten {h : Hart x} {a : XWord x} {n k : Nat} (hn : n ∈ [1, 2, 4, 8]) (aligned : a.toNat % n = 0)
    (main : h.regionAt a.toNat = .main) (hk : k < n) (unwritten : Memory.read h.mem (a.toNat + k) = none) :
    h.memRead a n = .stop .loadOfUnwrittenByte := by
  have listed : a.toNat + k ∈ byteAddrs a n :=
    List.mem_map.2 ⟨k, List.mem_range.2 hk, byteAddr_of_aligned hn aligned hk⟩
  rw [memRead_main h hn aligned main, readBytes_none unwritten listed]

theorem settle_loadInto_unwritten {h : Hart x} {rs1 : Reg} {offset : BitVec 12} {n k : Nat} (hn : n ∈ [1, 2, 4, 8])
    (aligned : (h.effAddr rs1 offset).toNat % n = 0) (main : h.regionAt (h.effAddr rs1 offset).toNat = .main)
    (hk : k < n) (unwritten : Memory.read h.mem ((h.effAddr rs1 offset).toNat + k) = none) (rd : Reg)
    (extend : BitVec (8 * n) → XWord x) :
    h.settle (h.loadInto rd rs1 offset n extend) = .fault .loadOfUnwrittenByte := by
  rw [Hart.loadInto, memRead_unwritten hn aligned main hk unwritten]
  rfl

/-- Settles O41: each load is `loadInto` with its own width and extension. -/
theorem loadOfAnUnwrittenByteStops : Obligations.LoadOfAnUnwrittenByteStops := by
  rintro x h rd rs1 offset _ k rfl main unwritten
  refine ⟨fun hk => ⟨?_, ?_⟩, fun hk ha => ⟨?_, ?_⟩, fun hk ha => ?_, ?_, ?_⟩
  · exact settle_loadInto_unwritten (by decide) (Nat.mod_one _) main hk unwritten rd _
  · exact settle_loadInto_unwritten (by decide) (Nat.mod_one _) main hk unwritten rd _
  · exact settle_loadInto_unwritten (by decide) ha main hk unwritten rd _
  · exact settle_loadInto_unwritten (by decide) ha main hk unwritten rd _
  · exact settle_loadInto_unwritten (by decide) ha main hk unwritten rd _
  · rintro hk ha rfl
    exact settle_loadInto_unwritten (by decide) ha main hk unwritten rd _
  · rintro hk ha rfl
    exact settle_loadInto_unwritten (by decide) ha main hk unwritten rd _

end Sys2Proof.Proofs.Execution

namespace Sys2Proof.Proofs.Invariant

open Sys2Proof.Machine Sys2Proof.Laws Sys2Proof.Proofs.Execution Sys2Proof.Proofs.CsrWrites

variable {x : Xlen} {h : Hart x}

/-! ### Registers, `pc` and the record of accesses -/

theorem inv_setPc (hi : h.Inv) {target : XWord x} (aligned : target.toNat % 4 = 0) : (h.setPc target).Inv :=
  { hi with pcAligned := aligned }

theorem inv_writeX (hi : h.Inv) (rd : Reg) (v : XWord x) : (h.writeX rd v).Inv := by
  unfold Hart.writeX
  split
  · exact hi
  · exact { hi with }

/-- The next word is at a multiple of 4 (R25), also where the address wraps. -/
theorem aligned_add_four {v : XWord x} (aligned : v.toNat % 4 = 0) : (v + 4).toNat % 4 = 0 := by
  rw [toNat_add_four]
  cases x <;> simp only [Xlen.bits] <;> omega

theorem inv_advance (hi : h.Inv) : h.advance.Inv := inv_setPc hi (aligned_add_four hi.pcAligned)

theorem inv_writeResult (hi : h.Inv) (rd : Reg) (v : XWord x) : (h.writeResult rd v).Inv :=
  inv_advance (inv_writeX hi rd v)

theorem inv_logIo (hi : h.Inv) (e : IoEvent) : (h.logIo e).Inv := { hi with }

theorem inv_startWaiting (hi : h.Inv) : h.startWaiting.Inv := { inv_advance hi with }

theorem inv_awake (hi : h.Inv) : h.awake.Inv := { hi with }

/-! ### Memory and the history of written bytes (10_state.md R29, 20_memory.md R84, R86) -/

theorem inv_syncFetch (hi : h.Inv) : h.syncFetch.Inv :=
  { hi with historyRising := List.Pairwise.nil, historyMain := nofun }

/-- In canonical form the entry at the address just put in is the one put in. -/
theorem eq_of_mem_insertAt {α : Type} {l : List (Nat × α)} (rising : risingAddresses l) {a : Nat} {v : α}
    {p : Nat × α} (mem : p ∈ insertAt l a v) (addr : p.1 = a) : p.2 = v := by
  have found := lookupAt_of_mem (rising_insertAt rising a v) mem
  rw [lookupAt_insertAt, if_pos addr.symm] at found
  exact (Option.some.inj found).symm

/-- A byte written to a `Main` address: the history gains its value, and other entries keep theirs. -/
theorem inv_writeByte (hi : h.Inv) {a : Nat} (b : Byte) (stored : Bool) (lt : a < 2 ^ x.bits)
    (main : h.regionAt a = .main) : (h.writeByte a b stored).Inv :=
  { hi with
    memRising := wf_write hi.memRising a b
    memMain := by
      intro c mem
      rcases mem_insertAt mem with rfl | old
      · exact ⟨lt, main⟩
      · exact hi.memMain c old
    historyRising := rising_insertAt hi.historyRising a _
    historyMain := by
      intro p mem
      have read := read_write h.mem a b p.1
      by_cases addr : p.1 = a
      · have entry := eq_of_mem_insertAt hi.historyRising mem addr
        rw [if_pos addr.symm] at read
        refine ⟨addr ▸ lt, addr ▸ main, ?_⟩
        rw [entry]
        exact read ▸ (mem_addHeld _ b _).2 (.inr rfl)
      · rcases mem_insertAt mem with rfl | old
        · exact absurd rfl addr
        · obtain ⟨lt', main', held⟩ := hi.historyMain p old
          rw [if_neg fun e => addr e.symm] at read
          exact ⟨lt', main', read ▸ held⟩ }

/-- Stores to `Main` bytes, one after the other. -/
theorem inv_storeCells {cells : List Host.Cell} (hi : h.Inv)
    (main : ∀ c ∈ cells, c.1 < 2 ^ x.bits ∧ h.regionAt c.1 = .main) : (h.storeCells cells).Inv := by
  induction cells generalizing h with
  | nil => exact hi
  | cons c rest ih =>
    obtain ⟨lt, first⟩ := main c (List.mem_cons_self ..)
    refine ih (inv_writeByte hi c.2 true lt first) fun d mem => ?_
    exact main d (List.mem_cons_of_mem _ mem)

/-- The cells of an aligned access whose first byte is in `Main` are all in `Main`. -/
theorem cellsOfValue_main {a : XWord x} {n : Nat} (hn : n ∈ [1, 2, 4, 8]) (aligned : a.toNat % n = 0)
    (main : h.regionAt a.toNat = .main) (v : BitVec (8 * n)) :
    ∀ c ∈ cellsOfValue a n v, c.1 < 2 ^ x.bits ∧ h.regionAt c.1 = .main := by
  intro c mem
  obtain ⟨k, hk, rfl⟩ := List.mem_map.1 mem
  exact ⟨byteAddr_lt a k, (regionAt_byteAddr hn aligned (List.mem_range.1 hk)).trans main⟩

/-- A shared range is a `Main` range. -/
theorem main_of_sharedAt {a : Nat} (shared : h.sharedAt a = true) : h.regionAt a = .main := by
  unfold Hart.sharedAt at shared
  unfold Hart.regionAt
  cases range : rangeAt h.cfg.regions a with
  | none => rw [range] at shared; cases shared
  | some r =>
    rw [range] at shared
    exact of_decide_eq_true (Bool.and_eq_true_iff.1 shared).1

theorem inv_agentByte (hi : h.Inv) (a : Nat) (b : Byte) : (h.agentByte a b).Inv := by
  unfold Hart.agentByte
  split
  · rename_i lands
    obtain ⟨shared, lt⟩ := Bool.and_eq_true_iff.1 lands
    exact inv_writeByte hi b _ (of_decide_eq_true lt) (main_of_sharedAt shared)
  · exact hi

theorem inv_agentWrites (hi : h.Inv) (cells : List Host.Cell) : (h.agentWrites cells).Inv := by
  rw [agentWrites_eq]
  induction cells generalizing h with
  | nil => exact hi
  | cons c rest ih => exact ih (inv_agentByte hi c.1 c.2)

/-- Taking the input of the step touches nothing the invariant speaks of but by other agents' writes. -/
theorem inv_beginStep (hi : h.Inv) : h.beginStep.Inv :=
  inv_agentWrites (h := { h with now := h.nextInput, env := h.env.tail, steps := h.steps + 1 }) { hi with } _

theorem inv_executing (hi : h.Inv) : (executing h).Inv := inv_agentWrites (inv_awake hi) _

/-! ### Traps and trap returns (60_exceptions.md R311 to R314, R320) -/

theorem aligned_trapTarget (tvec : XWord x) (interrupt : Bool) {code : Nat} (hc : code < 16) :
    (trapTarget tvec interrupt code).toNat % 4 = 0 := by
  rw [toNat_trapTarget tvec interrupt hc]
  exact handlerAddress_aligned tvec interrupt code

theorem inv_enterTrapM (hi : h.Inv) (interrupt : Bool) {code : Nat} (hc : code < 16) (tval : XWord x) {epc : XWord x}
    (aligned : epc.toNat % 4 = 0) : (h.enterTrapM interrupt code tval epc).Inv :=
  { hi with
    pcAligned := aligned_trapTarget h.mtvec interrupt hc
    mepcAligned := aligned
    privExists := trivial
    mstatusOk := { hi.mstatusOk with mpp := hi.privExists } }

/-- A trap handled in S-mode; the fields it writes may hold a value since S-mode exists. -/
theorem inv_enterTrapS (hi : h.Inv) (hasS : h.cfg.hasS = true) (interrupt : Bool) {code : Nat} (hc : code < 16)
    (tval : XWord x) {epc : XWord x} (aligned : epc.toNat % 4 = 0) : (h.enterTrapS interrupt code tval epc).Inv :=
  { hi with
    pcAligned := aligned_trapTarget h.stvec interrupt hc
    sepcAligned := aligned
    privExists := hasS
    mstatusOk := { hi.mstatusOk with supervisor := fun none => by cases hasS.symm.trans none } }

theorem inv_enterTrap (hi : h.Inv) (interrupt : Bool) {code : Nat} (hc : code < 16) (tval : XWord x) :
    (h.enterTrap interrupt code tval h.pc).Inv := by
  unfold Hart.enterTrap
  split
  · rename_i delegated
    obtain ⟨hasS, -, -⟩ := (delegated_iff h interrupt code).1 delegated
    exact inv_enterTrapS hi hasS interrupt hc tval hi.pcAligned
  · exact inv_enterTrapM hi interrupt hc tval hi.pcAligned

theorem inv_takeException (hi : h.Inv) (e : Exn x) : (h.takeException e).Inv :=
  inv_enterTrap hi false (exn_code_lt e) _

theorem interrupt_code_lt (i : Interrupt) : Interrupt.code i < 16 := by cases i <;> decide

theorem inv_takeInterrupt (hi : h.Inv) (i : Interrupt) : (h.takeInterrupt i).Inv :=
  inv_enterTrap hi true (interrupt_code_lt i) _

/-- The least privileged mode, to which MRET resets MPP, is implemented (R320). -/
theorem modeExists_least (cfg : Config x) : modeExists cfg (if cfg.hasU then .u else .m) := by
  split
  · assumption
  · trivial

theorem inv_trapReturnM (hi : h.Inv) : h.trapReturnM.Inv :=
  { hi with
    pcAligned := hi.mepcAligned
    privExists := hi.mstatusOk.mpp
    mstatusOk := { hi.mstatusOk with mpp := modeExists_least h.cfg } }

/-- SRET to U-mode goes to an implemented mode, since the invariant has U-mode where S-mode is (notes/assumptions/13.md). -/
theorem inv_trapReturnS (hi : h.Inv) (hasS : h.cfg.hasS = true) : h.trapReturnS.Inv :=
  { hi with
    pcAligned := hi.sepcAligned
    privExists := by
      show modeExists h.cfg (if h.mstatus.spp then .s else .u)
      split
      · exact hasS
      · exact hi.config.modes hasS
    mstatusOk := { hi.mstatusOk with supervisor := fun none => by cases hasS.symm.trans none } }

theorem hasS_of_sretAllowed (legal : h.sretAllowed = true) : h.cfg.hasS = true := by
  unfold Hart.sretAllowed at legal
  obtain ⟨rest, -⟩ := Bool.and_eq_true_iff.1 legal
  exact (Bool.and_eq_true_iff.1 rest).1

/-! ### CSR writes (10_state.md R33 to R46) -/

/-- A register that exists with S-mode only is accessed on harts that have it (R51). -/
theorem hasS_of_csrAccess {a : CsrAddr} {writes : Bool} {c : Csr} (access : h.csrAccess a writes = some c)
    (needs : Csr.needsS c = true) : h.cfg.hasS = true := by
  obtain ⟨permits_iff, at_address⟩ := csrAccess_permits h a (W := writes = true) Iff.rfl
  rcases (permits_iff.2 ⟨c, access⟩).implemented with always | ⟨hasS, -⟩
  · obtain ⟨d, found, free⟩ := csrAlways_at always
    cases (at_address c access).symm.trans found
    cases needs.symm.trans free
  · exact hasS

/-- Bits kept under a mask are bits of the mask. -/
theorem and_mask_clear {w : Nat} (v m : BitVec w) : v &&& m &&& ~~~m = 0 := by
  rw [BitVec.and_assoc, BitVec.and_not_self]
  exact BitVec.and_zero

/-- A value within a mask, rewritten in places of the mask, stays within it. -/
theorem merge_mask_clear {w : Nat} {old v m mask : BitVec w} (within : old &&& ~~~mask = 0) (sub : m &&& ~~~mask = 0) :
    ((old &&& ~~~m) ||| (v &&& m)) &&& ~~~mask = 0 := by
  rw [or_and, BitVec.and_assoc, BitVec.and_comm (~~~m), ← BitVec.and_assoc, within, BitVec.and_assoc v, sub]
  simp

/-- On a hart with S-mode the supervisor's interrupt bits are bits of `mie` and of `mip`. -/
theorem supervisorMask_sub_mieMask {cfg : Config x} (hasS : cfg.hasS = true) :
    supervisorMask x &&& ~~~mieMask cfg = 0 := by
  rw [mieMask, hasS, supervisorMask]
  cases x <;> rfl

theorem ssip_sub_mipMask {cfg : Config x} (hasS : cfg.hasS = true) : (2 : XWord x) &&& ~~~mipMask cfg = 0 := by
  rw [mipMask, hasS]
  cases x <;> rfl

theorem aligned_legalEpc (v : XWord x) : (legalEpc v).toNat % 4 = 0 := by
  rw [legalEpc, toNat_and_not_three]
  omega

theorem modeExists_legalMpp {cfg : Config x} {old : Priv} (exists_old : modeExists cfg old) (v : BitVec 2) :
    modeExists cfg (legalMpp cfg v old) := by
  unfold legalMpp
  split
  · split
    · assumption
    · exact exists_old
  · split
    · assumption
    · exact exists_old
  · trivial
  · exact exists_old

theorem mstatusOk_writeMstatus {cfg : Config x} {m : Mstatus} (ok : MstatusOk cfg m) (v : XWord x) :
    MstatusOk cfg (writeMstatus cfg m v) where
  mpp := modeExists_legalMpp ok.mpp _
  supervisor none := by simp [writeMstatus, none]
  user none := by simp [writeMstatus, none]
  timeout noS noU := by simp [writeMstatus, noS, noU]

theorem mstatusOk_writeSstatus {cfg : Config x} {m : Mstatus} (ok : MstatusOk cfg m) (hasS : cfg.hasS = true)
    (v : XWord x) : MstatusOk cfg (writeSstatus m v) :=
  { ok with supervisor := fun none => by cases hasS.symm.trans none }

/-- MODE of a trap vector stays 0 or 1: a reserved value is not taken (R43, R44). -/
theorem mode_legalTvec {old : XWord x} (mode : old.toNat % 4 < 2) (v : XWord x) :
    (legalTvec old v).toNat % 4 < 2 := by
  have bit := legalTvec_bit old v 1
  rw [bit_one_eq, bit_one_eq, bit_one_eq] at bit
  by_contra reserved
  rw [decide_eq_true (Nat.le_of_not_lt reserved)] at bit
  split at bit
  · exact absurd (of_decide_eq_true bit.symm) (by omega)
  · rename_i taken
    exact taken ⟨of_decide_eq_true bit.symm, by decide⟩

/-- A write to `sip` reaches one bit of `mip`, and only on harts with S-mode. -/
theorem inv_csrWrite_sip (hi : h.Inv) (hasS : h.cfg.hasS = true) (v : XWord x) : (h.csrWrite .sip v).Inv := by
  unfold Hart.csrWrite
  dsimp only
  split
  · exact { hi with mipBits := merge_mask_clear hi.mipBits (ssip_sub_mipMask hasS) }
  · exact hi

/-- A write to `sie` reaches the delegated supervisor bits of `mie`, and only on harts with S-mode. -/
theorem inv_csrWrite_sie (hi : h.Inv) (hasS : h.cfg.hasS = true) (v : XWord x) : (h.csrWrite .sie v).Inv :=
  have within : h.mideleg &&& supervisorMask x &&& ~~~mieMask h.cfg = 0 := by
    rw [BitVec.and_assoc, supervisorMask_sub_mieMask hasS]
    exact BitVec.and_zero
  { hi with mieBits := merge_mask_clear hi.mieBits within }

/-- A write to a register keeps the invariant, where S-mode exists if the register needs it. -/
theorem inv_csrWrite (hi : h.Inv) (c : Csr) (needs : Csr.needsS c = true → h.cfg.hasS = true) (v : XWord x) :
    (h.csrWrite c v).Inv := by
  cases c with
  | sstatus => exact { hi with mstatusOk := mstatusOk_writeSstatus hi.mstatusOk (needs rfl) v }
  | sie => exact inv_csrWrite_sie hi (needs rfl) v
  | stvec => exact { hi with stvecMode := mode_legalTvec hi.stvecMode v }
  | sscratch => exact { hi with }
  | sepc => exact { hi with sepcAligned := aligned_legalEpc v }
  | scause => exact { hi with }
  | stval => exact { hi with }
  | sip => exact inv_csrWrite_sip hi (needs rfl) v
  | satp => exact hi
  | mstatus => exact { hi with mstatusOk := mstatusOk_writeMstatus hi.mstatusOk v }
  | misa => exact hi
  | medeleg => exact { hi with medelegBits := and_mask_clear v _ }
  | mideleg => exact { hi with midelegBits := and_mask_clear v _ }
  | mie => exact { hi with mieBits := and_mask_clear v _ }
  | mtvec => exact { hi with mtvecMode := mode_legalTvec hi.mtvecMode v }
  | mscratch => exact { hi with }
  | mepc => exact { hi with mepcAligned := aligned_legalEpc v }
  | mcause => exact { hi with }
  | mtval => exact { hi with }
  | mip => exact { hi with mipBits := and_mask_clear v _ }
  | mvendorid => exact hi
  | marchid => exact hi
  | mimpid => exact hi
  | mhartid => exact hi

/-! ### The instruction and the step -/

/-- Every instruction keeps the invariant, by the ways it can come out. -/
theorem inv_exec (hi : h.Inv) {i : Instr} {t : State} (run : exec i ⟨x, h⟩ = .next t) : t.Inv := by
  have cases_of_run := exec_cases h i
  rw [run] at cases_of_run
  cases cases_of_run with
  | raises e => exact inv_takeException hi e
  | computes rd v => exact inv_writeResult hi rd v
  | accessesIo e rd v => exact inv_writeResult (inv_logIo hi e) rd v
  | stores a n v size aligned main => exact inv_advance (inv_storeCells hi (cellsOfValue_main size aligned main v))
  | syncs => exact inv_advance (inv_syncFetch hi)
  | writesCsr a c new rd v access =>
    exact inv_writeResult (inv_csrWrite hi c (hasS_of_csrAccess access) new) rd v
  | jumps rd v target jump aligned => exact inv_setPc (inv_writeX hi rd v) aligned
  | returnsM ret mode => exact inv_trapReturnM hi
  | returnsS ret legal => exact inv_trapReturnS hi (hasS_of_sretAllowed legal)
  | waits => exact inv_startWaiting hi

/-- Settles O13, by the ways a step can come out: each part of it keeps the invariant. -/
theorem everyStepKeepsTheInvariant : Obligations.EveryStepKeepsTheInvariant := by
  rintro ⟨x, h⟩ t hi run
  have begun : h.beginStep.Inv := inv_beginStep hi
  have cases_of_run := step_cases h
  rw [run] at cases_of_run
  cases cases_of_run with
  | stalls => exact begun
  | interrupts i => exact inv_takeInterrupt (inv_awake begun) i
  | fetchRaises e => exact inv_takeException (inv_awake begun) e
  | executes w i r fetch decoded run => exact inv_exec (inv_executing begun) run
  | illegal w => exact inv_takeException (inv_executing begun) _

end Sys2Proof.Proofs.Invariant

namespace Sys2Proof.Proofs.MemoryAccess

open Sys2Proof.Machine Sys2Proof.Laws Sys2Proof.Proofs.Execution

variable {x : Xlen}

/-! ### The effective address (20_memory.md R70) -/

/-- Settles O35: the offset is extended with its sign, and the sum of words wraps. -/
theorem effectiveAddressIsTheWrappedSum : Obligations.EffectiveAddressIsTheWrappedSum := by
  intro x h rs1 offset
  rw [Hart.effAddr, toNat_add_int, toInt_sextX imm_fits]

/-! ### Accesses that raise an exception (R75, R76, R78) -/

/-- A rule that raises an exception is that exception of the instruction at `pc`. -/
theorem raises_settle (h : Hart x) (e : Exn x) : h.Raises (h.settle (.raise e)) (Exn.code e) (h.trapValue e) :=
  ⟨_, rfl, takeException_traps h e⟩

theorem loadInto_of_raise {h : Hart x} {rs1 : Reg} {offset : BitVec 12} {n : Nat} {e : Exn x}
    (read : h.memRead (h.effAddr rs1 offset) n = .raise e) (rd : Reg) (extend : BitVec (8 * n) → XWord x) :
    h.loadInto rd rs1 offset n extend = .raise e := by
  rw [Hart.loadInto, read]
  rfl

theorem storeFrom_of_raise {h : Hart x} {rs1 rs2 : Reg} {offset : BitVec 12} {n : Nat} {e : Exn x}
    (write : h.memWrite (h.effAddr rs1 offset) n ((h.readX rs2).setWidth (8 * n)) = .raise e) :
    h.storeFrom rs2 rs1 offset n = .raise e := by
  rw [Hart.storeFrom, write]
  rfl

section Misaligned

variable {h : Hart x} {rs1 : Reg} {offset : BitVec 12} {n : Nat}
  (misaligned : (h.effAddr rs1 offset).toNat % n ≠ 0)

include misaligned

theorem loadInto_misaligned (rd : Reg) (extend : BitVec (8 * n) → XWord x) :
    h.Raises (h.settle (h.loadInto rd rs1 offset n extend)) 4 (h.effAddr rs1 offset) := by
  rw [loadInto_of_raise (memRead_misaligned h misaligned)]
  exact raises_settle h _

theorem storeFrom_misaligned (rs2 : Reg) :
    h.Raises (h.settle (h.storeFrom rs2 rs1 offset n)) 6 (h.effAddr rs1 offset) := by
  rw [storeFrom_of_raise (memWrite_misaligned h misaligned _)]
  exact raises_settle h _

end Misaligned

/-- Settles O39: each load is `loadInto` and each store `storeFrom`, which test the alignment before the region. -/
theorem misalignedAccessesTrap : Obligations.MisalignedAccessesTrap := by
  rintro x h r rs1 offset _ rfl
  refine ⟨fun half => ⟨?_, ?_, ?_⟩, fun word => ⟨?_, ?_, ?_⟩, ?_⟩
  · exact loadInto_misaligned half r _
  · exact loadInto_misaligned half r _
  · exact storeFrom_misaligned half r
  · exact loadInto_misaligned word r _
  · exact storeFrom_misaligned word r
  · rintro rfl
    exact loadInto_misaligned word r _
  · rintro rfl double
    exact ⟨loadInto_misaligned double r _, storeFrom_misaligned double r⟩

section Vacant

variable {h : Hart x} {rs1 : Reg} {offset : BitVec 12} {n : Nat} (size : n ∈ [1, 2, 4, 8])
  (vacant : h.regionAt (h.effAddr rs1 offset).toNat = .vacant) (aligned : (h.effAddr rs1 offset).toNat % n = 0)

include size vacant aligned

theorem loadInto_vacant (rd : Reg) (extend : BitVec (8 * n) → XWord x) :
    h.Raises (h.settle (h.loadInto rd rs1 offset n extend)) 5 (h.effAddr rs1 offset) := by
  rw [loadInto_of_raise (memRead_vacant h size aligned vacant)]
  exact raises_settle h _

theorem storeFrom_vacant (rs2 : Reg) :
    h.Raises (h.settle (h.storeFrom rs2 rs1 offset n)) 7 (h.effAddr rs1 offset) := by
  rw [storeFrom_of_raise (memWrite_vacant h size aligned vacant _)]
  exact raises_settle h _

end Vacant

/-- Settles O40: each load is `loadInto` and each store `storeFrom`, on an aligned address that is `Vacant`. -/
theorem vacantAccessesTrap : Obligations.VacantAccessesTrap := by
  rintro x h r rs1 offset _ rfl vacant
  have byte := Nat.mod_one (h.effAddr rs1 offset).toNat
  refine ⟨?_, ?_, ?_, fun half => ⟨?_, ?_, ?_⟩, fun word => ⟨?_, ?_, ?_⟩, ?_⟩
  · exact loadInto_vacant (by decide) vacant byte r _
  · exact loadInto_vacant (by decide) vacant byte r _
  · exact storeFrom_vacant (by decide) vacant byte r
  · exact loadInto_vacant (by decide) vacant half r _
  · exact loadInto_vacant (by decide) vacant half r _
  · exact storeFrom_vacant (by decide) vacant half r
  · exact loadInto_vacant (by decide) vacant word r _
  · exact storeFrom_vacant (by decide) vacant word r
  · rintro rfl
    exact loadInto_vacant (by decide) vacant word r _
  · rintro rfl double
    exact ⟨loadInto_vacant (by decide) vacant double r _, storeFrom_vacant (by decide) vacant double r⟩

/-! ### Fetch (R79, R84) -/

/-- A fetch that touches a byte outside `Main` raises the access fault (R79). -/
theorem fetch_outsideMain {b : Hart x} {a : Nat} (touched : a ∈ byteAddrs b.pc 4) (outside : b.regionAt a ≠ .main) :
    b.fetch = .raise (.instructionAccessFault b.pc) := by
  have touches : b.fetchOutsideMain = true := List.any_eq_true.2 ⟨a, touched, decide_eq_true outside⟩
  rw [Hart.fetch, if_pos touches]

/-- A step that neither stalls nor takes an interrupt takes the exception its fetch raises. -/
theorem step_of_fetch_raise {h : Hart x} (runs : h.beginStep.staysWaiting = false)
    (none_taken : h.beginStep.awake.chosenInterrupt = none) {e : Exn x} (fetch : h.beginStep.awake.fetch = .raise e) :
    step ⟨x, h⟩ = .next ⟨x, h.beginStep.awake.takeException e⟩ := by
  simp only [step, runs, stepAwake, none_taken, fetch]
  rfl

/-- Settles O8: the fetch raises the access fault, and the step takes it. -/
theorem fetchOutsideMainTraps : Obligations.FetchOutsideMainTraps := by
  rintro x h _ a rfl runs none_taken touched region
  have outside : h.beginStep.awake.regionAt a ≠ .main := by
    rcases region with vacant | io
    · rw [vacant]; decide
    · rw [io]; decide
  rw [step_of_fetch_raise runs none_taken (fetch_outsideMain touched outside)]
  exact raises_settle h.beginStep.awake _

/-- What a fetch sees of a byte the hart has stored to is the value its free choice picks. -/
theorem fetchByte_of_pick {h : Hart x} {k a i : Nat} {y : Option Byte} (stored : h.storedSince a = true)
    (pick : h.now.draws.fetchPick.getD k 0 % (h.heldSince a).length = i) (held : (h.heldSince a)[i]? = some y) :
    h.fetchByte k a = y := by
  simp only [Hart.fetchByte, stored, pick, held]
  rfl

theorem fetchByte_of_not_stored {h : Hart x} {a : Nat} (unstored : h.storedSince a = false) (k : Nat) :
    h.fetchByte k a = Memory.read h.mem a := by
  simp only [Hart.fetchByte, unstored]
  rfl

theorem fetchable_of_stored {h : Hart x} {a : Nat} (stored : h.storedSince a = true) :
    h.fetchable a = h.heldSince a := if_pos stored

theorem fetchable_of_not_stored {h : Hart x} {a : Nat} (unstored : h.storedSince a = false) :
    h.fetchable a = [Memory.read h.mem a] := by
  rw [Hart.fetchable, unstored]
  rfl

/-- The hart with these free choices for the bytes it fetches (R84). -/
def withPicks (h : Hart x) (picks : List Nat) : Hart x := { h with now.draws.fetchPick := picks }

theorem fetchByte_mem_fetchable {h : Hart x} {a : Nat} (nonempty : h.fetchable a ≠ []) (k : Nat) :
    h.fetchByte k a ∈ h.fetchable a := by
  cases stored : h.storedSince a with
  | true =>
    rw [fetchable_of_stored stored] at nonempty ⊢
    have lt := Nat.mod_lt (h.now.draws.fetchPick.getD k 0) (List.length_pos_iff.2 nonempty)
    rw [fetchByte_of_pick stored rfl (List.getElem?_eq_getElem lt)]
    exact List.getElem_mem lt
  | false =>
    rw [fetchable_of_not_stored stored, fetchByte_of_not_stored stored]
    exact List.mem_singleton_self _

/-- Each value a byte may show is what the fetch of byte `k` sees when the choice for that byte is the value's place. -/
theorem exists_pick_of_mem_fetchable {h : Hart x} {a : Nat} {y : Option Byte} (mem : y ∈ h.fetchable a) (k : Nat) :
    ∃ picks, (withPicks h picks).fetchByte k a = y := by
  cases stored : h.storedSince a with
  | true =>
    rw [fetchable_of_stored stored] at mem
    obtain ⟨i, lt, rfl⟩ := List.mem_iff_getElem.1 mem
    have pick : (List.replicate (k + 1) i).getD k 0 % (h.heldSince a).length = i := by
      rw [List.getD_replicate _ (Nat.lt_succ_self k), Nat.mod_eq_of_lt lt]
    exact ⟨List.replicate (k + 1) i, fetchByte_of_pick (h := withPicks h _) stored pick (List.getElem?_eq_getElem lt)⟩
  | false =>
    rw [fetchable_of_not_stored stored, List.mem_singleton] at mem
    exact ⟨[], mem ▸ fetchByte_of_not_stored (h := withPicks h []) stored k⟩

/-- In a machine that meets the invariant the value a byte has is among those it has held. -/
theorem read_mem_heldSince {h : Hart x} (hi : h.Inv) (a : Nat) : Memory.read h.mem a ∈ h.heldSince a := by
  unfold Hart.heldSince
  split
  · rename_i e listed
    obtain ⟨-, -, held⟩ := hi.historyMain _ (mem_of_lookupAt listed)
    exact held
  · exact List.mem_singleton_self _

theorem read_mem_fetchable {h : Hart x} (hi : h.Inv) (a : Nat) : Memory.read h.mem a ∈ h.fetchable a := by
  unfold Hart.fetchable
  split
  · exact read_mem_heldSince hi a
  · exact List.mem_singleton_self _

/-- Settles O9: a pick falls in the list of values held, and the place of each value is a pick. -/
theorem fetchedByteIsOneOfTheValuesHeld : Obligations.FetchedByteIsOneOfTheValuesHeld := by
  intro x h k a
  exact ⟨fun nonempty => ⟨fetchByte_mem_fetchable nonempty k, fun _ mem => exists_pick_of_mem_fetchable mem k⟩,
    fun hi => read_mem_fetchable hi a⟩

/-! ### Other agents' writes (R86, R405) -/

/-- The byte reads the same, a fetch may see the same values of it, and it has held the same values. -/
def SameByte (h t : Hart x) (a : Nat) : Prop :=
  Memory.read t.mem a = Memory.read h.mem a ∧ t.fetchable a = h.fetchable a ∧ t.heldSince a = h.heldSince a

theorem SameByte.trans {h t u : Hart x} {a : Nat} (first : SameByte h t a) (second : SameByte t u a) :
    SameByte h u a := by
  obtain ⟨read, fetchable, held⟩ := first
  obtain ⟨read', fetchable', held'⟩ := second
  exact ⟨read'.trans read, fetchable'.trans fetchable, held'.trans held⟩

theorem sameByte_writeByte (h : Hart x) {a c : Nat} (other : c ≠ a) (b : Byte) (stored : Bool) :
    SameByte h (h.writeByte c b stored) a := by
  have read : Memory.read (h.writeByte c b stored).mem a = Memory.read h.mem a := read_write_other _ other.symm b
  have held : (h.writeByte c b stored).heldSince a = h.heldSince a := by rw [heldSince_writeByte, if_neg other]
  refine ⟨read, ?_, held⟩
  rw [Hart.fetchable, storedSince_writeByte, if_neg other, held, read, Hart.fetchable]

/-- A write of another agent that lands is a write of a shared byte, so one elsewhere is as before. -/
theorem sameByte_agentByte {h : Hart x} {a : Nat} (unshared : h.sharedAt a = false) (c : Nat) (b : Byte) :
    SameByte h (h.agentByte c b) a := by
  unfold Hart.agentByte
  split
  · rename_i lands
    obtain ⟨shared, -⟩ := Bool.and_eq_true_iff.1 lands
    have other : c ≠ a := by
      rintro rfl
      cases shared.symm.trans unshared
    exact sameByte_writeByte h other b _
  · exact ⟨rfl, rfl, rfl⟩

theorem sameByte_agentCells {h : Hart x} {a : Nat} (unshared : h.sharedAt a = false) (cells : List Host.Cell) :
    SameByte h (h.agentCells cells) a := by
  induction cells generalizing h with
  | nil => exact ⟨rfl, rfl, rfl⟩
  | cons c rest ih => exact (sameByte_agentByte unshared c.1 c.2).trans (ih ((agentByte_sharedAt ..).trans unshared))

theorem sameSystem_agentWrites (h : Hart x) (cells : List Host.Cell) : h.SameSystem (h.agentWrites cells) := by
  constructor <;> simp

/-- A single write of another agent to a shared byte. -/
theorem agentWrites_shared {h : Hart x} {a : Nat} (shared : h.sharedAt a = true) (lt : a < 2 ^ x.bits) (v : Byte) :
    h.agentWrites [(a, v)] = h.writeByte a v (h.storedSince a) := by
  have lands : (h.sharedAt a && decide (a < 2 ^ x.bits)) = true := Bool.and_eq_true_iff.2 ⟨shared, decide_eq_true lt⟩
  rw [agentWrites_eq, Hart.agentCells, Hart.agentCells, Hart.agentByte, if_pos lands]

/-- Settles O21: a byte outside the shared ranges by induction on the writes, a shared one by what one write leaves. -/
theorem otherAgentsWriteOnlySharedMemory : Obligations.OtherAgentsWriteOnlySharedMemory := by
  intro x h cells
  refine ⟨fun a unshared => ?_, sameSystem_agentWrites h cells, fun j => by simp, by simp, by simp,
    ⟨by simp, by simp, by simp⟩, fun a v shared lt => ?_⟩
  · rw [agentWrites_eq]
    exact sameByte_agentCells unshared cells
  · rw [agentWrites_shared shared lt]
    refine ⟨read_write_same h.mem a v, fun y => ?_, ?_⟩
    · rw [heldSince_writeByte, if_pos rfl, mem_addHeld]
    · rw [storedSince_writeByte, if_pos rfl]

/-! ### Accesses to an `IO` region (R77) -/

/-- The end of an access to an `IO` region. -/
theorem accessesIo_writeResult (h : Hart x) (e : IoEvent) (rd : Reg) {v : XWord x} {value : XWord x → Prop}
    (holds : value v) : h.AccessesIo ((h.logIo e).writeResult rd v) e rd value where
  pc := by rw [writeResult_pc, logIo_pc, toNat_add_four]
  ioLog := by simp
  sets := by
    obtain ⟨same, zero, other⟩ := sets_writeX (h.logIo e) rd v
    simp only [Hart.Sets, readX_writeResult]
    exact ⟨fun hrd => (same hrd).symm ▸ holds, zero, fun j hj => (other j hj).trans (logIo_readX h e j)⟩
  bytes := fun a => by simp
  history := by simp
  system := by constructor <;> simp
  environment := by constructor <;> simp

/-- A value cut to `n` bits, as the 64-bit value of an access (R77). -/
theorem setWidth_64_eq {w : Nat} (v : BitVec w) (n : Nat) :
    (v.setWidth n).setWidth 64 = BitVec.ofNat 64 (v.toNat % 2 ^ n) := by
  apply BitVec.eq_of_toNat_eq
  rw [BitVec.toNat_setWidth, BitVec.toNat_setWidth, BitVec.toNat_ofNat]

theorem toNat_zextX_cut {n : Nat} (hn : n ≤ x.bits) (v : Nat) : (zextX x (BitVec.ofNat n v)).toNat = v % 2 ^ n := by
  rw [zextX, BitVec.toNat_setWidth_of_le hn, BitVec.toNat_ofNat]

section Io

variable {h : Hart x} {rs1 : Reg} {offset : BitVec 12} {n : Nat} (size : n ∈ [1, 2, 4, 8])
  (io : h.regionAt (h.effAddr rs1 offset).toNat = .io) (aligned : (h.effAddr rs1 offset).toNat % n = 0)

include size io aligned

/-- A load from an `IO` region: the device's answer, cut to the width, is logged, and extended into `rd`. -/
theorem loadInto_io {i : Instr} {rd : Reg} {extend : BitVec (8 * n) → XWord x} {value : XWord x → Prop}
    (run : exec i ⟨x, h⟩ = h.settle (h.loadInto rd rs1 offset n extend))
    (holds : value (extend (BitVec.ofNat (8 * n) h.now.draws.ioAnswer.toNat))) :
    h.Completes i fun t => h.AccessesIo t
      (.read (h.effAddr rs1 offset).toNat n (BitVec.ofNat 64 (h.now.draws.ioAnswer.toNat % 2 ^ (8 * n)))) rd value := by
  rw [Hart.loadInto, memRead_io h size aligned io, setWidth_64_eq, ← BitVec.ofNat_toNat] at run
  exact ⟨_, run, accessesIo_writeResult h _ rd holds⟩

/-- A store to an `IO` region: the low bytes of the register are logged. -/
theorem storeFrom_io {i : Instr} {rs2 : Reg} (run : exec i ⟨x, h⟩ = h.settle (h.storeFrom rs2 rs1 offset n)) :
    h.Completes i fun t => h.AccessesIo t
      (.write (h.effAddr rs1 offset).toNat n (BitVec.ofNat 64 ((h.readX rs2).toNat % 2 ^ (8 * n)))) 0 fun _ => True := by
  rw [Hart.storeFrom, memWrite_io h size aligned io, setWidth_64_eq] at run
  have ends := accessesIo_writeResult h
    (.write (h.effAddr rs1 offset).toNat n (BitVec.ofNat 64 ((h.readX rs2).toNat % 2 ^ (8 * n)))) 0 (v := 0)
    (value := fun _ => True) trivial
  rw [writeResult_zero] at ends
  exact ⟨_, run, ends⟩

end Io

/-- Settles O38: each load is `loadInto` and each store `storeFrom`, with its own width and extension. -/
theorem ioAccessesReachTheDevice : Obligations.IoAccessesReachTheDevice := by
  rintro x h r rs1 offset _ _ _ rfl io rfl rfl
  have byte := Nat.mod_one (h.effAddr rs1 offset).toNat
  have fits8 : 8 * 1 ≤ x.bits := by cases x <;> decide
  have fits16 : 8 * 2 ≤ x.bits := by cases x <;> decide
  have fits32 : 8 * 4 ≤ x.bits := by cases x <;> decide
  refine ⟨?_, ?_, ?_, fun half => ⟨?_, ?_, ?_⟩, fun word => ⟨?_, ?_, ?_⟩, ?_⟩
  · exact loadInto_io (by decide) io byte rfl (toInt_sextX_ofNat fits8)
  · exact loadInto_io (by decide) io byte rfl (toNat_zextX_cut fits8 _)
  · exact storeFrom_io (by decide) io byte rfl
  · exact loadInto_io (by decide) io half rfl (toInt_sextX_ofNat fits16)
  · exact loadInto_io (by decide) io half rfl (toNat_zextX_cut fits16 _)
  · exact storeFrom_io (by decide) io half rfl
  · exact loadInto_io (by decide) io word rfl (toInt_sextX_ofNat fits32)
  · exact storeFrom_io (by decide) io word rfl
  · rintro rfl
    exact loadInto_io (by decide) io word rfl (toNat_zextX_cut fits32 _)
  · rintro rfl double
    have whole (v : BitVec 64) : v.toNat % 2 ^ (8 * 8) = v.toNat := Nat.mod_eq_of_lt v.isLt
    have load := loadInto_io (i := .ld r rs1 offset) (value := fun w => w.toNat = h.now.draws.ioAnswer.toNat)
      (by decide) io double rfl ((toNat_zextX_cut (x := .rv64) (by decide) _).trans (whole _))
    have store := storeFrom_io (i := .sd r rs1 offset) (by decide) io double rfl
    rw [whole] at load store
    exact ⟨load, store⟩

/-! ### A read inside a location just written (R80, R85) -/

/-- The bytes of an access within eight bytes have different addresses. -/
theorem byteAddr_inj (a : XWord x) {i j : Nat} (e : byteAddr a i = byteAddr a j) (hi : i < 8) (hj : j < 8) : i = j := by
  have offsets : BitVec.ofNat x.bits i = BitVec.ofNat x.bits j :=
    (BitVec.add_right_inj a).1 (BitVec.eq_of_toNat_eq e)
  have nats := congrArg BitVec.toNat offsets
  rw [BitVec.toNat_ofNat, BitVec.toNat_ofNat] at nats
  rcases pow_bits (x := x) with p | p <;> rw [p] at nats <;> omega

/-- What a byte of an aligned location reads as once the location is written (R73). -/
theorem read_storeCells_cellsOfValue (h : Hart x) {a : XWord x} {n k : Nat} (size : n ∈ [1, 2, 4, 8])
    (aligned : a.toNat % n = 0) (v : BitVec (8 * n)) (hk : k < n) :
    Memory.read (h.storeCells (cellsOfValue a n v)).mem (a.toNat + k) = some (v.extractLsb' (8 * k) 8) := by
  have le : n ≤ 8 := by
    simp only [List.mem_cons, List.not_mem_nil, or_false] at size
    omega
  obtain ⟨written, -⟩ := storeCells_read h (byteAddr a) (fun i => v.extractLsb' (8 * i) 8)
    (fun i j e hi hj => byteAddr_inj a e hi hj) n 0 (by omega)
  obtain ⟨read, -⟩ := written k (Nat.zero_le k) (by omega)
  rwa [← List.range_eq_range', byteAddr_of_aligned size aligned hk] at read

theorem ofNat_div_eq_extractLsb' {w : Nat} (v : BitVec w) (k : Nat) :
    BitVec.ofNat 8 (v.toNat / 256 ^ k) = v.extractLsb' (8 * k) 8 := by
  rw [show (256 : Nat) = 2 ^ 8 from rfl, ← Nat.pow_mul, ← Nat.shiftRight_eq_div_pow]
  rfl

/-- Bits of a part of a word are bits of the word. -/
theorem extractLsb'_extractLsb'_inside {w s l s' l' : Nat} (v : BitVec w) (inside : s' + l' ≤ l) :
    (v.extractLsb' s l).extractLsb' s' l' = v.extractLsb' (s + s') l' := by
  apply BitVec.eq_of_getLsbD_eq
  intro i hi
  have within : s' + i < l := by omega
  simp [hi, within, Nat.add_assoc]

/-- The `m` bytes at distance `j` inside a location just written hold the `m` bytes of the value from byte `j` up. -/
theorem bytesAt_storeCells (h : Hart x) {a : XWord x} {n m j : Nat} (size : n ∈ [1, 2, 4, 8])
    (aligned : a.toNat % n = 0) (v : BitVec (8 * n)) (inside : j + m ≤ n) :
    (h.storeCells (cellsOfValue a n v)).BytesAt (a.toNat + j) m (v.extractLsb' (8 * j) (8 * m)).toNat := by
  constructor
  · rw [show (256 : Nat) = 2 ^ 8 from rfl, ← Nat.pow_mul]
    exact BitVec.isLt _
  · intro k hk
    rw [Nat.add_assoc, read_storeCells_cellsOfValue h size aligned v (by omega), ofNat_div_eq_extractLsb',
      extractLsb'_extractLsb'_inside v (by omega), Nat.mul_add]

/-- A width divides every wider one. -/
theorem size_dvd : ∀ n ∈ [1, 2, 4, 8], ∀ m ∈ [1, 2, 4, 8], m ≤ n → m ∣ n := by decide

/-- A location of `m` bytes at a multiple of `m` inside an aligned one of `n` bytes is aligned (R74). -/
theorem aligned_inside {a n m j : Nat} (size : n ∈ [1, 2, 4, 8]) (size' : m ∈ [1, 2, 4, 8]) (le : m ≤ n)
    (aligned : a % n = 0) (distance : j % m = 0) : (a + j) % m = 0 :=
  Nat.mod_eq_zero_of_dvd
    (Nat.dvd_add ((size_dvd n size m size' le).trans (Nat.dvd_of_mod_eq_zero aligned))
      (Nat.dvd_of_mod_eq_zero distance))

/-- Settles O42: the written location is aligned, so the narrower one is, and it holds the bytes written there. -/
theorem narrowReadSeesTheBytesOfAWiderWrite : Obligations.NarrowReadSeesTheBytesOfAWiderWrite := by
  intro x h t a n m j v size size' inside distance main write
  have aligned : a.toNat % n = 0 := by
    by_contra misaligned
    rw [memWrite_misaligned h misaligned] at write
    cases write
  rw [memWrite_main h size aligned main] at write
  cases write
  have hj : j < n := by have := size_pos size'; omega
  have address : (a + BitVec.ofNat x.bits j).toNat = a.toNat + j := byteAddr_of_aligned size aligned hj
  have region : (h.storeCells (cellsOfValue a n v)).regionAt (a + BitVec.ofNat x.bits j).toNat = .main := by
    rw [storeCells_regionAt, address, regionAt_of_block h (block_of_aligned size aligned hj), main]
  have aligned' : (a + BitVec.ofNat x.bits j).toNat % m = 0 := by
    rw [address]
    exact aligned_inside size size' (by omega) aligned distance
  have bytes := bytesAt_storeCells h size aligned v inside
  rw [← address] at bytes
  rw [memRead_bytes _ size' aligned' region bytes, BitVec.ofNat_toNat, BitVec.setWidth_eq]

end Sys2Proof.Proofs.MemoryAccess

namespace Sys2Proof.Proofs.Encoding

open Sys2Proof.Machine Sys2Proof.Laws Sys2Proof.Proofs.Execution Sys2Proof.Proofs.MemoryAccess

/-! ### The fields of the word of each format (30_encoding.md R101 to R110) -/

section Fields

variable (f7 op : BitVec 7) (f3 : BitVec 3) (rd rs1 rs2 : Reg)

@[simp] theorem fields_encR :
    opcodeField (encR f7 rs2 rs1 f3 rd op) = op ∧ rdField (encR f7 rs2 rs1 f3 rd op) = rd ∧
      funct3Field (encR f7 rs2 rs1 f3 rd op) = f3 ∧ rs1Field (encR f7 rs2 rs1 f3 rd op) = rs1 ∧
      rs2Field (encR f7 rs2 rs1 f3 rd op) = rs2 ∧ funct7Field (encR f7 rs2 rs1 f3 rd op) = f7 := by
  unfold encR opcodeField rdField funct3Field rs1Field rs2Field funct7Field
  simp (disch := omega) only [extract_or, extract_place_same, extract_place_disjoint, BitVec.or_zero, BitVec.zero_or,
    and_self]

@[simp] theorem fields_encI (imm : BitVec 12) :
    opcodeField (encI imm rs1 f3 rd op) = op ∧ rdField (encI imm rs1 f3 rd op) = rd ∧
      funct3Field (encI imm rs1 f3 rd op) = f3 ∧ rs1Field (encI imm rs1 f3 rd op) = rs1 ∧
      immI (encI imm rs1 f3 rd op) = imm := by
  unfold encI opcodeField rdField funct3Field rs1Field immI
  simp (disch := omega) only [extract_or, extract_place_same, extract_place_disjoint, BitVec.or_zero, BitVec.zero_or,
    and_self]

@[simp] theorem fields_encShift (f6 shamt : BitVec 6) :
    opcodeField (encShift f6 shamt rs1 f3 rd op) = op ∧ rdField (encShift f6 shamt rs1 f3 rd op) = rd ∧
      funct3Field (encShift f6 shamt rs1 f3 rd op) = f3 ∧ rs1Field (encShift f6 shamt rs1 f3 rd op) = rs1 ∧
      shamtField (encShift f6 shamt rs1 f3 rd op) = shamt ∧ funct6Field (encShift f6 shamt rs1 f3 rd op) = f6 := by
  unfold encShift opcodeField rdField funct3Field rs1Field shamtField funct6Field
  simp (disch := omega) only [extract_or, extract_place_same, extract_place_disjoint, BitVec.or_zero, BitVec.zero_or,
    and_self]

@[simp] theorem fields_encS (imm : BitVec 12) :
    opcodeField (encS imm rs2 rs1 f3 op) = op ∧ funct3Field (encS imm rs2 rs1 f3 op) = f3 ∧
      rs1Field (encS imm rs2 rs1 f3 op) = rs1 ∧ rs2Field (encS imm rs2 rs1 f3 op) = rs2 ∧
      immS (encS imm rs2 rs1 f3 op) = imm := by
  unfold encS opcodeField funct3Field rs1Field rs2Field immS
  simp (disch := omega) only [extract_or, extract_place_same, extract_place_disjoint, BitVec.or_zero, BitVec.zero_or,
    immS_of_parts, and_self]

@[simp] theorem fields_encB (offset : BitVec 13) :
    opcodeField (encB offset rs2 rs1 f3 op) = op ∧ funct3Field (encB offset rs2 rs1 f3 op) = f3 ∧
      rs1Field (encB offset rs2 rs1 f3 op) = rs1 ∧ rs2Field (encB offset rs2 rs1 f3 op) = rs2 := by
  unfold encB opcodeField funct3Field rs1Field rs2Field
  simp (disch := omega) only [extract_or, extract_place_same, extract_place_disjoint, BitVec.or_zero, BitVec.zero_or,
    and_self]

@[simp] theorem fields_encU (imm : BitVec 20) :
    opcodeField (encU imm rd op) = op ∧ rdField (encU imm rd op) = rd ∧ immU (encU imm rd op) = imm := by
  unfold encU opcodeField rdField immU
  simp (disch := omega) only [extract_or, extract_place_same, extract_place_disjoint, BitVec.or_zero, BitVec.zero_or,
    and_self]

@[simp] theorem fields_encJ (offset : BitVec 21) :
    opcodeField (encJ offset rd op) = op ∧ rdField (encJ offset rd op) = rd := by
  unfold encJ opcodeField rdField
  simp (disch := omega) only [extract_or, extract_place_same, extract_place_disjoint, BitVec.or_zero, BitVec.zero_or,
    and_self]

@[simp] theorem fields_encFence (fm pred succ : BitVec 4) :
    opcodeField (encFence fm pred succ rs1 f3 rd op) = op ∧ rdField (encFence fm pred succ rs1 f3 rd op) = rd ∧
      funct3Field (encFence fm pred succ rs1 f3 rd op) = f3 ∧ rs1Field (encFence fm pred succ rs1 f3 rd op) = rs1 ∧
      (encFence fm pred succ rs1 f3 rd op).extractLsb' 28 4 = fm ∧
      (encFence fm pred succ rs1 f3 rd op).extractLsb' 24 4 = pred ∧
      (encFence fm pred succ rs1 f3 rd op).extractLsb' 20 4 = succ := by
  unfold encFence opcodeField rdField funct3Field rs1Field
  simp (disch := omega) only [extract_or, extract_place_same, extract_place_disjoint, BitVec.or_zero, BitVec.zero_or,
    and_self]

theorem evenOffset_iff {n : Nat} (offset : BitVec n) : evenOffset offset = true ↔ offset.getLsbD 0 = false := by
  simp [evenOffset]

/-- The B-format keeps every bit of an even offset. -/
theorem immB_encB {offset : BitVec 13} (even : evenOffset offset = true) : immB (encB offset rs2 rs1 f3 op) = offset := by
  unfold encB immB
  simp (disch := omega) only [extract_or, extract_place_same, extract_place_disjoint, BitVec.or_zero, BitVec.zero_or]
  exact immB_of_parts offset ((evenOffset_iff offset).1 even)

/-- The J-format keeps every bit of an even offset. -/
theorem immJ_encJ {offset : BitVec 21} (even : evenOffset offset = true) : immJ (encJ offset rd op) = offset := by
  unfold encJ immJ
  simp (disch := omega) only [extract_or, extract_place_same, extract_place_disjoint, BitVec.or_zero, BitVec.zero_or]
  exact immJ_of_parts offset ((evenOffset_iff offset).1 even)

end Fields

variable {x : Xlen} {w : InstWord}

/-! ### Decoding the word of an instruction -/

theorem onlyRv64_present {i : Instr} (present : isRv64 x = true) : onlyRv64 x i = .ok i := if_pos present

theorem checkedShift_fits {shamt : BitVec 6} {i : Instr} (fits : shamtFits x shamt = true) :
    checkedShift x shamt i = .ok i := if_pos fits

/-- Settles O1: the decoder follows the fields that the encoder placed. -/
theorem decodeInvertsEncode : Obligations.DecodeInvertsEncode := by
  intro x i wf
  cases i with
  | lui | auipc => simp [encode, decode]
  | addi | slti | sltiu | xori | ori | andi => simp [encode, decode, decodeOpImm]
  | slli | srli | srai => simp [encode, decode, decodeOpImm, checkedShift_fits wf]
  | add | sub | sll | slt | sltu | xor | srl | sra | or | and => simp [encode, decode, decodeOp]
  | fence | fenceI => simp [encode, decode, decodeMiscMem]
  | csrrw | csrrs | csrrc | csrrwi | csrrsi | csrrci => simp [encode, decode, decodeSystem]
  | ecall | ebreak | uret | sret | mret | wfi => rfl
  | sfenceVma => simp [encode, decode, decodeSystem, decodePrivileged]
  | lb | lh | lw | lbu | lhu => simp [encode, decode, decodeLoad]
  | sb | sh | sw => simp [encode, decode, decodeStore]
  | jal => simp [encode, decode, immJ_encJ _ _ wf]
  | jalr => simp [encode, decode, decodeJalr]
  | beq | bne | blt | bge | bltu | bgeu => simp [encode, decode, decodeBranch, immB_encB _ _ _ _ wf]
  | lwu | ld => simp [encode, decode, decodeLoad, onlyRv64_present wf]
  | sd => simp [encode, decode, decodeStore, onlyRv64_present wf]
  | addiw | slliw | srliw | sraiw => simp [encode, decode, decodeOpImm32, onlyRv64_present wf]
  | addw | subw | sllw | srlw | sraw => simp [encode, decode, decodeOp32, onlyRv64_present wf]

/-! ### What the decoder reads, the encoder writes (R102, R112) -/

/-- An answer of the decoder to `w` that, where it is an instruction, is a well-formed one whose word is `w`. -/
def ReadsWord (x : Xlen) (w : InstWord) (answer : Except DecodeError Instr) : Prop :=
  ∀ i, answer = .ok i → WellFormed x i = true ∧ encode i = w

theorem ReadsWord.ok {i : Instr} (wf : WellFormed x i = true) (word : encode i = w) : ReadsWord x w (.ok i) := by
  rintro j ⟨⟩; exact ⟨wf, word⟩

theorem ReadsWord.error (e : DecodeError) : ReadsWord x w (.error e) := nofun

theorem ReadsWord.onlyRv64 {i : Instr} (wf : WellFormed x i = isRv64 x) (word : encode i = w) :
    ReadsWord x w (onlyRv64 x i) := by
  unfold Sys2Proof.onlyRv64
  split
  · rename_i present; exact .ok (wf.trans present) word
  · exact .error _

theorem ReadsWord.checkedShift {i : Instr} {shamt : BitVec 6} (wf : WellFormed x i = shamtFits x shamt)
    (word : encode i = w) : ReadsWord x w (checkedShift x shamt i) := by
  unfold Sys2Proof.checkedShift
  split
  · rename_i fits; exact .ok (wf.trans fits) word
  · exact .error _

section Words

variable {op f7 : BitVec 7} {f3 : BitVec 3} (hop : opcodeField w = op) (hf3 : funct3Field w = f3)
include hop

theorem encU_of_fields : encU (immU w) (rdField w) op = w := hop ▸ encU_fields w

theorem encJ_of_fields : encJ (immJ w) (rdField w) op = w := hop ▸ encJ_fields w

include hf3

theorem encI_of_fields : encI (immI w) (rs1Field w) f3 (rdField w) op = w := by
  subst hop hf3; exact encI_fields w

theorem encS_of_fields : encS (immS w) (rs2Field w) (rs1Field w) f3 op = w := by
  subst hop hf3; exact encS_fields w

theorem encB_of_fields : encB (immB w) (rs2Field w) (rs1Field w) f3 op = w := by
  subst hop hf3; exact encB_fields w

theorem encFence_of_fields :
    encFence (w.extractLsb' 28 4) (w.extractLsb' 24 4) (w.extractLsb' 20 4) (rs1Field w) f3 (rdField w) op = w := by
  subst hop hf3; exact encFence_fields w

theorem encR_of_fields (hf7 : funct7Field w = f7) : encR f7 (rs2Field w) (rs1Field w) f3 (rdField w) op = w := by
  subst hop hf3 hf7; exact encR_fields w

theorem encShift_of_fields {f6 : BitVec 6} (hf6 : funct6Field w = f6) :
    encShift f6 (shamtField w) (rs1Field w) f3 (rdField w) op = w := by
  subst hop hf3 hf6; exact encShift_fields w

end Words

theorem evenOffset_of_low {n : Nat} {offset : BitVec n} (low : offset.extractLsb' 0 1 = 0#1) :
    evenOffset offset = true := by
  rw [evenOffset_iff]
  simpa using congrArg (BitVec.getLsbD · 0) low

theorem evenOffset_immB (w : InstWord) : evenOffset (immB w) = true := by
  obtain ⟨-, -, -, -, low⟩ := immB_parts w
  exact evenOffset_of_low low

theorem evenOffset_immJ (w : InstWord) : evenOffset (immJ w) = true := by
  obtain ⟨-, -, -, -, low⟩ := immJ_parts w
  exact evenOffset_of_low low

/-! ### The decoder, opcode by opcode (R111) -/

theorem decodeLoad_reads (hop : opcodeField w = 0x03#7) : ReadsWord x w (decodeLoad x w) := by
  unfold decodeLoad
  split <;> rename_i hf3
  iterate 3 exact .ok rfl (encI_of_fields hop hf3)
  · exact .onlyRv64 rfl (encI_of_fields hop hf3)
  iterate 2 exact .ok rfl (encI_of_fields hop hf3)
  · exact .onlyRv64 rfl (encI_of_fields hop hf3)
  · exact .error _

theorem decodeMiscMem_reads (hop : opcodeField w = 0x0F#7) : ReadsWord x w (decodeMiscMem w) := by
  unfold decodeMiscMem
  split <;> rename_i hf3
  · exact .ok rfl (encFence_of_fields hop hf3)
  · exact .ok rfl (encI_of_fields hop hf3)
  · exact .error _

theorem decodeOpImm_reads (hop : opcodeField w = 0x13#7) : ReadsWord x w (decodeOpImm x w) := by
  unfold decodeOpImm
  split <;> rename_i hf3
  · exact .ok rfl (encI_of_fields hop hf3)
  · split <;> rename_i hf6
    · exact .checkedShift rfl (encShift_of_fields hop hf3 hf6)
    · exact .error _
  iterate 3 exact .ok rfl (encI_of_fields hop hf3)
  · split <;> rename_i hf6
    iterate 2 exact .checkedShift rfl (encShift_of_fields hop hf3 hf6)
    · exact .error _
  · exact .ok rfl (encI_of_fields hop hf3)
  · have hf3' : funct3Field w = 7#3 := by
      generalize funct3Field w = f3 at *
      revert f3; decide
    exact .ok rfl (encI_of_fields hop hf3')

theorem decodeOpImm32_reads (hop : opcodeField w = 0x1B#7) : ReadsWord x w (decodeOpImm32 x w) := by
  unfold decodeOpImm32
  split <;> rename_i hf3
  · exact .onlyRv64 rfl (encI_of_fields hop hf3)
  · split <;> rename_i hf7
    · exact .onlyRv64 rfl (encR_of_fields hop hf3 hf7)
    · exact .error _
  · split <;> rename_i hf7
    iterate 2 exact .onlyRv64 rfl (encR_of_fields hop hf3 hf7)
    · exact .error _
  · exact .error _

theorem decodeStore_reads (hop : opcodeField w = 0x23#7) : ReadsWord x w (decodeStore x w) := by
  unfold decodeStore
  split <;> rename_i hf3
  iterate 3 exact .ok rfl (encS_of_fields hop hf3)
  · exact .onlyRv64 rfl (encS_of_fields hop hf3)
  · exact .error _

theorem decodeOp_reads (hop : opcodeField w = 0x33#7) : ReadsWord x w (decodeOp w) := by
  unfold decodeOp
  split <;> rename_i hf7 hf3
  iterate 10 exact .ok rfl (encR_of_fields hop hf3 hf7)
  · exact .error _

theorem decodeOp32_reads (hop : opcodeField w = 0x3B#7) : ReadsWord x w (decodeOp32 x w) := by
  unfold decodeOp32
  split <;> rename_i hf7 hf3
  iterate 5 exact .onlyRv64 rfl (encR_of_fields hop hf3 hf7)
  · exact .error _

theorem decodeBranch_reads (hop : opcodeField w = 0x63#7) : ReadsWord x w (decodeBranch w) := by
  unfold decodeBranch
  split <;> rename_i hf3
  iterate 6 exact .ok (evenOffset_immB w) (encB_of_fields hop hf3)
  · exact .error _

theorem decodePrivileged_reads (hop : opcodeField w = 0x73#7) (hf3 : funct3Field w = 0#3) :
    ReadsWord x w (decodePrivileged w) := by
  unfold decodePrivileged
  split
  · exact .error _
  rename_i hrd
  rw [not_not] at hrd
  split
  · rename_i hf7
    have word := encR_of_fields hop hf3 hf7
    rw [hrd] at word
    exact .ok rfl word
  split
  · exact .error _
  rename_i hrs1
  rw [not_not] at hrs1
  have word {imm : BitVec 12} (himm : immI w = imm) : encI imm 0 0#3 0 0x73#7 = w := by
    have word := encI_of_fields hop hf3
    rwa [himm, hrd, hrs1] at word
  split <;> rename_i himm
  iterate 6 exact .ok rfl (word himm)
  · exact .error _

theorem decodeSystem_reads (hop : opcodeField w = 0x73#7) : ReadsWord x w (decodeSystem w) := by
  unfold decodeSystem
  split <;> rename_i hf3
  · exact decodePrivileged_reads hop hf3
  iterate 6 exact .ok rfl (encI_of_fields hop hf3)
  · exact .error _

theorem decodeJalr_reads (hop : opcodeField w = 0x67#7) : ReadsWord x w (decodeJalr w) := by
  unfold decodeJalr
  split <;> rename_i hf3
  · exact .ok rfl (encI_of_fields hop hf3)
  · exact .error _

/-- Settles O2, opcode by opcode: the fields a decoder tests are those its answer's encoding has fixed, and the others
are its operands. -/
theorem encodeInvertsDecode : Obligations.EncodeInvertsDecode := by
  intro x w i decoded
  suffices ReadsWord x w (decode x w) from this i decoded
  unfold decode
  split <;> rename_i hop
  · exact decodeLoad_reads hop
  · exact decodeMiscMem_reads hop
  · exact decodeOpImm_reads hop
  · exact .ok rfl (encU_of_fields hop)
  · exact decodeOpImm32_reads hop
  · exact decodeStore_reads hop
  · exact decodeOp_reads hop
  · exact .ok rfl (encU_of_fields hop)
  · exact decodeOp32_reads hop
  · exact decodeBranch_reads hop
  · exact decodeJalr_reads hop
  · exact .ok (evenOffset_immJ w) (encJ_of_fields hop)
  · exact decodeSystem_reads hop
  · split
    iterate 2 exact .error _

/-! ### The words of a row of the opcode table (R112) -/

/-- The word of every instruction matches its row, and the row is in the table of a width that has the instruction. -/
theorem encodingRow (i : Instr) : EncodingRow.Statement i := by
  cases i with
  | lui => exact EncodingRow.lui _ _
  | auipc => exact EncodingRow.auipc _ _
  | addi => exact EncodingRow.addi _ _ _
  | slti => exact EncodingRow.slti _ _ _
  | sltiu => exact EncodingRow.sltiu _ _ _
  | xori => exact EncodingRow.xori _ _ _
  | ori => exact EncodingRow.ori _ _ _
  | andi => exact EncodingRow.andi _ _ _
  | slli => exact EncodingRow.slli _ _ _
  | srli => exact EncodingRow.srli _ _ _
  | srai => exact EncodingRow.srai _ _ _
  | add => exact EncodingRow.add _ _ _
  | sub => exact EncodingRow.sub _ _ _
  | sll => exact EncodingRow.sll _ _ _
  | slt => exact EncodingRow.slt _ _ _
  | sltu => exact EncodingRow.sltu _ _ _
  | xor => exact EncodingRow.xor _ _ _
  | srl => exact EncodingRow.srl _ _ _
  | sra => exact EncodingRow.sra _ _ _
  | or => exact EncodingRow.or _ _ _
  | and => exact EncodingRow.and _ _ _
  | fence => exact EncodingRow.fence _ _ _ _ _
  | fenceI => exact EncodingRow.fenceI _ _ _
  | csrrw => exact EncodingRow.csrrw _ _ _
  | csrrs => exact EncodingRow.csrrs _ _ _
  | csrrc => exact EncodingRow.csrrc _ _ _
  | csrrwi => exact EncodingRow.csrrwi _ _ _
  | csrrsi => exact EncodingRow.csrrsi _ _ _
  | csrrci => exact EncodingRow.csrrci _ _ _
  | ecall => exact EncodingRow.ecall
  | ebreak => exact EncodingRow.ebreak
  | uret => exact EncodingRow.uret
  | sret => exact EncodingRow.sret
  | mret => exact EncodingRow.mret
  | wfi => exact EncodingRow.wfi
  | sfenceVma => exact EncodingRow.sfenceVma _ _
  | lb => exact EncodingRow.lb _ _ _
  | lh => exact EncodingRow.lh _ _ _
  | lw => exact EncodingRow.lw _ _ _
  | lbu => exact EncodingRow.lbu _ _ _
  | lhu => exact EncodingRow.lhu _ _ _
  | sb => exact EncodingRow.sb _ _ _
  | sh => exact EncodingRow.sh _ _ _
  | sw => exact EncodingRow.sw _ _ _
  | jal => exact EncodingRow.jal _ _
  | jalr => exact EncodingRow.jalr _ _ _
  | beq => exact EncodingRow.beq _ _ _
  | bne => exact EncodingRow.bne _ _ _
  | blt => exact EncodingRow.blt _ _ _
  | bge => exact EncodingRow.bge _ _ _
  | bltu => exact EncodingRow.bltu _ _ _
  | bgeu => exact EncodingRow.bgeu _ _ _
  | lwu => exact EncodingRow.lwu _ _ _
  | ld => exact EncodingRow.ld _ _ _
  | sd => exact EncodingRow.sd _ _ _
  | addiw => exact EncodingRow.addiw _ _ _
  | slliw => exact EncodingRow.slliw _ _ _
  | srliw => exact EncodingRow.srliw _ _ _
  | sraiw => exact EncodingRow.sraiw _ _ _
  | addw => exact EncodingRow.addw _ _ _
  | subw => exact EncodingRow.subw _ _ _
  | sllw => exact EncodingRow.sllw _ _ _
  | srlw => exact EncodingRow.srlw _ _ _
  | sraw => exact EncodingRow.sraw _ _ _

/-- Where the mask of a row has all the bits of a field, a word of the row has the field of the row's pattern. -/
theorem field_of_match {m p : InstWord} {lo n : Nat} (hm : w &&& m = p)
    (fixed : m.extractLsb' lo n = BitVec.allOnes n) : w.extractLsb' lo n = p.extractLsb' lo n := by
  rw [← hm, BitVec.extractLsb'_and, fixed, BitVec.and_allOnes]

/-- A word that matches the row of `i` is the word of `i`, which the width has. -/
def ReadByRow (x : Xlen) (w : InstWord) (i : Instr) : Prop :=
  (rowOf x i).Matches w → WellFormed x i = true ∧ encode i = w

/-- Matching the row of `i`, with its mask and pattern written out. -/
theorem masked_of_matches {i : Instr} {mask p : InstWord} (row : rowOf x i = ⟨mask, p⟩)
    (m : (rowOf x i).Matches w) : w &&& mask = p := by
  rwa [row] at m

section Formats

variable {i : Instr} {p : InstWord} (wf : WellFormed x i = true)
include wf

theorem readByRow_encU (row : rowOf x i = ⟨0x0000007F, p⟩)
    (form : encode i = encU (immU w) (rdField w) (opcodeField p)) : ReadByRow x w i := by
  intro m
  have m := masked_of_matches row m
  exact ⟨wf, form.trans (encU_of_fields (field_of_match m rfl))⟩

theorem readByRow_encJ (row : rowOf x i = ⟨0x0000007F, p⟩)
    (form : encode i = encJ (immJ w) (rdField w) (opcodeField p)) : ReadByRow x w i := by
  intro m
  have m := masked_of_matches row m
  exact ⟨wf, form.trans (encJ_of_fields (field_of_match m rfl))⟩

theorem readByRow_encI (row : rowOf x i = ⟨0x0000707F, p⟩)
    (form : encode i = encI (immI w) (rs1Field w) (funct3Field p) (rdField w) (opcodeField p)) : ReadByRow x w i := by
  intro m
  have m := masked_of_matches row m
  exact ⟨wf, form.trans (encI_of_fields (field_of_match m rfl) (field_of_match m rfl))⟩

theorem readByRow_encS (row : rowOf x i = ⟨0x0000707F, p⟩)
    (form : encode i = encS (immS w) (rs2Field w) (rs1Field w) (funct3Field p) (opcodeField p)) :
    ReadByRow x w i := by
  intro m
  have m := masked_of_matches row m
  exact ⟨wf, form.trans (encS_of_fields (field_of_match m rfl) (field_of_match m rfl))⟩

theorem readByRow_encB (row : rowOf x i = ⟨0x0000707F, p⟩)
    (form : encode i = encB (immB w) (rs2Field w) (rs1Field w) (funct3Field p) (opcodeField p)) :
    ReadByRow x w i := by
  intro m
  have m := masked_of_matches row m
  exact ⟨wf, form.trans (encB_of_fields (field_of_match m rfl) (field_of_match m rfl))⟩

theorem readByRow_encR (row : rowOf x i = ⟨0xFE00707F, p⟩)
    (form : encode i =
      encR (funct7Field p) (rs2Field w) (rs1Field w) (funct3Field p) (rdField w) (opcodeField p)) :
    ReadByRow x w i := by
  intro m
  have m := masked_of_matches row m
  exact ⟨wf, form.trans (encR_of_fields (field_of_match m rfl) (field_of_match m rfl) (field_of_match m rfl))⟩

/-- The rows of one word each. -/
theorem readByRow_fixed (row : rowOf x i = ⟨0xFFFFFFFF, encode i⟩) : ReadByRow x w i := by
  intro m
  have m := masked_of_matches row m
  have all : (0xFFFFFFFF : InstWord) = BitVec.allOnes 32 := rfl
  rw [all, BitVec.and_allOnes] at m
  exact ⟨wf, m.symm⟩

end Formats

theorem readByRow_fence (x : Xlen) (w : InstWord) :
    ReadByRow x w (.fence (w.extractLsb' 28 4) (w.extractLsb' 24 4) (w.extractLsb' 20 4) (rs1Field w) (rdField w)) := by
  intro m
  have m : w &&& 0x0000707F#32 = 0x0000000F#32 := m
  have hop : opcodeField w = 0x0F#7 := field_of_match m rfl
  have hf3 : funct3Field w = 0#3 := field_of_match m rfl
  exact ⟨rfl, encFence_of_fields hop hf3⟩

theorem readByRow_sfenceVma (x : Xlen) (w : InstWord) : ReadByRow x w (.sfenceVma (rs1Field w) (rs2Field w)) := by
  intro m
  have m : w &&& 0xFE007FFF#32 = 0x12000073#32 := m
  have hop : opcodeField w = 0x73#7 := field_of_match m rfl
  have hrd : rdField w = 0#5 := field_of_match m rfl
  have hf3 : funct3Field w = 0#3 := field_of_match m rfl
  have hf7 : funct7Field w = 9#7 := field_of_match m rfl
  have word := encR_of_fields hop hf3 hf7
  rw [hrd] at word
  exact ⟨rfl, word⟩

/-- A six-bit shift amount with bit 5 clear is below 32. -/
theorem shamtFits_of_bit (v : BitVec 6) (clear : v.extractLsb' 5 1 = 0#1) : shamtFits .rv32 v = true := by
  revert v; decide

theorem shamtFits_rv64 (v : BitVec 6) : shamtFits .rv64 v = true := by
  revert v; decide

/-- The mask of a shift-immediate fixes `inst[25]` when `XLEN = 32` (R109). -/
theorem readByRow_encShift {i : Instr} {p : InstWord} (wf : WellFormed x i = shamtFits x (shamtField w))
    (row : rowOf x i = ⟨shiftMask x, p⟩) (clear : p.extractLsb' 25 1 = 0#1)
    (form : encode i =
      encShift (funct6Field p) (shamtField w) (rs1Field w) (funct3Field p) (rdField w) (opcodeField p)) :
    ReadByRow x w i := by
  intro m
  have m := masked_of_matches row m
  rw [wf, form]
  cases x with
  | rv32 =>
    have m : w &&& 0xFE00707F#32 = p := m
    have bit : w.extractLsb' 25 1 = 0#1 := (field_of_match m rfl).trans clear
    have part : (shamtField w).extractLsb' 5 1 = w.extractLsb' 25 1 :=
      extractLsb'_extractLsb'_inside w (by decide)
    exact ⟨shamtFits_of_bit _ (part.trans bit),
      encShift_of_fields (field_of_match m rfl) (field_of_match m rfl) (field_of_match m rfl)⟩
  | rv64 =>
    have m : w &&& 0xFC00707F#32 = p := m
    exact ⟨shamtFits_rv64 _,
      encShift_of_fields (field_of_match m rfl) (field_of_match m rfl) (field_of_match m rfl)⟩

/-! ### The instruction of each row, its operands read from a word: a list for each format -/

def formsU (w : InstWord) : List Instr := [.lui (rdField w) (immU w), .auipc (rdField w) (immU w)]

def formsI (w : InstWord) : List Instr :=
  let rd := rdField w
  let rs1 := rs1Field w
  let imm := immI w
  [.addi rd rs1 imm, .slti rd rs1 imm, .sltiu rd rs1 imm, .xori rd rs1 imm, .ori rd rs1 imm, .andi rd rs1 imm,
    .fenceI imm rs1 rd, .csrrw rd imm rs1, .csrrs rd imm rs1, .csrrc rd imm rs1, .csrrwi rd imm rs1,
    .csrrsi rd imm rs1, .csrrci rd imm rs1, .lb rd rs1 imm, .lh rd rs1 imm, .lw rd rs1 imm, .lbu rd rs1 imm,
    .lhu rd rs1 imm, .jalr rd rs1 imm]

def formsShift (w : InstWord) : List Instr :=
  let rd := rdField w
  let rs1 := rs1Field w
  let shamt := shamtField w
  [.slli rd rs1 shamt, .srli rd rs1 shamt, .srai rd rs1 shamt]

def formsR (w : InstWord) : List Instr :=
  let rd := rdField w
  let rs1 := rs1Field w
  let rs2 := rs2Field w
  [.add rd rs1 rs2, .sub rd rs1 rs2, .sll rd rs1 rs2, .slt rd rs1 rs2, .sltu rd rs1 rs2, .xor rd rs1 rs2,
    .srl rd rs1 rs2, .sra rd rs1 rs2, .or rd rs1 rs2, .and rd rs1 rs2]

def formsS (w : InstWord) : List Instr :=
  let rs1 := rs1Field w
  let rs2 := rs2Field w
  [.sb rs2 rs1 (immS w), .sh rs2 rs1 (immS w), .sw rs2 rs1 (immS w)]

def formsB (w : InstWord) : List Instr :=
  let rs1 := rs1Field w
  let rs2 := rs2Field w
  let offset := immB w
  [.beq rs1 rs2 offset, .bne rs1 rs2 offset, .blt rs1 rs2 offset, .bge rs1 rs2 offset, .bltu rs1 rs2 offset,
    .bgeu rs1 rs2 offset]

def formsFixed : List Instr := [.ecall, .ebreak, .uret, .sret, .mret, .wfi]

/-- FENCE, SFENCE.VMA and JAL are alone in their formats. -/
def formsAlone (w : InstWord) : List Instr :=
  [.fence (w.extractLsb' 28 4) (w.extractLsb' 24 4) (w.extractLsb' 20 4) (rs1Field w) (rdField w),
    .sfenceVma (rs1Field w) (rs2Field w), .jal (rdField w) (immJ w)]

/-- The instructions of 47_rv64i_only.md. -/
def formsRv64 (w : InstWord) : List Instr :=
  let rd := rdField w
  let rs1 := rs1Field w
  let rs2 := rs2Field w
  let imm := immI w
  [.lwu rd rs1 imm, .ld rd rs1 imm, .addiw rd rs1 imm, .sd rs2 rs1 (immS w),
    .slliw rd rs1 rs2, .srliw rd rs1 rs2, .sraiw rd rs1 rs2, .addw rd rs1 rs2, .subw rd rs1 rs2, .sllw rd rs1 rs2,
    .srlw rd rs1 rs2, .sraw rd rs1 rs2]

def formsCommon (w : InstWord) : List Instr :=
  formsU w ++ formsI w ++ formsShift w ++ formsR w ++ formsS w ++ formsB w ++ formsFixed ++ formsAlone w

/-- The instruction of every row of the table for the width. -/
def forms (w : InstWord) : Xlen → List Instr
  | .rv32 => formsCommon w
  | .rv64 => formsCommon w ++ formsRv64 w

section Reads

variable (x : Xlen) (w : InstWord)

theorem formsU_read : ∀ i ∈ formsU w, ReadByRow x w i := by
  simp only [formsU, List.forall_mem_cons, List.not_mem_nil, false_implies, implies_true, and_true]
  and_intros <;> exact readByRow_encU rfl rfl rfl

theorem formsI_read : ∀ i ∈ formsI w, ReadByRow x w i := by
  simp only [formsI, List.forall_mem_cons, List.not_mem_nil, false_implies, implies_true, and_true]
  and_intros <;> exact readByRow_encI rfl rfl rfl

theorem formsShift_read : ∀ i ∈ formsShift w, ReadByRow x w i := by
  simp only [formsShift, List.forall_mem_cons, List.not_mem_nil, false_implies, implies_true, and_true]
  and_intros <;> exact readByRow_encShift rfl rfl rfl rfl

theorem formsR_read : ∀ i ∈ formsR w, ReadByRow x w i := by
  simp only [formsR, List.forall_mem_cons, List.not_mem_nil, false_implies, implies_true, and_true]
  and_intros <;> exact readByRow_encR rfl rfl rfl

theorem formsS_read : ∀ i ∈ formsS w, ReadByRow x w i := by
  simp only [formsS, List.forall_mem_cons, List.not_mem_nil, false_implies, implies_true, and_true]
  and_intros <;> exact readByRow_encS rfl rfl rfl

theorem formsB_read : ∀ i ∈ formsB w, ReadByRow x w i := by
  simp only [formsB, List.forall_mem_cons, List.not_mem_nil, false_implies, implies_true, and_true]
  and_intros <;> exact readByRow_encB (evenOffset_immB w) rfl rfl

theorem formsFixed_read : ∀ i ∈ formsFixed, ReadByRow x w i := by
  simp only [formsFixed, List.forall_mem_cons, List.not_mem_nil, false_implies, implies_true, and_true]
  and_intros <;> exact readByRow_fixed rfl rfl

theorem formsAlone_read : ∀ i ∈ formsAlone w, ReadByRow x w i := by
  simp only [formsAlone, List.forall_mem_cons, List.not_mem_nil, false_implies, implies_true, and_true]
  exact ⟨readByRow_fence x w, readByRow_sfenceVma x w, readByRow_encJ (evenOffset_immJ w) rfl rfl⟩

theorem formsRv64_read : ∀ i ∈ formsRv64 w, ReadByRow .rv64 w i := by
  simp only [formsRv64, List.forall_mem_cons, List.not_mem_nil, false_implies, implies_true, and_true]
  refine ⟨?_, ?_, ?_, ?_, ?_⟩
  iterate 3 exact readByRow_encI rfl rfl rfl
  · exact readByRow_encS rfl rfl rfl
  · and_intros <;> exact readByRow_encR rfl rfl rfl

theorem formsCommon_read : ∀ i ∈ formsCommon w, ReadByRow x w i := by
  simp only [formsCommon, List.forall_mem_append, and_assoc]
  exact ⟨formsU_read x w, formsI_read x w, formsShift_read x w, formsR_read x w, formsS_read x w, formsB_read x w,
    formsFixed_read x w, formsAlone_read x w⟩

theorem forms_read : ∀ i ∈ forms w x, ReadByRow x w i := by
  cases x with
  | rv32 => exact formsCommon_read .rv32 w
  | rv64 => exact List.forall_mem_append.2 ⟨formsCommon_read .rv64 w, formsRv64_read w⟩

/-- Every row of the table is the row of one of the forms. -/
theorem tableRows_subset_forms : tableRows x ⊆ (forms w x).map (rowOf x) := by
  have rows_eq : (forms w x).map (rowOf x) = (forms 0 x).map (rowOf x) := by cases x <;> rfl
  rw [rows_eq]
  cases x <;> decide

end Reads

/-- A word that matches a row of the table is an instruction of that row. -/
theorem decode_of_match {r : TableRow} (mem : r ∈ tableRows x) (m : r.Matches w) :
    ∃ i, decode x w = .ok i ∧ rowOf x i = r := by
  obtain ⟨i, form, rfl⟩ := List.mem_map.1 (tableRows_subset_forms x w mem)
  obtain ⟨wf, word⟩ := forms_read x w i form m
  refine ⟨i, ?_, rfl⟩
  rw [← word]
  exact decodeInvertsEncode x i wf

/-- Settles O3: a word that decodes is the word of its instruction, so it matches that row; a word of a row is the word
of the instruction read from it, which decodes. -/
theorem wordIsInstructionIffItMatchesARow : Obligations.WordIsInstructionIffItMatchesARow := by
  refine fun x w => ⟨fun i decoded => ?_, fun r mem m => decode_of_match mem m⟩
  obtain ⟨wf, rfl⟩ := encodeInvertsDecode x w i decoded
  exact encodingRow i x wf

/-- Settles O4: a word decodes to one instruction only, and both rows are that instruction's. -/
theorem noTwoRowsMatchOneWord : Obligations.NoTwoRowsMatchOneWord := by
  intro x w r q hr hq mr mq
  obtain ⟨i, decoded, rfl⟩ := decode_of_match hr mr
  obtain ⟨j, decoded', rfl⟩ := decode_of_match hq mq
  obtain rfl : i = j := Except.ok.inj (decoded.symm.trans decoded')
  rfl

/-! ### Instructions that the width does not have (R113, notes/assumptions/18.md) -/

theorem trapValue_illegal (h : Hart x) (w : InstWord) : h.trapValue (.illegalInstruction w) = h.illegalValue w := by
  simp only [Hart.trapValue, Hart.illegalValue]
  cases h.now.draws.mtvalIllegal <;> rfl

theorem raisesIllegal_settle (h : Hart x) (w : InstWord) :
    h.RaisesIllegal (h.settle (.raise (.illegalInstruction w))) w := by
  rw [Hart.RaisesIllegal, ← trapValue_illegal]
  exact raises_settle h (.illegalInstruction w)

/-- None of the twelve rows of 47_rv64i_only.md is among the rows of a 32-bit hart (R113). -/
theorem commonRows_disjoint_rv64Rows : ∀ r ∈ commonRows .rv32, r ∉ rv64Rows := by decide

theorem illFormed_of_rv64Row {i : Instr} (row : rowOf .rv32 i ∈ rv64Rows) : WellFormed .rv32 i = false := by
  by_contra wf
  exact commonRows_disjoint_rv64Rows _ (encodingRow i .rv32 (by simpa using wf)).1 row

/-- What only a 64-bit hart has, a 32-bit hart executes as an illegal instruction of its own word. -/
theorem exec_rv32_of_rv64_only (h : Hart .rv32) {i : Instr} (wide : WellFormed .rv64 i = true)
    (narrow : WellFormed .rv32 i = false) :
    exec i ⟨.rv32, h⟩ = h.settle (.raise (.illegalInstruction (encode i))) := by
  cases i with
  | slli | srli | srai => exact congrArg h.settle (if_neg (Bool.eq_false_iff.1 narrow))
  | lwu | ld | sd | addiw | slliw | srliw | sraiw | addw | subw | sllw | srlw | sraw => rfl
  | _ => exact absurd wide (Bool.eq_false_iff.1 narrow)

/-- Settles O32: an instruction of one of the twelve rows is ill-formed on 32 bits, by the rows its word can match. -/
theorem rv64OnlyInstructionsTrapOnRv32 : Obligations.Rv64OnlyInstructionsTrapOnRv32 := by
  intro h i wide row
  rw [exec_rv32_of_rv64_only h wide (illFormed_of_rv64Row row)]
  exact raisesIllegal_settle h (encode i)

/-! ### Hints (R116) -/

/-- A well-formed computational instruction ends with a result written to its destination. -/
theorem exec_of_computesInto (h : Hart x) {i : Instr} {rd : Reg} (wf : WellFormed x i = true)
    (dest : computesInto i = some rd) : ∃ v, exec i ⟨x, h⟩ = .next ⟨x, h.writeResult rd v⟩ := by
  cases i with
  | lui | auipc | addi | slti | sltiu | xori | ori | andi | add | sub | sll | slt | sltu | xor | srl | sra | or | and =>
    obtain rfl := Option.some.inj dest
    exact ⟨_, rfl⟩
  | slli | srli | srai | addiw | slliw | srliw | sraiw | addw | subw | sllw | srlw | sraw =>
    obtain rfl := Option.some.inj dest
    exact ⟨_, congrArg h.settle (if_pos wf)⟩
  | _ => cases dest

/-- Settles O33: a result for `x0` is discarded, and FENCE has no effect whatever its fields. -/
theorem hintsChangeNothingButPc : Obligations.HintsChangeNothingButPc := by
  rintro x h i wf (dest | ⟨fm, pred, succ, rs1, rd, rfl, -⟩)
  · obtain ⟨v, run⟩ := exec_of_computesInto h wf dest
    rw [run, writeResult_zero]
    rfl
  · rfl

end Sys2Proof.Proofs.Encoding

namespace Sys2Proof.Proofs.Compute

open Sys2Proof.Machine Sys2Proof.Laws Sys2Proof.Proofs.Encoding

variable {x : Xlen}

/-! ### The end of a computational instruction (40_integer_immediate.md R130, 41_integer_register.md R150) -/

/-- The whole effect of writing a result: `rd` and `pc`, and the frame of `Computes`. -/
theorem computes_writeResult (h : Hart x) (rd : Reg) {v : XWord x} {value : XWord x → Prop} (holds : value v) :
    h.Computes (h.writeResult rd v) rd value where
  sets := by
    obtain ⟨same, zero, other⟩ := sets_writeX h rd v
    simp only [Hart.Sets, readX_writeResult]
    exact ⟨fun hrd => (same hrd).symm ▸ holds, zero, other⟩
  pc := by rw [writeResult_pc, toNat_add_four]
  system := by constructor <;> simp
  memory := ⟨fun a => by simp, by simp, by simp⟩
  environment := by constructor <;> simp

/-- An instruction that only writes a result completes with it. -/
theorem completes_compute {h : Hart x} {i : Instr} {rd : Reg} {v : XWord x} {value : XWord x → Prop}
    (run : exec i ⟨x, h⟩ = State.compute ⟨x, h⟩ rd v) (holds : value v) :
    h.Completes i fun t => h.Computes t rd value :=
  ⟨_, run, computes_writeResult h rd holds⟩

/-- A shift by a constant that the width has completes with the shifted value (R139). -/
theorem completes_onShift {h : Hart x} {i j : Instr} {rd : Reg} {shamt : BitVec 6} {v : XWord x}
    {value : XWord x → Prop} (fits : shamtFits x shamt = true)
    (run : exec i ⟨x, h⟩ = h.settle (h.onShift shamt j (.done (h.writeResult rd v)))) (holds : value v) :
    h.Completes i fun t => h.Computes t rd value :=
  completes_compute (run.trans (congrArg h.settle (if_pos fits))) holds

/-- What only a 64-bit hart has, a 32-bit hart traps on with its own word (R113, R139). -/
theorem raisesIllegal_of_rv64_only (h : Hart .rv32) {i : Instr} (wide : WellFormed .rv64 i = true)
    (narrow : WellFormed .rv32 i = false) : h.RaisesIllegal (exec i ⟨.rv32, h⟩) (encode i) := by
  rw [exec_rv32_of_rv64_only h wide narrow]
  exact raisesIllegal_settle h (encode i)

/-! ### Values (00_scope.md R4, R5) -/

/-- A sign-extended immediate read as an unsigned number. -/
theorem toNat_sextX_imm (imm : BitVec 12) : ((sextX x imm).toNat : Int) = imm.toInt % 2 ^ x.bits := by
  rw [toNat_eq_toInt_emod, toInt_sextX imm_fits]

theorem ltSigned_iff (a b : XWord x) : ltSigned a b = true ↔ a.toInt < b.toInt := BitVec.slt_iff_toInt_lt

theorem ltUnsigned_iff (a b : XWord x) : ltUnsigned a b = true ↔ a.toNat < b.toNat := BitVec.ult_iff_lt

/-- A comparison writes 1 exactly where its condition holds (R134, R154). -/
theorem toNat_flagWord_of_iff {c : Bool} {p : Prop} [Decidable p] (condition : c = true ↔ p) :
    (flagWord x c).toNat = if p then 1 else 0 := by
  rw [toNat_flagWord]
  exact if_congr condition rfl rfl

/-! ### The instructions -/

/-- Settles O23: the operand of both is the 20-bit immediate times 4096. -/
theorem upperImmediateResults : Obligations.UpperImmediateResults := by
  intro x h rd imm
  have operand : (upperImm x imm).toInt = imm.toInt * 4096 := toInt_upperImm imm
  refine ⟨completes_compute rfl operand, completes_compute rfl ?_⟩
  rw [toNat_add_int, operand]

/-- Settles O24: sum and difference of words are those of their numbers modulo 2^XLEN. -/
theorem additionAndSubtractionResults : Obligations.AdditionAndSubtractionResults := by
  intro x h rd rs1 rs2 imm
  refine ⟨completes_compute rfl ?_, completes_compute rfl (BitVec.toNat_add _ _),
    completes_compute rfl (toNat_sub_int _ _)⟩
  rw [toNat_add_int, toInt_sextX imm_fits]

/-- Settles O25: each condition is the comparison of the two operands as numbers. -/
theorem comparisonResults : Obligations.ComparisonResults := by
  intro x h rd rs1 rs2 imm
  have signedImm : ltSigned (h.readX rs1) (sextX x imm) = true ↔ (h.readX rs1).toInt < imm.toInt := by
    rw [ltSigned_iff, toInt_sextX imm_fits]
  have unsignedImm :
      ltUnsigned (h.readX rs1) (sextX x imm) = true ↔ ((h.readX rs1).toNat : Int) < imm.toInt % 2 ^ x.bits := by
    rw [ltUnsigned_iff, ← Int.ofNat_lt, toNat_sextX_imm]
  exact ⟨completes_compute rfl (toNat_flagWord_of_iff signedImm),
    completes_compute rfl (toNat_flagWord_of_iff unsignedImm),
    completes_compute rfl (toNat_flagWord_of_iff (ltSigned_iff _ _)),
    completes_compute rfl (toNat_flagWord_of_iff (ltUnsigned_iff _ _))⟩

/-- Settles O26, bit by bit; bit `k` of the extended immediate is its bit `min k 11`. -/
theorem bitwiseResults : Obligations.BitwiseResults := by
  intro x h rd rs1 rs2 imm
  refine ⟨completes_compute rfl fun k hk => ?_, completes_compute rfl fun k hk => ?_,
    completes_compute rfl fun k hk => ?_, completes_compute rfl fun _ _ => BitVec.getLsbD_xor,
    completes_compute rfl fun _ _ => BitVec.getLsbD_or, completes_compute rfl fun _ _ => BitVec.getLsbD_and⟩
  · rw [BitVec.getLsbD_xor, sextX_bit imm hk]
  · rw [BitVec.getLsbD_or, sextX_bit imm hk]
  · rw [BitVec.getLsbD_and, sextX_bit imm hk]

/-- Settles O27: a shift amount below XLEN fits, and shifting is multiplying or dividing by its power of two. -/
theorem shiftByConstantResults : Obligations.ShiftByConstantResults := by
  intro x h rd rs1 shamt below
  have fits : shamtFits x shamt = true := decide_eq_true below
  exact ⟨completes_onShift fits rfl (toNat_shl _ _), completes_onShift fits rfl (toNat_shr _ _),
    completes_onShift fits rfl (toInt_sar _ _)⟩

/-- Settles O29: a shift amount of 32 or more fits a 64-bit hart only, so the instruction is one that a 32-bit hart does
not have. -/
theorem reservedShiftsTrap : Obligations.ReservedShiftsTrap := by
  intro h rd rs1 shamt reserved
  have wide : shamtFits .rv64 shamt = true := shamtFits_rv64 shamt
  have narrow : shamtFits .rv32 shamt = false := decide_eq_false (Nat.not_lt.2 reserved)
  exact ⟨raisesIllegal_of_rv64_only h wide narrow, raisesIllegal_of_rv64_only h wide narrow,
    raisesIllegal_of_rv64_only h wide narrow⟩

end Sys2Proof.Proofs.Compute

namespace Sys2Proof.Proofs.RegisterShifts

open Sys2Proof.Machine Sys2Proof.Laws Sys2Proof.Proofs.Compute

/-! ### Shifts by a register (41_integer_register.md R153, R157, R158) -/

/-- Settles O28: the amount is rs2 modulo XLEN, so each shift is complete for every operand, and shifting is multiplying or
dividing by the amount's power of two. -/
theorem shiftByRegisterResults : Obligations.ShiftByRegisterResults := by
  intro x h rd rs1 rs2 n amount
  obtain rfl : n = h.shiftAmount rs2 := amount
  exact ⟨completes_compute rfl (toNat_shl _ _), completes_compute rfl (toNat_shr _ _),
    completes_compute rfl (toInt_sar _ _)⟩

end Sys2Proof.Proofs.RegisterShifts

namespace Sys2Proof.Proofs.Fence

open Sys2Proof.Machine Sys2Proof.Laws Sys2Proof.Proofs.Compute Sys2Proof.Proofs.MemoryAccess

variable {x : Xlen}

/-! ### Fences (42_fence.md R170, R171) -/

/-- Moving `pc` on is writing a result to `x0`, so it has the whole frame of a discarded result. -/
theorem advances_advance (h : Hart x) : h.Advances h.advance := by
  rw [← writeResult_zero h 0]
  exact computes_writeResult h 0 trivial

/-- With no write remembered, a byte has held only the value it has. -/
theorem heldSince_of_history_nil {h : Hart x} (forgotten : h.history = []) (a : Nat) :
    h.heldSince a = [Memory.read h.mem a] := by
  rw [Hart.heldSince, forgotten]
  rfl

/-- With no write remembered, a fetch sees only the value the byte has (R84). -/
theorem fetchable_of_history_nil {h : Hart x} (forgotten : h.history = []) (a : Nat) :
    h.fetchable a = [Memory.read h.mem a] := by
  have unstored : h.storedSince a = false := by
    rw [Hart.storedSince, forgotten]
    rfl
  exact fetchable_of_not_stored unstored

/-- FENCE.I leaves the system state as it was: it changes `pc` and what the written bytes have held. -/
theorem sameSystem_syncFetch_advance (h : Hart x) : h.SameSystem h.syncFetch.advance := by
  constructor <;> simp

theorem sameEnvironment_syncFetch_advance (h : Hart x) : h.SameEnvironment h.syncFetch.advance := by
  constructor <;> simp

/-- Settles O34: FENCE is only the move of `pc`, and FENCE.I also empties what the written bytes have held. -/
theorem fencesComplete : Obligations.FencesComplete := by
  intro x h fm pred succ imm rs1 rd
  have forgotten : h.syncFetch.advance.history = [] := rfl
  refine ⟨⟨h.advance, rfl, advances_advance h⟩, h.syncFetch.advance, rfl, ?_⟩
  exact ⟨fun a => ⟨fetchable_of_history_nil forgotten a, heldSince_of_history_nil forgotten a⟩, rfl, rfl,
    toNat_add_four h.pc, fun _ => rfl, sameSystem_syncFetch_advance h, sameEnvironment_syncFetch_advance h⟩

end Sys2Proof.Proofs.Fence

namespace Sys2Proof.Proofs.CsrAccess

open Sys2Proof.Machine Sys2Proof.Laws Sys2Proof.Proofs.Encoding

variable {x : Xlen}

/-! ### Forbidden accesses to the control and status registers (43_csr.md R180) -/

/-- An access that R180 does not permit finds no register. -/
theorem csrAccess_eq_none {h : Hart x} {a : CsrAddr} {writes : Bool} {W : Prop} (hw : writes = true ↔ W)
    (forbidden : ¬ h.CsrPermits a W) : h.csrAccess a writes = none := by
  obtain ⟨permits_iff, -⟩ := csrAccess_permits h a hw
  rw [Option.eq_none_iff_forall_ne_some]
  exact fun c access => forbidden (permits_iff.2 ⟨c, access⟩)

theorem csrInstr_of_no_access {h : Hart x} {a : CsrAddr} {writes : Bool} (access : h.csrAccess a writes = none)
    (i : Instr) (rd : Reg) (reads : Bool) (new : XWord x → XWord x) :
    h.csrInstr i rd a reads writes new = .raise (.illegalInstruction (encode i)) := by
  rw [Hart.csrInstr, access]

/-- An instruction that runs the common rule on a forbidden access is an illegal instruction of its own word. -/
theorem raisesIllegal_of_csrInstr {h : Hart x} {i : Instr} {rd : Reg} {a : CsrAddr} {reads writes : Bool} {W : Prop}
    {new : XWord x → XWord x} (run : exec i ⟨x, h⟩ = h.settle (h.csrInstr i rd a reads writes new))
    (hw : writes = true ↔ W) (forbidden : ¬ h.CsrPermits a W) : h.RaisesIllegal (exec i ⟨x, h⟩) (encode i) := by
  rw [run, csrInstr_of_no_access (csrAccess_eq_none hw forbidden)]
  exact raisesIllegal_settle h (encode i)

/-- Settles O47: the six instructions are the common rule; the first two always write, the others where their operand is
not zero. -/
theorem forbiddenCsrAccessesTrap : Obligations.ForbiddenCsrAccessesTrap := by
  intro x h rd rs1 csr uimm
  have always : true = true ↔ True := iff_true_intro rfl
  refine ⟨fun forbidden => ?_, fun forbidden => ?_, fun forbidden => ?_⟩
  · exact ⟨raisesIllegal_of_csrInstr rfl always forbidden, raisesIllegal_of_csrInstr rfl always forbidden⟩
  · exact ⟨raisesIllegal_of_csrInstr rfl decide_eq_true_iff forbidden,
      raisesIllegal_of_csrInstr rfl decide_eq_true_iff forbidden⟩
  · exact ⟨raisesIllegal_of_csrInstr rfl decide_eq_true_iff forbidden,
      raisesIllegal_of_csrInstr rfl decide_eq_true_iff forbidden⟩

end Sys2Proof.Proofs.CsrAccess

namespace Sys2Proof.Proofs.System

open Sys2Proof.Machine Sys2Proof.Laws Sys2Proof.Proofs.Encoding Sys2Proof.Proofs.Execution
  Sys2Proof.Proofs.MemoryAccess

variable {x : Xlen}

/-! ### Exceptions of ECALL, EBREAK and URET (44_system.md R200 to R202) -/

theorem encode_uret : encode .uret = 0x00200073 := rfl

theorem encode_sret : encode .sret = 0x10200073 := rfl

theorem encode_mret : encode .mret = 0x30200073 := rfl

theorem encode_wfi : encode .wfi = 0x10500073 := rfl

/-- The trap value of EBREAK, by the draw `MTVAL_EBREAK` of the step (R201, R313). -/
theorem trapValue_breakpoint (h : Hart x) :
    h.trapValue .breakpoint = if h.now.draws.mtvalEbreak = .zero then 0 else h.pc := by
  simp only [Hart.trapValue]
  cases h.now.draws.mtvalEbreak <;> rfl

/-- ECALL raises the exception of the mode it is executed in (R200). -/
theorem raises_ecall (h : Hart x) :
    h.Raises (exec .ecall ⟨x, h⟩) (match h.priv with | .u => 8 | .s => 9 | .m => 11) 0 := by
  have run : exec .ecall ⟨x, h⟩ = h.settle (.raise (match h.priv with
    | .u => .environmentCallFromU
    | .s => .environmentCallFromS
    | .m => .environmentCallFromM)) := rfl
  rw [run]
  cases h.priv with
  | u => exact raises_settle h .environmentCallFromU
  | s => exact raises_settle h .environmentCallFromS
  | m => exact raises_settle h .environmentCallFromM

theorem raises_ebreak (h : Hart x) :
    h.Raises (exec .ebreak ⟨x, h⟩) 3 (if h.now.draws.mtvalEbreak = .zero then 0 else h.pc) := by
  rw [← trapValue_breakpoint]
  exact raises_settle h .breakpoint

theorem raisesIllegal_uret (h : Hart x) : h.RaisesIllegal (exec .uret ⟨x, h⟩) 0x00200073 := by
  rw [← encode_uret]
  exact raisesIllegal_settle h (encode .uret)

/-- Settles O56: each of the three is one exception, whatever the mode. -/
theorem environmentCallBreakpointAndUretTrap : Obligations.EnvironmentCallBreakpointAndUretTrap :=
  fun _ h => ⟨raises_ecall h, raises_ebreak h, raisesIllegal_uret h⟩

/-! ### Where SRET, WFI and SFENCE.VMA are legal (R203, R205, R206) -/

/-- The rule SRET and SFENCE.VMA share: S-mode exists, and the mode is M, or S with their trap bit of `mstatus` clear. -/
def LegalForSupervisor (h : Hart x) (trapBit : Bool) : Prop :=
  h.cfg.hasS = true ∧ (h.priv = .m ∨ h.priv = .s ∧ trapBit = false)

theorem not_legalForSupervisor {h : Hart x} {trapBit : Bool}
    (illegal : h.cfg.hasS = false ∨ h.priv = .u ∨ h.priv = .s ∧ trapBit = true) : ¬ LegalForSupervisor h trapBit := by
  rintro ⟨hasS, mode⟩
  rcases illegal with noS | user | ⟨supervisor, trapped⟩
  · cases noS.symm.trans hasS
  · simp [user] at mode
  · simp [supervisor, trapped] at mode

theorem sretAllowed_iff (h : Hart x) : h.sretAllowed = true ↔ LegalForSupervisor h h.mstatus.tsr := by
  unfold Hart.sretAllowed LegalForSupervisor
  cases h.priv <;> simp

theorem sfenceAllowed_iff (h : Hart x) : h.sfenceAllowed = true ↔ LegalForSupervisor h h.mstatus.tvm := by
  unfold Hart.sfenceAllowed LegalForSupervisor
  cases h.priv <;> simp

theorem wfiAllowed_iff (h : Hart x) :
    h.wfiAllowed = true ↔ h.priv = .m ∨ h.mstatus.tw = false ∧ (h.priv = .s ∨ h.cfg.hasS = false) := by
  unfold Hart.wfiAllowed
  cases h.priv <;> simp [and_comm]

theorem not_wfiAllowed {h : Hart x} (illegal : h.priv = .u ∧ h.cfg.hasS = true ∨ h.priv ≠ .m ∧ h.mstatus.tw = true) :
    ¬ h.wfiAllowed = true := by
  rw [wfiAllowed_iff]
  rcases illegal with ⟨user, hasS⟩ | ⟨below, timeout⟩
  · simp [user, hasS]
  · simp [below, timeout]

/-! ### An instruction that is legal in some modes only (R203 to R206, R302) -/

section LegalOrIllegal

variable {h t : Hart x} {i : Instr} {w : InstWord} {legal : Prop} [Decidable legal]
  (run : exec i ⟨x, h⟩ = h.settle (if legal then .done t else .raise (.illegalInstruction w)))

include run

theorem raisesIllegal_of_not_legal (illegal : ¬ legal) : h.RaisesIllegal (exec i ⟨x, h⟩) w := by
  rw [run, if_neg illegal]
  exact raisesIllegal_settle h w

theorem exec_of_legal (holds : legal) : exec i ⟨x, h⟩ = .next ⟨x, t⟩ := by
  rw [run, if_pos holds]
  rfl

end LegalOrIllegal

/-- Settles O58: outside the legal cases each of the four is an illegal instruction of its own word. -/
theorem privilegedInstructionsTrapWhereIllegal : Obligations.PrivilegedInstructionsTrapWhereIllegal := by
  intro x h rs1 rs2
  rw [← encode_sret, ← encode_mret, ← encode_wfi]
  refine ⟨fun illegal => ?_, fun below => ?_, fun illegal => ?_, fun illegal => ?_⟩
  · exact raisesIllegal_of_not_legal rfl (mt (sretAllowed_iff h).1 (not_legalForSupervisor illegal))
  · exact raisesIllegal_of_not_legal rfl below
  · exact raisesIllegal_of_not_legal rfl (not_wfiAllowed illegal)
  · exact raisesIllegal_of_not_legal rfl (mt (sfenceAllowed_iff h).1 (not_legalForSupervisor illegal))

/-- Settles O59: WFI moves `pc` on and waits, SFENCE.VMA only moves `pc` on. -/
theorem waitAndTranslationFenceComplete : Obligations.WaitAndTranslationFenceComplete := by
  intro x h rs1 rs2
  refine ⟨fun legal => ?_, fun hasS mode => ?_⟩
  · exact exec_of_legal (t := h.startWaiting) rfl ((wfiAllowed_iff h).2 legal)
  · exact exec_of_legal (t := h.advance) rfl ((sfenceAllowed_iff h).2 ⟨hasS, mode⟩)

/-! ### Pending interrupts as bits of `mip` (60_exceptions.md R330; 10_state.md R41) -/

/-- Where `mip` holds bits of the supervisor's interrupts only, no other of its storage bits is set. -/
theorem mipSoft_bit_within {h : Hart x} (within : h.mipSoft &&& ~~~mipMask h.cfg = 0) {k : Nat}
    (set : h.mipSoft.getLsbD k = true) : k ∈ [1, 5, 9] := by
  have below : k < x.bits := BitVec.lt_of_getLsbD set
  have clear := congrArg (BitVec.getLsbD · k) within
  simp only [BitVec.getLsbD_and, BitVec.getLsbD_not, mipMask_bit h.cfg below, set] at clear
  by_contra other
  simp [below, other] at clear

/-- An interrupt is pending where its bit of `mip` reads 1. -/
theorem isPending_iff {h : Hart x} (within : h.mipSoft &&& ~~~mipMask h.cfg = 0) (i : Interrupt) :
    h.isPending i ↔ h.mipWord.getLsbD (Interrupt.code i) = true := by
  have storage (k : Nat) (other : k ∉ [1, 5, 9]) : h.mipSoft.getLsbD k = false :=
    Bool.eq_false_iff.2 fun set => other (mipSoft_bit_within within set)
  cases i with
  | mei => simp [Hart.isPending, Interrupt.code, mipWord_bit, storage 11]
  | mti => simp [Hart.isPending, Interrupt.code, mipWord_bit, storage 7]
  | msi => simp [Hart.isPending, Interrupt.code, mipWord_bit, storage 3]
  | sei | sti | ssi => simp [Hart.isPending, Interrupt.code, mipWord_bit]

/-- Every bit of `mip` that reads 1 is the bit of an interrupt. -/
theorem exists_code_of_mipWord_bit {h : Hart x} (within : h.mipSoft &&& ~~~mipMask h.cfg = 0) {k : Nat}
    (set : h.mipWord.getLsbD k = true) : ∃ i, Interrupt.code i = k := by
  simp only [mipWord_bit, Bool.or_eq_true, Bool.and_eq_true, decide_eq_true_eq] at set
  rcases set with ((soft | ⟨rfl, -⟩) | ⟨rfl, -⟩) | ⟨rfl, -⟩
  · have storage := mipSoft_bit_within within soft
    simp only [List.mem_cons, List.not_mem_nil, or_false] at storage
    rcases storage with rfl | rfl | rfl
    · exact ⟨.ssi, rfl⟩
    · exact ⟨.sti, rfl⟩
    · exact ⟨.sei, rfl⟩
  · exact ⟨.mei, rfl⟩
  · exact ⟨.mti, rfl⟩
  · exact ⟨.msi, rfl⟩

theorem and_ne_zero_iff {w : Nat} (a b : BitVec w) :
    a &&& b ≠ 0 ↔ ∃ k, a.getLsbD k = true ∧ b.getLsbD k = true := by
  rw [ne_eq, show (0 : BitVec w) = 0#w from rfl, BitVec.zero_iff_eq_false, not_forall]
  simp

/-- A wake-up event is an interrupt both pending and enabled (R205, R333). -/
theorem wakeEvent_iff {h : Hart x} (within : h.mipSoft &&& ~~~mipMask h.cfg = 0) :
    h.wakeEvent = true ↔ ∃ i, h.isPending i ∧ h.mie.getLsbD (Interrupt.code i) = true := by
  rw [Hart.wakeEvent, decide_eq_true_iff, and_ne_zero_iff]
  constructor
  · rintro ⟨k, pending, enabled⟩
    obtain ⟨i, rfl⟩ := exists_code_of_mipWord_bit within pending
    exact ⟨i, (isPending_iff within i).2 pending, enabled⟩
  · rintro ⟨i, pending, enabled⟩
    exact ⟨_, (isPending_iff within i).1 pending, enabled⟩

/-! ### Taking the input of a step (R304 part 1) -/

theorem beginStep_eq (h : Hart x) : h.beginStep =
    ({ h with now := h.nextInput, env := h.env.tail, steps := h.steps + 1 } : Hart x).agentCells
      h.nextInput.agentBeforeFetch :=
  agentWrites_eq _ _

theorem sameSystem_beginStep (h : Hart x) : h.SameSystem h.beginStep := by
  rw [beginStep_eq]
  constructor <;> simp

theorem beginStep_readX (h : Hart x) (j : Reg) : h.beginStep.readX j = h.readX j := by
  rw [beginStep_eq, agentCells_readX]
  rfl

theorem beginStep_pc (h : Hart x) : h.beginStep.pc = h.pc := by
  rw [beginStep_eq, agentCells_pc]

theorem beginStep_ioLog (h : Hart x) : h.beginStep.ioLog = h.ioLog := by
  rw [beginStep_eq, agentCells_ioLog]

/-- Taking the input changes a byte only where other agents may write. -/
theorem sameByte_beginStep {h : Hart x} {a : Nat} (unshared : h.sharedAt a = false) : SameByte h h.beginStep a := by
  rw [beginStep_eq]
  exact sameByte_agentCells
    (h := { h with now := h.nextInput, env := h.env.tail, steps := h.steps + 1 }) unshared _

/-! ### Staying stalled (R205, R333) -/

theorem staysWaiting_iff {h : Hart x} (waits : h.waiting = true) (within : h.mipSoft &&& ~~~mipMask h.cfg = 0) :
    h.staysWaiting = true ↔
      (¬ ∃ i, h.isPending i ∧ h.mie.getLsbD (Interrupt.code i) = true) ∧ h.now.draws.wake = false := by
  rw [← wakeEvent_iff within]
  simp [Hart.staysWaiting, waits]

/-- Settles O12: the hart that has taken its input still waits, and stays stalled where it has no wake-up event and does
not wake spuriously. -/
theorem waitingHartStaysUntilAWakeUp : Obligations.WaitingHartStaysUntilAWakeUp := by
  rintro x h _ rfl waits within
  have system := sameSystem_beginStep h
  exact ⟨staysWaiting_iff (system.waiting.trans waits) within, fun stays => if_pos stays, system, beginStep_readX h,
    beginStep_pc h, beginStep_ioLog h, fun _ unshared => sameByte_beginStep unshared⟩

end Sys2Proof.Proofs.System

namespace Sys2Proof.Proofs.LoadStore

open Sys2Proof.Machine Sys2Proof.Laws Sys2Proof.Proofs.Compute Sys2Proof.Proofs.MemoryAccess

variable {x : Xlen}

/-! ### Loads from `Main` (45_load_store.md R222 to R226, 47_rv64i_only.md R261, R262) -/

section Load

variable {h : Hart x} {rs1 : Reg} {offset : BitVec 12} {n v : Nat} (size : n ∈ [1, 2, 4, 8])
  (main : h.regionAt (h.effAddr rs1 offset).toNat = .main) (aligned : (h.effAddr rs1 offset).toNat % n = 0)
  (bytes : h.BytesAt (h.effAddr rs1 offset).toNat n v)

include size main aligned bytes

/-- A load from `Main` bytes that have a value is the writing of that value, extended, as a result. -/
theorem loadInto_main (rd : Reg) (extend : BitVec (8 * n) → XWord x) :
    h.loadInto rd rs1 offset n extend = .done (h.writeResult rd (extend (BitVec.ofNat (8 * n) v))) := by
  rw [Hart.loadInto, memRead_bytes h size aligned main bytes]
  rfl

/-- A load that extends with the sign puts the value of the bytes as a signed number into `rd`. -/
theorem completes_signedLoad {i : Instr} {rd : Reg} (fits : 8 * n ≤ x.bits)
    (run : exec i ⟨x, h⟩ = h.settle (h.loadInto rd rs1 offset n (sextX x))) :
    h.Completes i fun t => h.Computes t rd fun r => r.toInt = (v : Int).bmod (2 ^ (8 * n)) := by
  rw [loadInto_main size main aligned bytes] at run
  exact ⟨_, run, computes_writeResult h rd (toInt_sextX_ofNat fits)⟩

/-- A load that extends with zeros puts the value of the bytes into `rd`. -/
theorem completes_unsignedLoad {i : Instr} {rd : Reg} (fits : 8 * n ≤ x.bits)
    (run : exec i ⟨x, h⟩ = h.settle (h.loadInto rd rs1 offset n (zextX x))) :
    h.Completes i fun t => h.Computes t rd fun r => r.toNat = v := by
  have small : v < 2 ^ (8 * n) := by
    obtain ⟨small, -⟩ := bytes
    rwa [Nat.pow_mul]
  rw [loadInto_main size main aligned bytes] at run
  exact ⟨_, run, computes_writeResult h rd (toNat_zextX_ofNat fits small)⟩

end Load

/-- Settles O36: each load is `loadInto` with its own width and extension, and its width fits a register. -/
theorem loadsFromMainSetTheRegister : Obligations.LoadsFromMainSetTheRegister := by
  rintro x h rd rs1 offset _ v rfl main
  have byte := Nat.mod_one (h.effAddr rs1 offset).toNat
  have fits8 : 8 * 1 ≤ x.bits := by cases x <;> decide
  have fits16 : 8 * 2 ≤ x.bits := by cases x <;> decide
  have fits32 : 8 * 4 ≤ x.bits := by cases x <;> decide
  refine ⟨fun bytes => ⟨?_, ?_⟩, fun half bytes => ⟨?_, ?_⟩, fun word bytes => ⟨?_, ?_⟩, fun double bytes => ?_⟩
  · exact completes_signedLoad (by decide) main byte bytes fits8 rfl
  · exact completes_unsignedLoad (by decide) main byte bytes fits8 rfl
  · exact completes_signedLoad (by decide) main half bytes fits16 rfl
  · exact completes_unsignedLoad (by decide) main half bytes fits16 rfl
  · exact completes_signedLoad (by decide) main word bytes fits32 rfl
  · rintro rfl
    exact completes_unsignedLoad (by decide) main word bytes fits32 rfl
  · rintro rfl
    exact completes_unsignedLoad (by decide) main double bytes (by decide) rfl

/-! ### Stores to `Main` (45_load_store.md R227 to R229, 47_rv64i_only.md R263, 20_memory.md R73, R84) -/

/-- Byte `k` of the low `n` bytes of a value is byte `k` of the value. -/
theorem extractLsb'_setWidth_byte {w n k : Nat} (v : BitVec w) (hk : k < n) :
    (v.setWidth (8 * n)).extractLsb' (8 * k) 8 = BitVec.ofNat 8 (v.toNat / 256 ^ k) := by
  rw [ofNat_div_eq_extractLsb']
  apply BitVec.eq_of_getLsbD_eq
  intro i hi
  have within : 8 * k + i < 8 * n := by omega
  simp [hi, within]

/-- What a store to an aligned location does to what a fetch may see of its bytes (R84), and that every byte outside the
location is as before (R73). -/
theorem storeCells_cellsOfValue (h : Hart x) {a : XWord x} {n : Nat} (size : n ∈ [1, 2, 4, 8])
    (aligned : a.toNat % n = 0) (v : BitVec (8 * n)) :
    (∀ k, k < n → ∀ y, y ∈ (h.storeCells (cellsOfValue a n v)).fetchable (a.toNat + k) ↔
      y ∈ h.heldSince (a.toNat + k) ∨ y = some (v.extractLsb' (8 * k) 8)) ∧
    ∀ b, b < a.toNat ∨ a.toNat + n ≤ b → SameByte h (h.storeCells (cellsOfValue a n v)) b := by
  have le : n ≤ 8 := (by decide : ∀ n ∈ [1, 2, 4, 8], n ≤ 8) n size
  obtain ⟨written, others⟩ := storeCells_read h (byteAddr a) (fun i => v.extractLsb' (8 * i) 8)
    (fun i j e hi hj => byteAddr_inj a e hi hj) n 0 (by omega)
  rw [← List.range_eq_range'] at written others
  constructor
  · intro k hk
    obtain ⟨-, fetched⟩ := written k (Nat.zero_le k) (by omega)
    rwa [byteAddr_of_aligned size aligned hk] at fetched
  · intro b outside
    refine others b fun k _ hk => ?_
    rw [byteAddr_of_aligned size aligned (by omega)]
    omega

/-- The whole effect of storing the low `n` bytes of a register at an aligned address and moving `pc` on. -/
theorem stores_storeCells_advance (h : Hart x) {a : XWord x} {n : Nat} (size : n ∈ [1, 2, 4, 8])
    (aligned : a.toNat % n = 0) (v : XWord x) :
    h.Stores (h.storeCells (cellsOfValue a n (v.setWidth (8 * n)))).advance a.toNat n v.toNat where
  pc := by rw [advance_pc, storeCells_pc, toNat_add_four]
  stored k hk := by
    rw [advance_mem, read_storeCells_cellsOfValue h size aligned _ hk, extractLsb'_setWidth_byte v hk]
  others b outside := by
    obtain ⟨-, same⟩ := storeCells_cellsOfValue h size aligned (v.setWidth (8 * n))
    obtain ⟨read, -, -⟩ := same b outside
    exact read
  fetched k hk y := by
    obtain ⟨fetched, -⟩ := storeCells_cellsOfValue h size aligned (v.setWidth (8 * n))
    rw [← extractLsb'_setWidth_byte v hk]
    exact fetched k hk y
  fetchedOthers b outside := by
    obtain ⟨-, same⟩ := storeCells_cellsOfValue h size aligned (v.setWidth (8 * n))
    obtain ⟨-, seen⟩ := same b outside
    exact seen
  ioLog := by simp
  regs j := by simp
  system := by constructor <;> simp
  environment := by constructor <;> simp

/-- A store to an aligned `Main` location completes with the low bytes of `x[rs2]` stored there. -/
theorem completes_storeFrom_main {h : Hart x} {i : Instr} {rs2 rs1 : Reg} {offset : BitVec 12} {n : Nat}
    (size : n ∈ [1, 2, 4, 8]) (main : h.regionAt (h.effAddr rs1 offset).toNat = .main)
    (aligned : (h.effAddr rs1 offset).toNat % n = 0)
    (run : exec i ⟨x, h⟩ = h.settle (h.storeFrom rs2 rs1 offset n)) :
    h.Completes i fun t => h.Stores t (h.effAddr rs1 offset).toNat n (h.readX rs2).toNat := by
  rw [Hart.storeFrom, memWrite_main h size aligned main] at run
  exact ⟨_, run, stores_storeCells_advance h size aligned (h.readX rs2)⟩

/-- Settles O37: each store is `storeFrom` with its own width. -/
theorem storesToMainWriteTheirBytesOnly : Obligations.StoresToMainWriteTheirBytesOnly := by
  rintro x h rs2 rs1 offset _ _ rfl rfl main
  refine ⟨?_, fun half => ?_, fun word => ?_, ?_⟩
  · exact completes_storeFrom_main (by decide) main (Nat.mod_one _) rfl
  · exact completes_storeFrom_main (by decide) main half rfl
  · exact completes_storeFrom_main (by decide) main word rfl
  · rintro rfl double
    exact completes_storeFrom_main (by decide) main double rfl

end Sys2Proof.Proofs.LoadStore

namespace Sys2Proof.Proofs.ControlTransfer

open Sys2Proof.Machine Sys2Proof.Laws Sys2Proof.Proofs.Compute Sys2Proof.Proofs.Fence Sys2Proof.Proofs.MemoryAccess

variable {x : Xlen}

/-! ### Targets (46_control_transfer.md R240, R241, R249) -/

/-- The target of a transfer relative to a word is their sum as numbers, which wraps. -/
theorem toNat_add_sextX {n : Nat} (fits : n ≤ x.bits) (base : XWord x) (offset : BitVec n) :
    ((base + sextX x offset).toNat : Int) = (base.toNat + offset.toInt) % 2 ^ x.bits := by
  rw [toNat_add_int, toInt_sextX fits]

/-- The wrapped sum of the numbers determines the target. -/
theorem eq_add_sextX {n : Nat} (fits : n ≤ x.bits) {target base : XWord x} {offset : BitVec n}
    (sum : (target.toNat : Int) = (base.toNat + offset.toInt) % 2 ^ x.bits) : target = base + sextX x offset :=
  BitVec.eq_of_toNat_eq (Int.ofNat_inj.1 (sum.trans (toNat_add_sextX fits base offset).symm))

/-- The target of JALR: bit 0 of the wrapped sum is cleared. -/
theorem toNat_jalrTarget (base : XWord x) (imm : BitVec 12) :
    (((base + sextX x imm) &&& ~~~1).toNat : Int) = (base.toNat + imm.toInt) % 2 ^ x.bits / 2 * 2 := by
  have cleared : ((base + sextX x imm) &&& ~~~1).toNat = (base + sextX x imm).toNat / 2 * 2 := toNat_clear_one _
  rw [cleared, ← toNat_add_sextX imm_fits base imm]
  push_cast
  rfl

theorem jalOffset_fits : 21 ≤ x.bits := by cases x <;> decide

theorem branchOffset_fits : 13 ≤ x.bits := by cases x <;> decide

/-- An address with bit 1 set is no multiple of 4. -/
theorem toNat_mod_four_ne_zero {a : XWord x} (set : a.getLsbD 1 = true) : a.toNat % 4 ≠ 0 := by
  have odd : a.toNat / 2 ^ 1 % 2 = 1 := by simpa [BitVec.getLsbD, Nat.testBit_eq_decide_div_mod_eq] using set
  omega

/-! ### The shared transfer (R248; notes/assumptions/15.md) -/

/-- The whole effect of writing a link to `rd` and a target to `pc`. -/
theorem transfers_writeX_setPc (h : Hart x) (rd : Reg) {v : XWord x} {value : XWord x → Prop} (holds : value v)
    (target : XWord x) : h.Transfers ((h.writeX rd v).setPc target) target.toNat rd value where
  sets := by
    obtain ⟨same, zero, other⟩ := sets_writeX h rd v
    simp only [Hart.Sets, setPc_readX]
    exact ⟨fun hrd => (same hrd).symm ▸ holds, zero, other⟩
  pc := by rw [setPc_pc]
  system := by constructor <;> simp
  memory := ⟨fun a => by simp, by simp, by simp⟩
  environment := by constructor <;> simp

theorem jumpTo_of_aligned (h : Hart x) {target : XWord x} (aligned : target.toNat % 4 = 0) :
    h.jumpTo target = .done (h.setPc target) := if_pos aligned

theorem jumpTo_of_misaligned (h : Hart x) {target : XWord x} (misaligned : target.toNat % 4 ≠ 0) :
    h.jumpTo target = .raise (.instructionAddressMisaligned target) := if_neg misaligned

/-- A transfer without a link is one that links to `x0`. -/
theorem linkTo_zero (h : Hart x) (target : XWord x) : h.linkTo 0 target = h.jumpTo target := rfl

/-- An instruction that ends in a transfer to an aligned target completes there, with its link in `rd`. -/
theorem completes_linkTo {h : Hart x} {i : Instr} {rd : Reg} {target : XWord x} {value : XWord x → Prop}
    (run : exec i ⟨x, h⟩ = h.settle (h.linkTo rd target)) (aligned : target.toNat % 4 = 0)
    (link : value (h.pc + 4)) : h.Completes i fun t => h.Transfers t target.toNat rd value := by
  rw [Hart.linkTo, jumpTo_of_aligned _ aligned] at run
  exact ⟨_, run, transfers_writeX_setPc h rd link target⟩

/-- A transfer to a misaligned target raises the exception, and the write of its link is discarded. -/
theorem raises_linkTo (h : Hart x) (rd : Reg) {target : XWord x} (misaligned : target.toNat % 4 ≠ 0) :
    h.Raises (h.settle (h.linkTo rd target)) 0 target := by
  rw [Hart.linkTo, jumpTo_of_misaligned _ misaligned]
  exact raises_settle h (.instructionAddressMisaligned target)

/-! ### Jumps (R240, R241, R248) -/

/-- Settles O43: both jumps are the transfer with a link, to their own target. -/
theorem jumpsLinkAndTransfer : Obligations.JumpsLinkAndTransfer := by
  intro x h rd rs1 offset imm target aligned
  have link : (h.pc + 4).toNat = (h.pc.toNat + 4) % 2 ^ x.bits := toNat_add_four h.pc
  refine ⟨fun jal => ?_, fun jalr => ?_⟩
  · obtain rfl : target = (h.pc + sextX x offset).toNat :=
      Int.ofNat_inj.1 (jal.trans (toNat_add_sextX jalOffset_fits h.pc offset).symm)
    exact completes_linkTo rfl aligned link
  · obtain rfl : target = ((h.readX rs1 + sextX x imm) &&& ~~~1).toNat :=
      Int.ofNat_inj.1 (jalr.trans (toNat_jalrTarget (h.readX rs1) imm).symm)
    exact completes_linkTo rfl aligned link

/-- Settles O45: a target with bit 1 set is misaligned, and the trap is taken from the hart before its link is written. -/
theorem jumpsToMisalignedTargetsTrap : Obligations.JumpsToMisalignedTargetsTrap := by
  intro x h rd rs1 offset imm target set
  have misaligned : target.toNat % 4 ≠ 0 := toNat_mod_four_ne_zero set
  refine ⟨fun jal => ?_, fun jalr => ?_⟩
  · obtain rfl : target = h.pc + sextX x offset := eq_add_sextX jalOffset_fits jal
    exact raises_linkTo h rd misaligned
  · obtain rfl : target = (h.readX rs1 + sextX x imm) &&& ~~~1 :=
      BitVec.eq_of_toNat_eq (Int.ofNat_inj.1 (jalr.trans (toNat_jalrTarget (h.readX rs1) imm).symm))
    exact raises_linkTo h rd misaligned

/-! ### Branches (R242 to R247, R249) -/

theorem branchIf_of_taken (h : Hart x) {taken : Bool} (holds : taken = true) (offset : BitVec 13) :
    h.branchIf taken offset = h.linkTo 0 (h.pc + sextX x offset) := by
  rw [linkTo_zero]
  exact if_pos holds

theorem branchIf_of_not_taken (h : Hart x) {taken : Bool} (fails : ¬ taken = true) (offset : BitVec 13) :
    h.branchIf taken offset = .done h.advance := if_neg fails

/-- An instruction that is `branchIf` on a comparison has the rule of a branch on what the comparison decides. -/
theorem branchesOn_of_branchIf {h : Hart x} {branch : BitVec 13 → Instr} {taken : Bool} {condition : Prop}
    (run : ∀ offset, exec (branch offset) ⟨x, h⟩ = h.settle (h.branchIf taken offset))
    (decides : taken = true ↔ condition) : h.BranchesOn branch condition := by
  intro offset target sum
  obtain rfl : target = h.pc + sextX x offset := eq_add_sextX branchOffset_fits sum
  have runOffset := run offset
  refine ⟨fun holds aligned => ?_, fun holds misaligned => ?_, fun fails => ?_⟩
  · rw [branchIf_of_taken h (decides.2 holds)] at runOffset
    exact completes_linkTo runOffset aligned trivial
  · rw [runOffset, branchIf_of_taken h (decides.2 holds)]
    exact raises_linkTo h 0 misaligned
  · rw [branchIf_of_not_taken h (mt decides.1 fails)] at runOffset
    exact ⟨_, runOffset, advances_advance h⟩

theorem not_ltSigned_iff (a b : XWord x) : (!ltSigned a b) = true ↔ b.toInt ≤ a.toInt := by
  rw [Bool.not_eq_true', ← Bool.not_eq_true, ltSigned_iff, Int.not_lt]

theorem not_ltUnsigned_iff (a b : XWord x) : (!ltUnsigned a b) = true ↔ b.toNat ≤ a.toNat := by
  rw [Bool.not_eq_true', ← Bool.not_eq_true, ltUnsigned_iff, Nat.not_lt]

/-- Settles O44: each branch is `branchIf` on its own comparison of the two registers as numbers. -/
theorem branchesFollowTheirConditions : Obligations.BranchesFollowTheirConditions :=
  fun _ _ _ _ => ⟨branchesOn_of_branchIf (fun _ => rfl) decide_eq_true_iff,
    branchesOn_of_branchIf (fun _ => rfl) decide_eq_true_iff,
    branchesOn_of_branchIf (fun _ => rfl) (ltSigned_iff _ _),
    branchesOn_of_branchIf (fun _ => rfl) (not_ltSigned_iff _ _),
    branchesOn_of_branchIf (fun _ => rfl) (ltUnsigned_iff _ _),
    branchesOn_of_branchIf (fun _ => rfl) (not_ltUnsigned_iff _ _)⟩

end Sys2Proof.Proofs.ControlTransfer

namespace Sys2Proof.Proofs.WordInstructions

open Sys2Proof.Machine Sys2Proof.Laws Sys2Proof.Proofs.Compute

/-! ### Signed 32-bit results (47_rv64i_only.md R260) -/

/-- A number reduced modulo 2^64 first has the same signed low 32 bits. -/
theorem bmod_word_of_emod (n : Int) : (n % 2 ^ 64).bmod (2 ^ 32) = n.bmod (2 ^ 32) := by
  rw [← Int.emod_bmod, Int.emod_emod_of_dvd n (by decide), Int.emod_bmod]

theorem toInt_lowWord (v : XWord .rv64) : (lowWord v).toInt = (v.toNat : Int).bmod (2 ^ 32) := by
  rw [← toInt_sextX_lowWord, toInt_sextX (by decide)]

/-- The sum of words, cut to 32 bits: the second operand counts as a signed number, since 2^32 divides 2^64. -/
theorem toInt_word_add (a b : XWord .rv64) :
    (sextX .rv64 (lowWord (a + b))).toInt = (a.toNat + b.toInt : Int).bmod (2 ^ 32) := by
  rw [toInt_sextX_lowWord, toNat_add_int, bmod_word_of_emod]

theorem toInt_word_add_unsigned (a b : XWord .rv64) :
    (sextX .rv64 (lowWord (a + b))).toInt = (a.toNat + b.toNat : Int).bmod (2 ^ 32) := by
  rw [toInt_sextX_lowWord, BitVec.toNat_add]
  push_cast
  exact bmod_word_of_emod _

theorem toInt_word_sub (a b : XWord .rv64) :
    (sextX .rv64 (lowWord (a - b))).toInt = (a.toNat - b.toNat : Int).bmod (2 ^ 32) := by
  rw [toInt_sextX_lowWord, toNat_sub_int, bmod_word_of_emod]

/-- Shifting left multiplies, and what leaves the low 32 bits does not matter. -/
theorem toInt_word_shl (a : XWord .rv64) (n : Nat) :
    (sextX .rv64 (lowWord a <<< n)).toInt = (a.toNat * 2 ^ n : Int).bmod (2 ^ 32) := by
  have low : (lowWord a <<< n).toNat = a.toNat * 2 ^ n % 2 ^ 32 := by
    rw [BitVec.toNat_shiftLeft, Nat.shiftLeft_eq, toNat_lowWord, Nat.mod_mul_mod]
  rw [toInt_sextX_word, low]
  push_cast
  exact Int.emod_bmod _ _

theorem toInt_word_shr (a : XWord .rv64) (n : Nat) :
    (sextX .rv64 (lowWord a >>> n)).toInt = (a.toNat % 2 ^ 32 / 2 ^ n : Int).bmod (2 ^ 32) := by
  rw [toInt_sextX_word, BitVec.toNat_ushiftRight, Nat.shiftRight_eq_div_pow, toNat_lowWord]
  push_cast
  rfl

theorem toInt_word_sar (a : XWord .rv64) (n : Nat) :
    (sextX .rv64 ((lowWord a).sshiftRight n)).toInt = (a.toNat : Int).bmod (2 ^ 32) / 2 ^ n := by
  rw [toInt_sextX (by decide), toInt_sar, toInt_lowWord]

/-! ### The instructions (R264 to R273) -/

/-- Settles O30: each result is the low word of a sum or difference, and the immediate of ADDIW keeps its sign. -/
theorem wordAdditionResults : Obligations.WordAdditionResults := by
  intro h rd rs1 rs2 imm
  have immediate : (sextX .rv64 (lowWord (h.readX rs1 + sextX .rv64 imm))).toInt =
      ((h.readX rs1).toNat + imm.toInt : Int).bmod (2 ^ 32) := by
    rw [toInt_word_add, toInt_sextX imm_fits]
  exact ⟨completes_compute rfl immediate, completes_compute rfl (toInt_word_add_unsigned _ _),
    completes_compute rfl (toInt_word_sub _ _)⟩

/-- Settles O31: a constant amount has five bits, a register gives its low five, and each shift is one of the low word. -/
theorem wordShiftResults : Obligations.WordShiftResults := by
  intro h rd rs1 rs2 shamt n amount
  obtain rfl : n = h.shiftAmountW rs2 := amount
  exact ⟨completes_compute rfl (toInt_word_shl _ _), completes_compute rfl (toInt_word_shr _ _),
    completes_compute rfl (toInt_word_sar _ _), completes_compute rfl (toInt_word_shl _ _),
    completes_compute rfl (toInt_word_shr _ _), completes_compute rfl (toInt_word_sar _ _)⟩

end Sys2Proof.Proofs.WordInstructions

namespace Sys2Proof.Proofs.Interrupts

open Sys2Proof.Machine Sys2Proof.Laws Sys2Proof.Proofs.Execution Sys2Proof.Proofs.Invariant Sys2Proof.Proofs.System

variable {x : Xlen}

/-! ### Which interrupts can be taken (60_exceptions.md R331) -/

theorem destinedS_iff (h : Hart x) (i : Interrupt) : h.destinedS i = true ↔ h.goesToS i :=
  Bool.and_eq_true_iff

theorem not_destinedS_iff (h : Hart x) (i : Interrupt) : (!h.destinedS i) = true ↔ ¬ h.goesToS i := by
  rw [Bool.not_eq_true', ← Bool.not_eq_true, destinedS_iff]

/-- The step takes an interrupt to be pending and enabled where its bits of `mip` and `mie` are set (R330, R331). -/
theorem pendingEnabled_iff {h : Hart x} (within : h.mipSoft &&& ~~~mipMask h.cfg = 0) (i : Interrupt) :
    h.pendingEnabled i = true ↔ h.isPending i ∧ h.mie.getLsbD (Interrupt.code i) = true := by
  rw [isPending_iff within, Hart.pendingEnabled, Bool.and_eq_true, and_comm]

theorem canTake_iff {h : Hart x} (within : h.mipSoft &&& ~~~mipMask h.cfg = 0) (i : Interrupt) :
    h.canTake i = true ↔ h.Takeable i := by
  rw [Hart.canTake, Bool.and_eq_true, pendingEnabled_iff within, Hart.Takeable, and_assoc]
  refine and_congr_right' (and_congr_right' ?_)
  by_cases dest : h.goesToS i
  · rw [if_pos ((destinedS_iff h i).2 dest)]
    cases h.priv <;> simp [dest]
  · rw [if_neg (mt (destinedS_iff h i).1 dest)]
    cases h.priv <;> simp [dest]

/-! ### The interrupt a step chooses (R332) -/

theorem mem_interruptOrder (i : Interrupt) : i ∈ interruptOrder := by cases i <;> decide

/-- The list is in the order of the places. -/
theorem interruptOrder_places : interruptOrder.Pairwise fun i j => Interrupt.place i < Interrupt.place j := by decide

/-- A search of the list finds the interrupt with the first place. -/
theorem place_le_of_find? {p : Interrupt → Bool} {i j : Interrupt} (found : interruptOrder.find? p = some i)
    (holds : p j = true) : Interrupt.place i ≤ Interrupt.place j := by
  obtain ⟨-, before, after, split, fail⟩ := List.find?_eq_some_iff_append.1 found
  have places := interruptOrder_places
  have mem := mem_interruptOrder j
  rw [split] at places mem
  rcases List.mem_append.1 mem with early | late
  · have fails := fail j early
    rw [holds] at fails
    cases fails
  · rcases List.mem_cons.1 late with rfl | later
    · exact Nat.le_refl _
    · obtain ⟨-, fromFound, -⟩ := List.pairwise_append.1 places
      exact Nat.le_of_lt (List.rel_of_pairwise_cons fromFound later)

/-- What the choice of a step is: none can be taken; or the first of those destined for M-mode; or, there being none of
these, the first of those destined for S-mode. -/
inductive ChoiceCases (h : Hart x) : Option Interrupt → Prop where
  | none (untakeable : ∀ i, ¬ h.Takeable i) : ChoiceCases h none
  | machine (i : Interrupt) (takeable : h.Takeable i) (dest : ¬ h.goesToS i)
      (first : ∀ j, h.Takeable j → ¬ h.goesToS j → Interrupt.place i ≤ Interrupt.place j) : ChoiceCases h (some i)
  | supervisor (i : Interrupt) (takeable : h.Takeable i) (dest : h.goesToS i)
      (noMachine : ∀ j, h.Takeable j → h.goesToS j)
      (first : ∀ j, h.Takeable j → Interrupt.place i ≤ Interrupt.place j) : ChoiceCases h (some i)

theorem chosenInterrupt_cases {h : Hart x} (within : h.mipSoft &&& ~~~mipMask h.cfg = 0) :
    ChoiceCases h h.chosenInterrupt := by
  have machine (i : Interrupt) : (h.canTake i && !h.destinedS i) = true ↔ h.Takeable i ∧ ¬ h.goesToS i := by
    rw [Bool.and_eq_true, canTake_iff within, not_destinedS_iff]
  have supervisor (i : Interrupt) : (h.canTake i && h.destinedS i) = true ↔ h.Takeable i ∧ h.goesToS i := by
    rw [Bool.and_eq_true, canTake_iff within, destinedS_iff]
  unfold Hart.chosenInterrupt
  split
  · rename_i i found
    have holds := List.find?_some found
    obtain ⟨takeable, dest⟩ := (machine i).1 holds
    exact .machine i takeable dest fun j taken other => place_le_of_find? found ((machine j).2 ⟨taken, other⟩)
  · rename_i notFound
    have toS (j : Interrupt) (taken : h.Takeable j) : h.goesToS j := by
      by_contra other
      exact List.find?_eq_none.1 notFound j (mem_interruptOrder j) ((machine j).2 ⟨taken, other⟩)
    cases found : interruptOrder.find? fun i => h.canTake i && h.destinedS i with
    | none =>
      refine .none fun j taken => ?_
      exact List.find?_eq_none.1 found j (mem_interruptOrder j) ((supervisor j).2 ⟨taken, toS j taken⟩)
    | some i =>
      have holds := List.find?_some found
      obtain ⟨takeable, dest⟩ := (supervisor i).1 holds
      exact .supervisor i takeable dest toS fun j taken =>
        place_le_of_find? found ((supervisor j).2 ⟨taken, toS j taken⟩)

/-- Settles O11, by what the choice can be. -/
theorem interruptIsChosenExactlyWhenOneCanBeTaken : Obligations.InterruptIsChosenExactlyWhenOneCanBeTaken := by
  intro x h within
  have choice := chosenInterrupt_cases within
  generalize h.chosenInterrupt = chosen at choice ⊢
  cases choice with
  | none untakeable => exact ⟨iff_of_true rfl untakeable, nofun⟩
  | machine i takeable | supervisor i takeable =>
    refine ⟨iff_of_false nofun fun none_can => none_can i takeable, fun j same => ?_⟩
    obtain rfl := Option.some.inj same
    exact takeable

/-- No interrupt that can be taken is before the one that is chosen. -/
theorem not_takenBefore_chosen {h : Hart x} (within : h.mipSoft &&& ~~~mipMask h.cfg = 0) {i j : Interrupt}
    (chosen : h.chosenInterrupt = some i) (taken : h.Takeable j) : ¬ h.takenBefore j i := by
  have choice := chosenInterrupt_cases within
  rw [chosen] at choice
  cases choice with
  | machine _ takeable dest first =>
    rintro (⟨-, toS⟩ | ⟨sameDest, earlier⟩)
    · exact dest toS
    · exact absurd (first j taken (mt sameDest.1 dest)) (Nat.not_le.2 earlier)
  | supervisor _ takeable dest noMachine first =>
    rintro (⟨toM, -⟩ | ⟨-, earlier⟩)
    · exact toM (noMachine j taken)
    · exact absurd (first j taken) (Nat.not_le.2 earlier)

/-- The choice is the interrupt that is before all others that can be taken. -/
theorem chosenInterrupt_of_first {h : Hart x} (within : h.mipSoft &&& ~~~mipMask h.cfg = 0) {i : Interrupt}
    (takeable : h.Takeable i) (first : ∀ j, h.Takeable j → j ≠ i → h.takenBefore i j) : h.chosenInterrupt = some i := by
  obtain ⟨none_iff, chosen_takeable⟩ := interruptIsChosenExactlyWhenOneCanBeTaken x h within
  cases chosen : h.chosenInterrupt with
  | none => exact absurd takeable (none_iff.1 chosen i)
  | some j =>
    by_contra other
    have before := first j (chosen_takeable j chosen) fun same => other (congrArg some same)
    exact not_takenBefore_chosen within chosen takeable before

theorem takeInterrupt_traps (h : Hart x) (i : Interrupt) :
    h.Traps (h.takeInterrupt i) true (Interrupt.code i) 0 h.pc :=
  enterTrap_traps h true (interrupt_code_lt i) _ _

/-- A step of a hart that does not stall takes the interrupt that is chosen, before it fetches (R304 part 3). -/
theorem step_of_chosen {h : Hart x} (runs : h.beginStep.staysWaiting = false) {i : Interrupt}
    (chosen : h.beginStep.awake.chosenInterrupt = some i) :
    step ⟨x, h⟩ = .next ⟨x, h.beginStep.awake.takeInterrupt i⟩ := by
  simp only [step, runs, stepAwake, chosen]
  rfl

/-- Settles O10: the first interrupt is the one chosen, and the step takes it. -/
theorem highestInterruptIsTakenBeforeTheFetch : Obligations.HighestInterruptIsTakenBeforeTheFetch := by
  rintro x h _ i rfl runs within takeable first
  have chosen := chosenInterrupt_of_first within takeable first
  exact ⟨_, step_of_chosen runs chosen, takeInterrupt_traps h.beginStep.awake i⟩

end Sys2Proof.Proofs.Interrupts

namespace Sys2Proof.Proofs.Traps

open Sys2Proof.Machine Sys2Proof.Laws Sys2Proof.Proofs.Execution Sys2Proof.Proofs.Invariant Sys2Proof.Proofs.System

/-! ### Trap entry (60_exceptions.md R311 to R314) -/

/-- Settles O55: trap entry is the trap of the statement, and its handler's address is a multiple of 4 in either mode. -/
theorem trapEntrySavesAndTransfers : Obligations.TrapEntrySavesAndTransfers := by
  intro x h interrupt code tval epc small
  refine ⟨enterTrap_traps h interrupt small tval epc, ?_⟩
  unfold Hart.enterTrap
  split
  · exact aligned_trapTarget h.stvec interrupt small
  · exact aligned_trapTarget h.mtvec interrupt small

/-! ### Trap returns (60_exceptions.md R320) -/

/-- Settles O57: where MRET and SRET are legal they are the two trap returns. -/
theorem trapReturnsRestore : Obligations.TrapReturnsRestore := by
  intro x h
  refine ⟨fun machine => ?_, fun hasS mode => ?_⟩
  · exact exec_of_legal (t := h.trapReturnM) rfl machine
  · exact exec_of_legal (t := h.trapReturnS) rfl ((sretAllowed_iff h).2 ⟨hasS, mode⟩)

end Sys2Proof.Proofs.Traps

namespace Sys2Proof.Proofs.StepFetch

open Sys2Proof.Machine Sys2Proof.Laws Sys2Proof.Proofs.Execution Sys2Proof.Proofs.MemoryAccess
  Sys2Proof.Proofs.Encoding Sys2Proof.Proofs.System

variable {x : Xlen}

/-! ### A step that fetches a word (60_exceptions.md R304 parts 4 to 6) -/

/-- A step that neither stalls nor takes an interrupt runs the word it fetches. -/
theorem step_of_fetch_done {h : Hart x} (runs : h.beginStep.staysWaiting = false)
    (none_taken : h.beginStep.awake.chosenInterrupt = none) {w : InstWord} (fetch : h.beginStep.awake.fetch = .done w) :
    step ⟨x, h⟩ = stepWord ⟨x, h.beginStep.awake⟩ w := by
  simp only [step, runs, stepAwake, none_taken, fetch]
  rfl

theorem stepWord_of_decode_ok (h : Hart x) {w : InstWord} {i : Instr} (decoded : decode x w = .ok i) :
    stepWord ⟨x, h⟩ w = exec i ⟨x, h.agentWrites h.now.agentAfterFetch⟩ := by
  simp only [stepWord, decoded]

theorem stepWord_of_decode_error (h : Hart x) {w : InstWord} {e : DecodeError} (undecoded : decode x w = .error e) :
    stepWord ⟨x, h⟩ w =
      (h.agentWrites h.now.agentAfterFetch).settle (.raise (.illegalInstruction w)) := by
  simp only [stepWord, undecoded]

/-- A word that matches no row of the table is no instruction (R112, R113). -/
theorem decode_error_of_no_match {w : InstWord} (noRow : ∀ r ∈ tableRows x, ¬ r.Matches w) :
    ∃ e, decode x w = .error e := by
  cases decoded : decode x w with
  | error e => exact ⟨e, rfl⟩
  | ok i =>
    obtain ⟨row_of_ok, -⟩ := wordIsInstructionIffItMatchesARow x w
    obtain ⟨listed, matched⟩ := row_of_ok i decoded
    exact absurd matched (noRow _ listed)

/-- Settles O7: the word does not decode, so the step is the exception, after the writes of other agents. -/
theorem stepTrapsOnAWordThatIsNoInstruction : Obligations.StepTrapsOnAWordThatIsNoInstruction := by
  rintro x h _ w rfl runs none_taken fetch noRow
  obtain ⟨e, undecoded⟩ := decode_error_of_no_match noRow
  rw [step_of_fetch_done runs none_taken fetch, stepWord_of_decode_error _ undecoded]
  exact raisesIllegal_settle _ w

/-! ### Fetch of four bytes that have values (20_memory.md R79, R84) -/

/-- Bytes that all have a value: the first has one, and so have the others. -/
theorem readBytes_cons_eq_some {m : Memory} {a : Nat} {rest : List Nat} {bytes : List Byte}
    (reads : readBytes m (a :: rest) = some bytes) :
    ∃ b bs, Memory.read m a = some b ∧ readBytes m rest = some bs ∧ bytes = b :: bs := by
  cases first : Memory.read m a with
  | none => simp [readBytes, first] at reads
  | some b =>
    cases others : readBytes m rest with
    | none => simp [readBytes, first, others] at reads
    | some bs =>
      simp only [readBytes, first, others, Option.some.injEq] at reads
      exact ⟨b, bs, rfl, rfl, reads.symm⟩

/-- The fetch sees what each byte of memory is where the hart has stored to none of the four since FENCE.I. -/
theorem fetch_of_read {b : Hart x}
    (plain : ∀ a ∈ byteAddrs b.pc 4, b.regionAt a = .main ∧ b.storedSince a = false) {b0 b1 b2 b3 : Byte}
    (read0 : Memory.read b.mem (byteAddr b.pc 0) = some b0) (read1 : Memory.read b.mem (byteAddr b.pc 1) = some b1)
    (read2 : Memory.read b.mem (byteAddr b.pc 2) = some b2) (read3 : Memory.read b.mem (byteAddr b.pc 3) = some b3) :
    b.fetch = .done (wordOfBytes b0 b1 b2 b3) := by
  have inMain : b.fetchOutsideMain = false := by
    refine List.any_eq_false.2 fun a mem => ?_
    obtain ⟨main, -⟩ := plain a mem
    simp [main]
  have seen (k : Nat) (hk : k < 4) : b.fetchByte k (byteAddr b.pc k) = Memory.read b.mem (byteAddr b.pc k) := by
    obtain ⟨-, unstored⟩ := plain _ (List.mem_map.2 ⟨k, List.mem_range.2 hk, rfl⟩)
    exact fetchByte_of_not_stored unstored k
  rw [Hart.fetch, inMain, seen 0 (by decide), seen 1 (by decide), seen 2 (by decide), seen 3 (by decide),
    read0, read1, read2, read3]
  rfl

theorem decode_of_decodeBytes {b0 b1 b2 b3 : Byte} {i : Instr}
    (decoded : decodeBytes x [b0, b1, b2, b3] = .ok (i, [])) :
    decode x (wordOfBytes b0 b1 b2 b3) = .ok i := by
  cases word : decode x (wordOfBytes b0 b1 b2 b3) with
  | ok j =>
    simp only [decodeBytes, word, Except.ok.injEq, Prod.mk.injEq, and_true] at decoded
    rw [decoded]
  | error e => simp [decodeBytes, word] at decoded

/-- Where the four bytes at `pc` are the bytes of an instruction, the fetch gives a word that decodes to it. -/
theorem exists_fetch_of_decodeBytes {b : Hart x}
    (plain : ∀ a ∈ byteAddrs b.pc 4, b.regionAt a = .main ∧ b.storedSince a = false) {bytes : List Byte} {i : Instr}
    (reads : readBytes b.mem (byteAddrs b.pc 4) = some bytes) (decoded : decodeBytes x bytes = .ok (i, [])) :
    ∃ w, b.fetch = .done w ∧ decode x w = .ok i := by
  have four : byteAddrs b.pc 4 = [byteAddr b.pc 0, byteAddr b.pc 1, byteAddr b.pc 2, byteAddr b.pc 3] := rfl
  rw [four] at reads
  obtain ⟨b0, _, read0, reads1, rfl⟩ := readBytes_cons_eq_some reads
  obtain ⟨b1, _, read1, reads2, rfl⟩ := readBytes_cons_eq_some reads1
  obtain ⟨b2, _, read2, reads3, rfl⟩ := readBytes_cons_eq_some reads2
  obtain ⟨b3, _, read3, reads4, rfl⟩ := readBytes_cons_eq_some reads3
  obtain rfl := Option.some.inj reads4
  refine ⟨_, fetch_of_read plain read0 read1 read2 read3, ?_⟩
  exact decode_of_decodeBytes decoded

/-- The hart that has taken an input in which no other agent writes. -/
theorem agentWrites_awake_of_no_writes {h : Hart x} (before : h.nextInput.agentBeforeFetch = [])
    (after : h.nextInput.agentAfterFetch = []) :
    h.beginStep.awake.agentWrites h.beginStep.awake.now.agentAfterFetch =
      { h with now := h.nextInput, env := h.env.tail, steps := h.steps + 1, waiting := false } := by
  have begun : h.beginStep = { h with now := h.nextInput, env := h.env.tail, steps := h.steps + 1 } := by
    rw [beginStep_eq, before]
    rfl
  have later : h.beginStep.awake.now.agentAfterFetch = [] := by rw [begun]; exact after
  rw [later, agentWrites_eq, begun]
  rfl

/-- Settles O6: the fetch gives a word that decodes to the instruction, which the step executes. -/
theorem stepRunsDecodedInstruction : Obligations.StepRunsDecodedInstruction := by
  rintro x h _ i bytes rfl runs none_taken plain reads decoded
  obtain ⟨w, fetch, word⟩ := exists_fetch_of_decodeBytes plain reads decoded
  refine ⟨?_, agentWrites_awake_of_no_writes⟩
  rw [step_of_fetch_done runs none_taken fetch, stepWord_of_decode_ok _ word]

end Sys2Proof.Proofs.StepFetch

namespace Sys2Proof.Proofs.SampleWords

open Sys2Proof.Proofs.Encoding

/-! ### Sample words (30_encoding.md) -/

/-- Settles O5: each of the ten words is the word the encoder writes for its instruction. -/
theorem sampleWordsDecodeAsTheSpecWritesThem : Obligations.SampleWordsDecodeAsTheSpecWritesThem :=
  ⟨decodeInvertsEncode .rv32 (.lui 5 0x12345) rfl, decodeInvertsEncode .rv32 (.sub 5 6 7) rfl,
    decodeInvertsEncode .rv32 (.fence 0 1 2 0 0) rfl, decodeInvertsEncode .rv32 (.csrrw 5 0x340 6) rfl,
    decodeInvertsEncode .rv32 .mret rfl, decodeInvertsEncode .rv32 (.lb 5 6 0xFFF) rfl,
    decodeInvertsEncode .rv32 (.sw 7 6 0xFFC) rfl, decodeInvertsEncode .rv32 (.jal 0 0x1FFFFC) rfl,
    decodeInvertsEncode .rv32 (.bne 6 7 0x1FF8) rfl, decodeInvertsEncode .rv64 (.sraiw 5 6 4) rfl⟩

end Sys2Proof.Proofs.SampleWords

namespace Sys2Proof.Proofs.Reset

open Sys2Proof.Machine Sys2Proof.Laws

variable {x : Xlen}

/-! ### The state right after reset (70_reset_and_hazards.md R400, R401, R403) -/

/-- The mode MPP holds after reset is implemented (R33; notes/assumptions/4.md). -/
theorem modeExists_launch_mpp (cfg : Config x) :
    modeExists cfg (if cfg.hasU then .u else if cfg.hasS then .s else .m) := by
  split
  · assumption
  · split
    · assumption
    · trivial

/-- Every field of `mstatus` but MPP is zero after reset. -/
theorem mstatusOk_launch (cfg : Config x) (image : Memory) (env : List StepInput) :
    MstatusOk cfg (State.launch x cfg image env).hart.mstatus where
  mpp := modeExists_launch_mpp cfg
  supervisor _ := ⟨rfl, rfl, rfl, rfl, rfl, rfl⟩
  user _ := rfl
  timeout _ _ := rfl

theorem toNat_zero_mod_four : (0 : XWord x).toNat % 4 = 0 := by simp

/-- Settles O15: the registers are zero, the memory is the image and no byte has been written since. -/
theorem launchMeetsTheInvariant : Obligations.LaunchMeetsTheInvariant := by
  intro x cfg image env ok rising inMain
  have aligned : (0 : XWord x).toNat % 4 = 0 := toNat_zero_mod_four
  have base : (0 : XWord x).toNat % 4 < 2 := by omega
  exact
    { config := ok
      pcAligned := ok.resetPc
      mepcAligned := aligned
      sepcAligned := aligned
      mtvecMode := base
      stvecMode := base
      medelegBits := BitVec.zero_and
      midelegBits := BitVec.zero_and
      mieBits := BitVec.zero_and
      mipBits := BitVec.zero_and
      privExists := trivial
      mstatusOk := mstatusOk_launch cfg image env
      memRising := rising
      memMain := inMain
      historyRising := List.Pairwise.nil
      historyMain := nofun }

/-- The parameters of `State.reset` are admissible (notes/assumptions/2.md). -/
theorem configOk_default (x : Xlen) : ConfigOk (Config.default x) where
  modes _ := rfl
  resetPc := toNat_zero_mod_four
  endPc := nofun

/-- Settles O14: reset is a launch, with admissible parameters and an empty image. -/
theorem resetMeetsTheInvariant : Obligations.ResetMeetsTheInvariant :=
  launchMeetsTheInvariant .rv32 (Config.default .rv32) [] [] (configOk_default .rv32) List.Pairwise.nil nofun

/-- Settles O60: the values are those the launch writes, and MPP is an implemented mode by a case split on the modes. -/
theorem resetLeavesTheValuesTheSpecGives : Obligations.ResetLeavesTheValuesTheSpecGives := by
  rintro x cfg image env _ rfl
  exact ⟨rfl, rfl, rfl, rfl, rfl, rfl, rfl, rfl, rfl, rfl, rfl, rfl, rfl, rfl, modeExists_launch_mpp cfg, rfl⟩

end Sys2Proof.Proofs.Reset

namespace Sys2Proof.Proofs.Isolation

open Sys2Proof.Machine Sys2Proof.Laws Sys2Proof.Proofs.Execution Sys2Proof.Proofs.CsrWrites Sys2Proof.Proofs.System

variable {x : Xlen}

/-! ### What an instruction can do to the system state (10_state.md R30 to R51, 60_exceptions.md R340, R341) -/

/-- The ways an instruction that answers a next state can leave the control and status registers, the mode and the
waiting bit. -/
inductive SystemCases (h : Hart x) (i : Instr) (t : Hart x) : Prop where
  /-- It leaves them as they were. -/
  | keeps (same : h.SameSystem t)
  /-- It takes an exception. -/
  | raises (e : Exn x) (taken : t = h.takeException e)
  /-- It writes a register it may access. -/
  | writesCsr (a : CsrAddr) (c : Csr) (new : XWord x) (access : h.csrAccess a true = some c)
      (same : (h.csrWrite c new).SameSystem t)
  /-- It is MRET in M-mode. -/
  | returnsM (mode : h.priv = .m)
  /-- It is an SRET that is legal. -/
  | returnsS (legal : h.sretAllowed = true) (returned : t = h.trapReturnS)
  /-- It is a WFI that is legal. -/
  | waits (wait : i = .wfi) (legal : h.wfiAllowed = true) (waiting : t = h.startWaiting)

theorem exec_systemCases {h : Hart x} {i : Instr} {s : State} (run : exec i ⟨x, h⟩ = .next s) :
    ∃ t : Hart x, s = ⟨x, t⟩ ∧ SystemCases h i t := by
  have cases_of_run := exec_cases h i
  rw [run] at cases_of_run
  cases cases_of_run with
  | raises e => exact ⟨_, rfl, .raises e rfl⟩
  | computes rd v => exact ⟨_, rfl, .keeps (by constructor <;> simp)⟩
  | accessesIo e rd v => exact ⟨_, rfl, .keeps (by constructor <;> simp)⟩
  | stores a n v => exact ⟨_, rfl, .keeps (by constructor <;> simp)⟩
  | syncs => exact ⟨_, rfl, .keeps (by constructor <;> simp)⟩
  | writesCsr a c new rd v access => exact ⟨_, rfl, .writesCsr a c new access (by constructor <;> simp)⟩
  | jumps rd v target => exact ⟨_, rfl, .keeps (by constructor <;> simp)⟩
  | returnsM ret mode => exact ⟨_, rfl, .returnsM mode⟩
  | returnsS ret legal => exact ⟨_, rfl, .returnsS legal rfl⟩
  | waits wait legal => exact ⟨_, rfl, .waits wait legal rfl⟩

/-- The second check of R180: the mode a register's address asks for is at most the present one. -/
theorem csrMode_le_of_csrAccess {h : Hart x} {a : CsrAddr} {writes : Bool} {c : Csr}
    (access : h.csrAccess a writes = some c) : (csrAddress c).toNat / 256 % 4 ≤ Priv.num h.priv := by
  obtain ⟨permits_iff, at_address⟩ := csrAccess_permits h a (W := writes = true) Iff.rfl
  rw [(csrAt_iff a c).1 (at_address c access)]
  exact (permits_iff.2 ⟨c, access⟩).mode

/-! ### U-mode (R340) -/

/-- No register's address allows an access from U-mode (R31). -/
theorem csrMode_pos (c : Csr) : 0 < (csrAddress c).toNat / 256 % 4 := by cases c <;> decide

/-- Settles O17: U-mode reaches no register and no trap return, and a WFI legal there is on a hart without S-mode. -/
theorem userModeChangesNoSystemStateButByTrap : Obligations.UserModeChangesNoSystemStateButByTrap := by
  intro x h i s user run
  obtain ⟨t, rfl, system⟩ := exec_systemCases run
  refine ⟨t, rfl, ?_⟩
  cases system with
  | keeps same => exact .inl same
  | raises e taken => exact .inr (.inl ⟨_, _, taken ▸ takeException_traps h e⟩)
  | writesCsr a c new access =>
    have mode := csrMode_le_of_csrAccess access
    rw [user] at mode
    exact absurd mode (Nat.not_le.2 (csrMode_pos c))
  | returnsM mode => cases user.symm.trans mode
  | returnsS legal => exact absurd user (priv_ne_u_of_sretAllowed legal)
  | waits wait legal waiting =>
    rcases (wfiAllowed_iff h).1 legal with machine | ⟨timeout, supervisor | noS⟩
    · cases user.symm.trans machine
    · cases user.symm.trans supervisor
    · exact .inr (.inr ⟨wait, noS, timeout, waiting⟩)

/-! ### S-mode (R340, R341) -/

/-- The machine's own registers and fields are the same: of `mie` what is not delegated to S-mode, of the storage bits of
`mip` all but SSIP, of `mstatus` what `sstatus` does not reach. -/
structure SameMachine (h t : Hart x) : Prop where
  cfg : t.cfg = h.cfg
  medeleg : t.medeleg = h.medeleg
  mideleg : t.mideleg = h.mideleg
  mtvec : t.mtvec = h.mtvec
  mscratch : t.mscratch = h.mscratch
  mepc : t.mepc = h.mepc
  mcause : t.mcause = h.mcause
  mtval : t.mtval = h.mtval
  mie : ∀ k, ¬ (k ∈ [1, 5, 9] ∧ h.mideleg.getLsbD k = true) → t.mie.getLsbD k = h.mie.getLsbD k
  mipSoft : ∀ k, k ≠ 1 → t.mipSoft.getLsbD k = h.mipSoft.getLsbD k
  mstatus : t.mstatus.mie = h.mstatus.mie ∧ t.mstatus.mpie = h.mstatus.mpie ∧ t.mstatus.mpp = h.mstatus.mpp ∧
    t.mstatus.mprv = h.mstatus.mprv ∧ t.mstatus.tvm = h.mstatus.tvm ∧ t.mstatus.tw = h.mstatus.tw ∧
    t.mstatus.tsr = h.mstatus.tsr

theorem SameMachine.refl (h : Hart x) : SameMachine h h where
  cfg := rfl
  medeleg := rfl
  mideleg := rfl
  mtvec := rfl
  mscratch := rfl
  mepc := rfl
  mcause := rfl
  mtval := rfl
  mie _ _ := rfl
  mipSoft _ _ := rfl
  mstatus := ⟨rfl, rfl, rfl, rfl, rfl, rfl, rfl⟩

/-- What keeps the whole system state keeps the machine's part of it. -/
theorem SameMachine.of_sameSystem {h u t : Hart x} (first : SameMachine h u) (same : u.SameSystem t) :
    SameMachine h t where
  cfg := same.cfg.trans first.cfg
  medeleg := same.medeleg.trans first.medeleg
  mideleg := same.mideleg.trans first.mideleg
  mtvec := same.mtvec.trans first.mtvec
  mscratch := same.mscratch.trans first.mscratch
  mepc := same.mepc.trans first.mepc
  mcause := same.mcause.trans first.mcause
  mtval := same.mtval.trans first.mtval
  mie := same.mie ▸ first.mie
  mipSoft := same.mipSoft ▸ first.mipSoft
  mstatus := same.mstatus ▸ first.mstatus

/-- A write through a mask leaves the bits outside the mask. -/
theorem merge_bit_of_clear {w k : Nat} {m : BitVec w} (clear : m.getLsbD k = false) (old v : BitVec w) :
    ((old &&& ~~~m) ||| (v &&& m)).getLsbD k = old.getLsbD k := by
  by_cases below : k < w
  · simp only [BitVec.getLsbD_or, BitVec.getLsbD_and, BitVec.getLsbD_not, clear, below]
    simp
  · rw [BitVec.getLsbD_of_ge _ k (Nat.le_of_not_lt below), BitVec.getLsbD_of_ge _ k (Nat.le_of_not_lt below)]

/-- `sie` shows the delegated ones of bits 1, 5 and 9 (R42). -/
theorem sieMask_bit_clear {mideleg : XWord x} {k : Nat} (undelegated : ¬ (k ∈ [1, 5, 9] ∧ mideleg.getLsbD k = true)) :
    (mideleg &&& supervisorMask x).getLsbD k = false := by
  rw [← Bool.not_eq_true]
  intro set
  have below : k < x.bits := BitVec.lt_of_getLsbD set
  rw [BitVec.getLsbD_and, supervisorMask, supervisorMask_bit below, Bool.and_eq_true] at set
  obtain ⟨delegated, listed⟩ := set
  exact undelegated ⟨of_decide_eq_true listed, delegated⟩

theorem two_bit_clear {k : Nat} (other : k ≠ 1) : (2 : XWord x).getLsbD k = false := by
  rw [← Bool.not_eq_true]
  intro set
  rw [two_bit (BitVec.lt_of_getLsbD set)] at set
  exact other (of_decide_eq_true set)

theorem sameMachine_csrWrite_sip (h : Hart x) (v : XWord x) : SameMachine h (h.csrWrite .sip v) := by
  unfold Hart.csrWrite
  dsimp only
  split
  · exact { SameMachine.refl h with mipSoft := fun k other => merge_bit_of_clear (two_bit_clear other) h.mipSoft v }
  · exact .refl h

/-- A write to a register whose address S-mode reaches leaves the machine's part. -/
theorem sameMachine_csrWrite (h : Hart x) {c : Csr} (mode : (csrAddress c).toNat / 256 % 4 ≤ 1) (v : XWord x) :
    SameMachine h (h.csrWrite c v) := by
  cases c with
  | sstatus | stvec | sscratch | sepc | scause | stval | satp => exact { SameMachine.refl h with }
  | sie =>
    exact { SameMachine.refl h with
      mie := fun k undelegated => merge_bit_of_clear (sieMask_bit_clear undelegated) h.mie v }
  | sip => exact sameMachine_csrWrite_sip h v
  | _ => exact absurd mode (by decide)

/-- Settles O18: S-mode reaches the supervisor's registers, SRET and WFI, and each leaves the machine's part. -/
theorem supervisorModeLeavesMachineStateButByTrap : Obligations.SupervisorModeLeavesMachineStateButByTrap := by
  intro x h i s supervisor run
  obtain ⟨t, rfl, system⟩ := exec_systemCases run
  have trap_or_same : (∃ code tval, h.Traps t false code tval h.pc) ∨ SameMachine h t := by
    cases system with
    | keeps same => exact .inr ((SameMachine.refl h).of_sameSystem same)
    | raises e taken => exact .inl ⟨_, _, taken ▸ takeException_traps h e⟩
    | writesCsr a c new access same =>
      have mode := csrMode_le_of_csrAccess access
      rw [supervisor] at mode
      exact .inr ((sameMachine_csrWrite h mode new).of_sameSystem same)
    | returnsM mode => cases supervisor.symm.trans mode
    | returnsS legal returned => exact .inr (returned ▸ { SameMachine.refl h with })
    | waits wait legal waiting => exact .inr (waiting ▸ { SameMachine.refl h with })
  refine ⟨t, rfl, trap_or_same.imp_right fun same => ?_⟩
  exact ⟨same.cfg, same.medeleg, same.mideleg, same.mtvec, same.mscratch, same.mepc, same.mcause, same.mtval, same.mie,
    same.mipSoft, same.mstatus⟩

end Sys2Proof.Proofs.Isolation
